-- ==== Sys2Proof/Word.lean ====
section
/-! DEFINITION. The word types of the HLZ codec core (00_scope.md R9 to R11). -/

namespace Sys2Proof

/-- A byte, an 8-bit unsigned value (R9). -/
abbrev Byte := BitVec 8

/-- A host register word, 32 bits (R6, R21). -/
abbrev Word := BitVec 32

/-- A bit sequence, first bit leftmost; `false` is the bit 0 and `true` the bit 1 (R10). -/
abbrev BitSeq := List Bool

/-- A Symbol, 0 to 256 (R9, 41_huffman_encoder.md R140). -/
abbrev Symbol := Fin 257

/-- EOS, the end-of-stream Symbol 256 (R140). -/
def eos : Symbol := 256

/-- The Symbol of a byte (R140). -/
def Symbol.ofByte (b : Byte) : Symbol := ⟨b.toNat, by omega⟩

end Sys2Proof
end

