-- ==== Sys2Proof/Syntax.lean ====
section
/-! DEFINITION. The commands of the block (30_encoding.md R81). -/

namespace Sys2Proof

/-- The eleven commands, one constructor per row of spec/opcode_table.json (R81). BW_WRITE alone has an operand:
OPA, any byte (R82). -/
inductive Instr where
  | bwOpen
  | bwWrite (opa : Byte)
  | bwClose
  | brOpen
  | brRead
  | brReadReq
  | brClose
  | hufEnc
  | hufDec
  | lzEnc
  | lzDec
deriving DecidableEq, Repr

end Sys2Proof
end

