-- ==== Sys2Proof/WellFormed.lean ====
section
/-! DEFINITION. Which command words are legal (30_encoding.md R80, R83): three checks on the fields of a word.
A term of `Instr` is well formed by its type, since its one operand is a byte (R82); what can be ill formed is a
word's fields. -/

namespace Sys2Proof

/-- The three fields of a command word (R80). -/
structure CmdFields where
  opc : Byte
  opa : Byte
  rsv : BitVec 16
deriving DecidableEq, Repr

/-- OPC is one of the eleven assigned values (R81, R83 (a)). -/
def CmdFields.opcAssigned (f : CmdFields) : Bool :=
  [0x01#8, 0x02#8, 0x03#8, 0x04#8, 0x05#8, 0x06#8, 0x07#8, 0x10#8, 0x11#8, 0x20#8, 0x21#8].contains f.opc

/-- RSV is 0 (R83 (b)). -/
def CmdFields.rsvZero (f : CmdFields) : Bool := f.rsv == 0#16

/-- OPA is 0 unless the command is BW_WRITE (R83 (c)). -/
def CmdFields.opaAllowed (f : CmdFields) : Bool := f.opc == 0x02#8 || f.opa == 0#8

/-- The word is one of the eleven commands (R83). -/
def CmdFields.wellFormed (f : CmdFields) : Bool := f.opcAssigned && f.rsvZero && f.opaAllowed

end Sys2Proof
end

