-- ==== Sys2Proof/Decode.lean ====
section
/-! DEFINITION. The decoder of a command word, total on every 32-bit word (30_encoding.md R85), and the encoder
written from the same table (R80, R81). -/

namespace Sys2Proof

/-- Why a word is no command (R83). Each one is reported as IllegalCommand, code 10. -/
inductive Illegal where
  /-- R83 (a): OPC is unassigned. -/
  | opcUnassigned
  /-- R83 (b): RSV is not 0. -/
  | rsvNonzero
  /-- R83 (c): OPA is not 0 and OPC is not BW_WRITE's. -/
  | opaNonzero
deriving DecidableEq, Repr

/-- The fields of a word: OPC bits 7:0, OPA bits 15:8, RSV bits 31:16 (R80). -/
def fieldsOf (v : Word) : CmdFields where
  opc := v.extractLsb' 0 8
  opa := v.extractLsb' 8 8
  rsv := v.extractLsb' 16 16

/-- The word with the given fields (R80). -/
def wordOf (f : CmdFields) : Word := f.rsv ++ f.opa ++ f.opc

/-- The command of an opcode, with OPA as BW_WRITE's operand (R81, R82). -/
def instrOf (opc opa : Byte) : Option Instr :=
  if opc = 0x01#8 then some .bwOpen
  else if opc = 0x02#8 then some (.bwWrite opa)
  else if opc = 0x03#8 then some .bwClose
  else if opc = 0x04#8 then some .brOpen
  else if opc = 0x05#8 then some .brRead
  else if opc = 0x06#8 then some .brReadReq
  else if opc = 0x07#8 then some .brClose
  else if opc = 0x10#8 then some .hufEnc
  else if opc = 0x11#8 then some .hufDec
  else if opc = 0x20#8 then some .lzEnc
  else if opc = 0x21#8 then some .lzDec
  else none

/-- `DecodeCmd` (R85): the three checks in the order of the rule. -/
def decode (v : Word) : Except Illegal Instr :=
  match instrOf (fieldsOf v).opc (fieldsOf v).opa with
  | none => .error .opcUnassigned
  | some i =>
    if (fieldsOf v).rsv ≠ 0#16 then .error .rsvNonzero
    else if (fieldsOf v).opc ≠ 0x02#8 ∧ (fieldsOf v).opa ≠ 0#8 then .error .opaNonzero
    else .ok i

/-- The fields of a command's word: its OPC of R81, its operand in OPA (0 where it has none, R82), RSV 0. -/
def Instr.fields : Instr → CmdFields
  | .bwOpen => ⟨0x01#8, 0#8, 0#16⟩
  | .bwWrite opa => ⟨0x02#8, opa, 0#16⟩
  | .bwClose => ⟨0x03#8, 0#8, 0#16⟩
  | .brOpen => ⟨0x04#8, 0#8, 0#16⟩
  | .brRead => ⟨0x05#8, 0#8, 0#16⟩
  | .brReadReq => ⟨0x06#8, 0#8, 0#16⟩
  | .brClose => ⟨0x07#8, 0#8, 0#16⟩
  | .hufEnc => ⟨0x10#8, 0#8, 0#16⟩
  | .hufDec => ⟨0x11#8, 0#8, 0#16⟩
  | .lzEnc => ⟨0x20#8, 0#8, 0#16⟩
  | .lzDec => ⟨0x21#8, 0#8, 0#16⟩

/-- The word of a command (R80, R81). -/
def encode (i : Instr) : Word := wordOf i.fields

/-- The word the host lays out for an opcode-table row: one 32-bit word, bit 0 least significant (R80), the bits
above `nbits` zero (log entry 3). -/
def tableWord (nbits w : Nat) : Word := BitVec.ofNat 32 (w % 2 ^ nbits)

/-- What the decoder reads from an instruction whose bits are `w`, numbered as spec/opcode_table.json numbers them. -/
def decodeTableWord (nbits w : Nat) : Option Instr := (decode (tableWord nbits w)).toOption

/-- A row of the opcode table: the word's bits under `mask` are `pattern` (R85, spec/opcode_table.json). -/
structure OpcodeRow where
  mnemonic : String
  pattern : Word
  mask : Word
deriving DecidableEq, Repr

/-- spec/opcode_table.json, row by row. -/
def opcodeTable : List OpcodeRow :=
  [⟨"BW_OPEN", 0x00000001#32, 0xFFFFFFFF#32⟩, ⟨"BW_WRITE", 0x00000002#32, 0xFFFF00FF#32⟩,
   ⟨"BW_CLOSE", 0x00000003#32, 0xFFFFFFFF#32⟩, ⟨"BR_OPEN", 0x00000004#32, 0xFFFFFFFF#32⟩,
   ⟨"BR_READ", 0x00000005#32, 0xFFFFFFFF#32⟩, ⟨"BR_READREQ", 0x00000006#32, 0xFFFFFFFF#32⟩,
   ⟨"BR_CLOSE", 0x00000007#32, 0xFFFFFFFF#32⟩, ⟨"HUF_ENC", 0x00000010#32, 0xFFFFFFFF#32⟩,
   ⟨"HUF_DEC", 0x00000011#32, 0xFFFFFFFF#32⟩, ⟨"LZ_ENC", 0x00000020#32, 0xFFFFFFFF#32⟩,
   ⟨"LZ_DEC", 0x00000021#32, 0xFFFFFFFF#32⟩]

/-- The word matches the row (R85). -/
def OpcodeRow.accepts (r : OpcodeRow) (v : Word) : Bool := v &&& r.mask == r.pattern

end Sys2Proof
end

