-- ==== Sys2Proof/Config.lean ====
section
/-! DEFINITION. The block's parameters (00_scope.md R6). -/

namespace Sys2Proof

/-- The OPEN parameters, fixed for one machine and carried by State as plain data, so that every statement is
about every value of them (log entry 4).
DESIGN CHOICE: a field, not a constant. -/
structure Config where
  /-- `IN_MAX`, the most bytes HUF_ENC, LZ_ENC and LZ_DEC buffer; `none` is `unbounded` (R6, 20_memory.md R64). -/
  inMax : Option Nat
deriving DecidableEq, Repr

/-- `CODE_MAX`, the longest code the table deserializer accepts, in bits (R6). -/
def codeMax : Nat := 256

/-- `NSYM`, the number of Symbols and of code table slots (R6, 10_state.md R32). -/
def nsym : Nat := 257

end Sys2Proof
end

