-- ==== Sys2Proof/Machine/State.lean ====
section
/-! DEFINITION. The state of the machine: the block's registers (10_state.md R20), the ports it shares with the host
(20_memory.md R51 to R56), the host's coming actions and the configuration. Plain data only. -/

namespace Sys2Proof.Machine

/-- The block's error kinds (60_exceptions.md R230). They are architected outcomes, reported in STATUS, not model
faults (00_scope.md R8). -/
inductive Err where
  | emptyInput
  | invalidBit
  | unexpectedEndOfStream
  | truncatedStream
  | duplicateSymbol
  | corruptTable
  | corruptTree
  | corruptStream
  | capacityExceeded
  | illegalCommand
  | sequenceError
deriving DecidableEq, Repr

/-- STATUS by its fields (10_state.md R23); bits 7:3 and 31:12 are hardwired 0 and have no storage. -/
structure Status where
  busy : Bool
  done : Bool
  err : Bool
  errCode : BitVec 4
deriving DecidableEq, Repr

/-- RESULT by its fields BIT and END (10_state.md R25); the other bits are hardwired 0 and have no storage. -/
structure Result where
  bit : Bool
  endMark : Bool
deriving DecidableEq, Repr

/-- A writer channel: the accumulator and the number of bits buffered, 0 to 7 (40_bitchannel.md R110; W_ACC and W_NB
of 10_state.md R28, and the private pw_acc and pw_nb of R35). -/
structure WriterChan where
  acc : Byte
  nb : Fin 8
deriving DecidableEq, Repr

/-- A reader channel: the last byte pulled and the number of its bits not yet returned, 0 to 8 (40_bitchannel.md R110;
R_BUF and R_NB of 10_state.md R29, and the private pr_buf and pr_nb of R35). -/
structure ReaderChan where
  buf : Byte
  nb : Fin 9
deriving DecidableEq, Repr

/-- The source ports (20_memory.md R51). -/
inductive SrcPort where
  | inp
  | tbli
deriving DecidableEq, Repr

/-- The sink ports (20_memory.md R51). -/
inductive SinkPort where
  | out
  | tblo
deriving DecidableEq, Repr

/-- Any of the four ports (20_memory.md R51). -/
inductive Port where
  | src (p : SrcPort)
  | sink (p : SinkPort)
deriving DecidableEq, Repr

/-- A port event, as `hist` records it (20_memory.md R52, R53, R54). -/
inductive Event where
  | pull (p : SrcPort) (b : Byte)
  | endOf (p : SrcPort)
  | fail (p : SrcPort)
  | push (p : SinkPort) (b : Byte)
  | rel (p : Port)
deriving DecidableEq, Repr

/-- A source port: its queue and its failure flag (20_memory.md R52). -/
structure Source where
  q : List Byte
  fail : Bool
deriving DecidableEq, Repr

/-- The four ports and the one ordered event history, oldest event first (20_memory.md R51 to R56). -/
structure Ports where
  inp : Source
  tbli : Source
  out : List Byte
  tblo : List Byte
  hist : List Event
deriving DecidableEq, Repr

/-- What the host can do between two commands (70_reset_and_hazards.md R262), and the actions R263 says a model
refuses. Offsets and sizes are in bytes (20_memory.md R60). -/
inductive HostAction where
  /-- `HostWrite(off, v)`, `size` bytes wide. -/
  | write (off size : Nat) (v : Word)
  /-- `HostRead(off)`, `size` bytes wide. -/
  | read (off size : Nat)
  /-- `host.load P, <bytes>`. -/
  | load (p : SrcPort) (bytes : List Byte)
  /-- `host.fail P` (true) and `host.unfail P` (false). -/
  | setFail (p : SrcPort) (f : Bool)
  /-- `host.drain P`. -/
  | drain (p : SinkPort)
  /-- `host.copy TBLO -> TBLI`. -/
  | copyTable
  /-- `host.reset`, between two commands (R260). -/
  | reset
  /-- The command `v` is started and reset is asserted after `events` of its port events, or after all of them but its
  own release (R261). -/
  | resetDuring (v : Word) (events : Nat)
  /-- Replacing a source queue other than by loading: refused (R263 (d)). -/
  | editSource (p : SrcPort) (q : List Byte)
  /-- Replacing a sink log other than by draining: refused (R263 (d)). -/
  | editSink (p : SinkPort) (log : List Byte)
deriving DecidableEq, Repr

/-- A model fault. -/
inductive Fault where
  /-- A bounded loop of a codec used up its bound before the loop of the rule ended. No state raises it: each bound is
  taken from the data (log entry 9). Safe: the machine would stop. -/
  | loopBound
deriving DecidableEq, Repr

/-- A refusal: a host action to which the spec gives no meaning (70_reset_and_hazards.md R263), changing no state.
Safe: the machine stops. -/
inductive Refusal where
  /-- Raised by `exec` for a command without a meaning; no arm does so. Safe. -/
  | notModelled (mnemonic : String)
  /-- R263 (a): a write to CMD while STATUS.BUSY = 1. Raised by `perform`. Safe. -/
  | commandWhileBusy
  /-- R263 (b), R60: a register access that is not a whole aligned word of the window. Raised by `perform`. Safe. -/
  | badAccess
  /-- R263 (c): a port action while STATUS.BUSY = 1. Raised by `perform`. Safe. -/
  | portActionWhileBusy
  /-- R263 (d): a host action that edits a queue or a log. Raised by `perform`. Safe. -/
  | portEdit
deriving DecidableEq, Repr

/-- The state. The codec working storage of R30 is local to one command and has no field (log entry 10). -/
structure State where
  /-- STATUS (10_state.md R23). -/
  status : Status
  /-- RESULT (10_state.md R25). -/
  result : Result
  /-- W_OPEN (10_state.md R28). -/
  wOpen : Bool
  /-- W_ACC and W_NB (10_state.md R28). -/
  wChan : WriterChan
  /-- R_OPEN (10_state.md R29). -/
  rOpen : Bool
  /-- R_BUF and R_NB (10_state.md R29). -/
  rChan : ReaderChan
  /-- The ports and `hist` (20_memory.md R51 to R56), owned by the host. -/
  ports : Ports
  /-- The model's own: the host's coming actions, the next one first (log entry 1). -/
  pending : List HostAction
  /-- The model's own: the word the host's last register read answered (log entry 8). -/
  readData : Option Word
  /-- The parameters, constant along a run (log entry 4). -/
  config : Config
deriving DecidableEq, Repr

/-- The machine after power-on: the block's registers as R38 gives them; ports empty and not failed, `hist` empty
(DESIGN CHOICE, log entry 5), IN_MAX unbounded (DESIGN CHOICE, log entry 4), no host action pending (log entry 1). -/
def State.reset : State where
  status := ⟨false, false, false, 0#4⟩
  result := ⟨false, false⟩
  wOpen := false
  wChan := ⟨0#8, 0⟩
  rOpen := false
  rChan := ⟨0#8, 0⟩
  ports := ⟨⟨[], false⟩, ⟨[], false⟩, [], [], []⟩
  pending := []
  readData := none
  config := ⟨none⟩

end Sys2Proof.Machine
end

