-- ==== Sys2Proof/Machine/Flags.lean ====
section
/-! DEFINITION. STATUS, the error codes and RESULT (10_state.md R23 to R26, 60_exceptions.md R230): every value a
command gives them, and the words a host reads. -/

namespace Sys2Proof.Machine

/-- The code of an error (60_exceptions.md R230). -/
def Err.code : Err → BitVec 4
  | .emptyInput => 1#4
  | .invalidBit => 2#4
  | .unexpectedEndOfStream => 3#4
  | .truncatedStream => 4#4
  | .duplicateSymbol => 5#4
  | .corruptTable => 6#4
  | .corruptTree => 7#4
  | .corruptStream => 8#4
  | .capacityExceeded => 9#4
  | .illegalCommand => 10#4
  | .sequenceError => 11#4

/-- STATUS at a command's start (10_state.md R24). -/
def Status.started : Status := ⟨true, false, false, 0#4⟩

/-- STATUS after the outcome *completed* (10_state.md R24). -/
def Status.completed : Status := ⟨false, true, false, 0#4⟩

/-- STATUS after the outcome *error* (10_state.md R24, 60_exceptions.md R233). -/
def Status.failed (e : Err) : Status := ⟨false, true, true, e.code⟩

/-- A flag as a register bit. -/
def bitWord (b : Bool) : Word := if b then 1#32 else 0#32

/-- The word a host reads from STATUS: BUSY bit 0, DONE bit 1, ERR bit 2, ERRCODE bits 11:8, all other bits 0
(10_state.md R23). -/
def Status.toWord (s : Status) : Word :=
  bitWord s.busy ||| (bitWord s.done <<< 1) ||| (bitWord s.err <<< 2) ||| (s.errCode.zeroExtend 32 <<< 8)

/-- RESULT after a read that returned the bit `b` (10_state.md R25, 40_bitchannel.md R118). -/
def Result.ofBit (b : Bool) : Result := ⟨b, false⟩

/-- RESULT after a read that returned the end sentinel, 0x100 (10_state.md R25, 40_bitchannel.md R118). -/
def Result.atEnd : Result := ⟨false, true⟩

/-- The word a host reads from RESULT: BIT bit 0, END bit 8, all other bits 0 (10_state.md R25). -/
def Result.toWord (r : Result) : Word := bitWord r.bit ||| (bitWord r.endMark <<< 8)

end Sys2Proof.Machine
end

