-- ==== Sys2Proof/Machine/Operands.lean ====
section
/-! DEFINITION. The one operand form: BW_WRITE's OPA (30_encoding.md R82). -/

namespace Sys2Proof.Machine

/-- The bit OPA stands for: 0 and 1 are bits, every other byte is none and raises InvalidBit when executed
(30_encoding.md R82, 40_bitchannel.md R115). -/
def bitOperand (opa : Byte) : Option Bool :=
  if opa = 0#8 then some false
  else if opa = 1#8 then some true
  else none

end Sys2Proof.Machine
end

