-- ==== Sys2Proof/Machine/Ops.lean ====
section
/-! DEFINITION. The operations every command is written over: port access (20_memory.md R52 to R54), the shared
bit-level functions (40_bitchannel.md R111 to R113), ReadAll (20_memory.md R64), and how a command starts, completes
and ends in error (10_state.md R24, 60_exceptions.md R233). -/

namespace Sys2Proof.Machine

/-! ### How a command's body can stop -/

/-- Why a body ends before its last statement. -/
inductive Stop where
  /-- `raise E` (00_scope.md R12). -/
  | err (e : Err)
  /-- The model's own: a bounded loop used up its bound (log entry 9). -/
  | overrun
deriving DecidableEq, Repr

/-- A body that reaches the ports only. What it did before a `raise` stays done (60_exceptions.md R233, R234): the
error carries the state. -/
abbrev PortM := EStateM Stop Ports

/-- A body that reaches the whole state. -/
abbrev Cmd := EStateM Stop State

/-- `raise E`: nothing after it in the command runs (00_scope.md R12). -/
def raise {σ α : Type} (e : Err) : EStateM Stop σ α := throw (.err e)

/-- The model's own stop: a bounded loop used up its bound (log entry 9). -/
def overrun {σ α : Type} : EStateM Stop σ α := throw .overrun

/-- A computation on working storage alone, as part of a command. -/
def liftPure {σ α : Type} : Except Stop α → EStateM Stop σ α
  | .ok a => pure a
  | .error e => throw e

/-- A body over the ports, run on the state's ports; every register keeps its value. -/
def onPorts {α : Type} (m : PortM α) : Cmd α := fun s =>
  match m s.ports with
  | .ok a p => .ok a { s with ports := p }
  | .error e p => .error e { s with ports := p }

/-! ### Ports -/

/-- The source port of a name. -/
def Ports.source (ps : Ports) : SrcPort → Source
  | .inp => ps.inp
  | .tbli => ps.tbli

/-- The ports with one source replaced. -/
def Ports.setSource (ps : Ports) (p : SrcPort) (s : Source) : Ports :=
  match p with
  | .inp => { ps with inp := s }
  | .tbli => { ps with tbli := s }

/-- The log of a sink port. -/
def Ports.log (ps : Ports) : SinkPort → List Byte
  | .out => ps.out
  | .tblo => ps.tblo

/-- The ports with one sink log replaced. -/
def Ports.setLog (ps : Ports) (p : SinkPort) (l : List Byte) : Ports :=
  match p with
  | .out => { ps with out := l }
  | .tblo => { ps with tblo := l }

/-- `hist <- hist ++ [e]`. -/
def Ports.record (ps : Ports) (e : Event) : Ports := { ps with hist := ps.hist ++ [e] }

/-- What `Pull` returns (20_memory.md R52). -/
inductive Pulled where
  | byte (b : Byte)
  | endOf
  | fail
deriving DecidableEq, Repr

/-- `Pull(P)` (20_memory.md R52). -/
def pull (p : SrcPort) : PortM Pulled := fun ps =>
  if (ps.source p).fail then .ok .fail (ps.record (.fail p))
  else
    match (ps.source p).q with
    | [] => .ok .endOf (ps.record (.endOf p))
    | b :: rest => .ok (.byte b) ((ps.setSource p { ps.source p with q := rest }).record (.pull p b))

/-- `Push(P, b)` (20_memory.md R53). -/
def push (p : SinkPort) (b : Byte) : PortM Unit := fun ps =>
  .ok () ((ps.setLog p (ps.log p ++ [b])).record (.push p b))

/-- One `Push` per byte, in order: the bytes go on the log and one event per byte on `hist` (20_memory.md R53;
`pushAll_cons` in Laws/Ops.lean is the unrolling). -/
def pushAll (p : SinkPort) (bs : List Byte) : PortM Unit := fun ps =>
  .ok () { ps.setLog p (ps.log p ++ bs) with hist := ps.hist ++ bs.map (Event.push p) }

/-- `Release(P)` (20_memory.md R54). -/
def release (p : Port) : PortM Unit := fun ps => .ok () (ps.record (.rel p))

/-- What one recorded event did to the ports (20_memory.md R52 to R54); used to cut a command short (log entry 7). -/
def Ports.replay (ps : Ports) (e : Event) : Ports :=
  match e with
  | .pull p _ => (ps.setSource p { ps.source p with q := (ps.source p).q.tail }).record e
  | .push p b => (ps.setLog p (ps.log p ++ [b])).record e
  | .endOf _ => ps.record e
  | .fail _ => ps.record e
  | .rel _ => ps.record e

/-! ### Bit channels -/

/-- A bit as a byte. -/
def bitByte (b : Bool) : Byte := if b then 1#8 else 0#8

/-- A channel with nothing buffered, as BW_OPEN (R114) and HUF_ENC's private writer (41_huffman_encoder.md R149)
start it. -/
def WriterChan.fresh : WriterChan := ⟨0#8, 0⟩

/-- A channel with nothing buffered, as BR_OPEN (R117) and HUF_DEC's private reader (42_huffman_decoder.md R177)
start it. -/
def ReaderChan.fresh : ReaderChan := ⟨0#8, 0⟩

/-- `WriteBit(w, b)` (40_bitchannel.md R111). The accumulator is an 8-bit register; where the invariant of 10_state.md
R28 holds nothing is lost (log entry 14). -/
def writeBit (w : WriterChan) (b : Bool) : PortM WriterChan :=
  let acc := w.acc * 2#8 + bitByte b
  if h : w.nb.val + 1 < 8 then pure ⟨acc, ⟨w.nb.val + 1, h⟩⟩
  else do
    push .out acc
    pure .fresh

/-- `WriteBit` for each bit, first first. -/
def writeBits (w : WriterChan) : BitSeq → PortM WriterChan
  | [] => pure w
  | b :: bs => do
    let w' ← writeBit w b
    writeBits w' bs

/-- `CloseWriter(w)`: pad with zero bits, push, release OUT (40_bitchannel.md R112). The channel is empty after it. -/
def closeWriter (w : WriterChan) : PortM WriterChan := do
  if w.nb.val > 0 then
    push .out (w.acc <<< (8 - w.nb.val))
    release (.sink .out)
    pure .fresh
  else
    release (.sink .out)
    pure w

/-- What `ReadBit` returns (40_bitchannel.md R113). -/
inductive BitRead where
  | bit (b : Bool)
  | endOf
  | fail
deriving DecidableEq, Repr

/-- The next buffered bit: `R_NB <- R_NB - 1`, then `R_BUF[R_NB]` (40_bitchannel.md R113). -/
def takeBit (r : ReaderChan) : BitRead × ReaderChan :=
  (.bit (r.buf.getLsbD (r.nb.val - 1)), { r with nb := ⟨r.nb.val - 1, by omega⟩ })

/-- `ReadBit(r)` (40_bitchannel.md R113). -/
def readBit (r : ReaderChan) : PortM (BitRead × ReaderChan) := do
  if r.nb.val = 0 then
    match ← pull .inp with
    | .fail => pure (.fail, r)
    | .endOf => pure (.endOf, r)
    | .byte b => pure (takeBit ⟨b, 8⟩)
  else pure (takeBit r)

/-! ### ReadAll -/

/-- The loop of ReadAll (20_memory.md R64). The first argument bounds the number of pulls. -/
def readAllLoop (inMax : Option Nat) : Nat → List Byte → PortM (List Byte)
  | 0, _ => overrun
  | n + 1, buf => do
    match ← pull .inp with
    | .fail => raise .emptyInput
    | .endOf => pure buf
    | .byte b =>
      if inMax = some buf.length then raise .capacityExceeded
      else readAllLoop inMax n (buf ++ [b])

/-- `ReadAll()` (20_memory.md R64); the bound is the number of bytes queued on IN and the pull that finds none (log
entry 9). -/
def readAll (inMax : Option Nat) : PortM (List Byte) := fun ps =>
  readAllLoop inMax (ps.inp.q.length + 1) [] ps

/-! ### A command's start and end -/

/-- STATUS at the command's start (10_state.md R24). -/
def State.start (s : State) : State := { s with status := .started }

/-- The outcome *completed* (10_state.md R24). -/
def State.complete (s : State) : State := { s with status := .completed }

/-- Taking an error, the block's one exception entry (60_exceptions.md R233): STATUS records the code and nothing
else changes; no state is saved, no mode and no vector exist. The return from it is nothing (R238): the block is idle
and takes the next command. -/
def State.fail (e : Err) (s : State) : State := { s with status := .failed e }

/-- `Execute` inside the STATUS protocol of 10_state.md R24. -/
def runCommand (body : Cmd Unit) (s : State) : Host.Outcome State Fault Refusal :=
  match body s.start with
  | .ok _ s' => .next s'.complete
  | .error (.err e) s' => .next (s'.fail e)
  | .error .overrun _ => .fault .loopBound

/-- A codec command: SequenceError before any port access while a host channel is open (60_exceptions.md R236), else
its body over the ports, with the parameters of the configuration. No register but STATUS changes (40_bitchannel.md
R122). -/
def codec (body : Config → PortM Unit) : Cmd Unit := fun s =>
  if s.wOpen || s.rOpen then raise .sequenceError s
  else onPorts (body s.config) s

/-! ### Reset and the register window -/

/-- Reset of the block (70_reset_and_hazards.md R260, 10_state.md R38): every register to its reset value; the ports
and `hist` are unchanged (20_memory.md R56). -/
def State.resetBlock (s : State) : State :=
  { s with
    status := ⟨false, false, false, 0#4⟩
    result := ⟨false, false⟩
    wOpen := false
    wChan := .fresh
    rOpen := false
    rChan := .fresh }

/-- A whole aligned 32-bit access inside the window (20_memory.md R60). -/
def validAccess (off size : Nat) : Bool := size == 4 && off % 4 == 0 && off < 16

/-- The word at an offset of the window: CMD reads 0, STATUS, RESULT, 0xC reads 0 (20_memory.md R63). -/
def State.readWindow (s : State) (off : Nat) : Word :=
  if off = 4 then s.status.toWord
  else if off = 8 then s.result.toWord
  else 0#32

end Sys2Proof.Machine
end

