-- ==== Sys2Proof/Machine/BitChannel.lean ====
section
/-! DEFINITION. The seven BitChannel commands (40_bitchannel.md R114 to R120). -/

namespace Sys2Proof.Machine

/-- `RESULT <- r`. -/
def setResult (r : Result) : Cmd Unit := fun s => .ok () { s with result := r }

/-- The body of BW_OPEN (R114). -/
def bwOpen : Cmd Unit := fun s =>
  if s.wOpen then raise .sequenceError s
  else .ok () { s with wOpen := true, wChan := .fresh }

/-- BW_OPEN (40_bitchannel.md R114). -/
def execBwOpen (s : State) : Host.Outcome State Fault Refusal := runCommand bwOpen s

/-- The host-commanded writer after a body over the ports (R115, R116). -/
def onWriter (m : WriterChan → PortM WriterChan) : Cmd Unit := do
  let w ← onPorts (m (← get).wChan)
  modify fun s => { s with wChan := w }

/-- The body of BW_WRITE (R115): the session check, then the bit check, then WriteBit. -/
def bwWrite (opa : Byte) : Cmd Unit := do
  if (← get).wOpen then
    match bitOperand opa with
    | none => raise .invalidBit
    | some b => onWriter fun w => writeBit w b
  else raise .sequenceError

/-- BW_WRITE (40_bitchannel.md R115). -/
def execBwWrite (opa : Byte) (s : State) : Host.Outcome State Fault Refusal := runCommand (bwWrite opa) s

/-- The body of BW_CLOSE (R116). -/
def bwClose : Cmd Unit := do
  if (← get).wOpen then
    onWriter closeWriter
    modify fun s => { s with wOpen := false }

/-- BW_CLOSE (40_bitchannel.md R116). -/
def execBwClose (s : State) : Host.Outcome State Fault Refusal := runCommand bwClose s

/-- The body of BR_OPEN (R117). -/
def brOpen : Cmd Unit := fun s =>
  if s.rOpen then raise .sequenceError s
  else .ok () { s with rOpen := true, rChan := .fresh }

/-- BR_OPEN (40_bitchannel.md R117). -/
def execBrOpen (s : State) : Host.Outcome State Fault Refusal := runCommand brOpen s

/-- `ReadBit` on the host-commanded reader (R113, R118). -/
def hostReadBit : Cmd BitRead := do
  let (x, r) ← onPorts (readBit (← get).rChan)
  modify fun s => { s with rChan := r }
  pure x

/-- The body of BR_READ (R118). -/
def brRead : Cmd Unit := do
  if (← get).rOpen then
    match ← hostReadBit with
    | .fail => raise .emptyInput
    | .endOf => setResult .atEnd
    | .bit b => setResult (.ofBit b)
  else setResult .atEnd

/-- BR_READ (40_bitchannel.md R118). -/
def execBrRead (s : State) : Host.Outcome State Fault Refusal := runCommand brRead s

/-- RESULT <- 0x100, then UnexpectedEndOfStream (R119). -/
def requiredAtEnd : Cmd Unit := do
  setResult .atEnd
  raise .unexpectedEndOfStream

/-- The body of BR_READREQ (R119). -/
def brReadReq : Cmd Unit := do
  if (← get).rOpen then
    match ← hostReadBit with
    | .fail => raise .emptyInput
    | .endOf => requiredAtEnd
    | .bit b => setResult (.ofBit b)
  else requiredAtEnd

/-- BR_READREQ (40_bitchannel.md R119). -/
def execBrReadReq (s : State) : Host.Outcome State Fault Refusal := runCommand brReadReq s

/-- The body of BR_CLOSE (R120). -/
def brClose : Cmd Unit := do
  if (← get).rOpen then
    onPorts (release (.src .inp))
    modify fun s => { s with rOpen := false, rChan := .fresh }

/-- BR_CLOSE (40_bitchannel.md R120). -/
def execBrClose (s : State) : Host.Outcome State Fault Refusal := runCommand brClose s

end Sys2Proof.Machine
end

