-- ==== Sys2Proof/Machine/Text.lean ====
section
/-! DEFINITION. The text forms of the streams: decimal numbers (00_scope.md R11, 20_memory.md R59) and the Huffman
table (30_encoding.md R92), in ASCII (R95). -/

namespace Sys2Proof.Machine

/-- `'0'` (30_encoding.md R95). -/
def asciiZero : Byte := 0x30#8

/-- `'1'` (30_encoding.md R95). -/
def asciiOne : Byte := 0x31#8

/-- `'-'` (30_encoding.md R95). -/
def asciiDash : Byte := 0x2D#8

/-- LF (30_encoding.md R95). -/
def asciiLF : Byte := 0x0A#8

/-- A decimal digit byte, 0x30 to 0x39 (30_encoding.md R95, 43_lz78.md R206). -/
def isDigit (b : Byte) : Bool := 0x30 ≤ b.toNat && b.toNat ≤ 0x39

/-- The digit byte of a number below 10. -/
def digitByte (d : Nat) : Byte := BitVec.ofNat 8 (0x30 + d)

/-- The digits of `n` before `acc`, most significant first; the first argument bounds the number of digits. -/
def decLoop : Nat → Nat → List Byte → List Byte
  | 0, _, acc => acc
  | k + 1, n, acc =>
    if n < 10 then digitByte n :: acc
    else decLoop k (n / 10) (digitByte (n % 10) :: acc)

/-- `dec(n)`: the decimal text of `n`, no leading zero, no sign (00_scope.md R11). -/
def dec (n : Nat) : List Byte := decLoop (n + 1) n []

/-- `value(d)`: the number a digit text stands for (43_lz78.md R206). -/
def decValue (d : List Byte) : Nat := d.foldl (fun v b => 10 * v + (b.toNat - 0x30)) 0

/-- The code table: 257 slots, each absent or a code (10_state.md R32). -/
abbrev CodeTable := List (Option BitSeq)

/-- Every slot absent. -/
def CodeTable.empty : CodeTable := List.replicate nsym none

/-- The slot of a Symbol. -/
def CodeTable.slot (t : CodeTable) (k : Symbol) : Option BitSeq := (t[k.val]?).join

/-- A digit of a code record: bit 0 is `'0'`, bit 1 is `'1'` (30_encoding.md R92). -/
def bitDigit (b : Bool) : Byte := if b then asciiOne else asciiZero

/-- One record of the table text (30_encoding.md R92). -/
def recordText : Option BitSeq → List Byte
  | none => [asciiDash, asciiLF]
  | some p => p.map bitDigit ++ [asciiLF]

/-- The table text: one record per slot, in slot order (30_encoding.md R92). -/
def tableText (t : CodeTable) : List Byte := t.flatMap recordText

end Sys2Proof.Machine
end

