-- ==== Sys2Proof/Machine/Tree.lean ====
section
/-! DEFINITION. The Huffman tree (10_state.md R31) and the code-value order of bit sequences (00_scope.md R10). -/

namespace Sys2Proof.Machine

/-- A tree node (10_state.md R31). `count` is the encoder's (41_huffman_encoder.md R143), `path` the decoder's
(42_huffman_decoder.md R173); each leaves the other's field unused. -/
inductive Node where
  | leaf (sym : Symbol)
  | branch (left right : Node) (count : Nat) (path : BitSeq)
  | empty
deriving DecidableEq, Repr

/-- A Root, which always has two children (10_state.md R31). -/
structure Root where
  left : Node
  right : Node
deriving DecidableEq, Repr

/-- The child a bit leads to: 0 left, 1 right (42_huffman_decoder.md R177). -/
def Root.child (r : Root) (b : Bool) : Node := if b then r.right else r.left

/-- Code-value order: `codeLe p q` when `p` does not come after `q`, comparing from the left with 0 before 1, a
sequence before every longer one it begins (00_scope.md R10). -/
def codeLe : BitSeq → BitSeq → Bool
  | [], _ => true
  | _ :: _, [] => false
  | a :: p, b :: q => if a = b then codeLe p q else b

end Sys2Proof.Machine
end

