-- ==== Sys2Proof/Machine/HuffmanDecoder.lean ====
section
/-! DEFINITION. HUF_DEC (42_huffman_decoder.md R170 to R182). -/

namespace Sys2Proof.Machine

/-- `PullT()`: one table byte (42_huffman_decoder.md R171). -/
def pullT : PortM Byte := do
  match ← pull .tbli with
  | .fail => raise .emptyInput
  | .endOf => raise .corruptTable
  | .byte b => pure b

/-- The digits of a code record after those in `p` (42_huffman_decoder.md R171). The first argument bounds the number
of pulls. -/
def readDigits : Nat → BitSeq → PortM BitSeq
  | 0, _ => overrun
  | n + 1, p => do
    let y ← pullT
    if y = asciiLF then pure p
    else if y = asciiZero ∨ y = asciiOne then
      if p.length = codeMax then raise .corruptTable
      else readDigits n (p ++ [decide (y = asciiOne)])
    else raise .corruptTable

/-- One record of the table (42_huffman_decoder.md R171). A code has at most CODE_MAX digits, so CODE_MAX pulls after
its first digit find its end or an error (log entry 9). -/
def readRecord : PortM (Option BitSeq) := do
  let x ← pullT
  if x = asciiDash then
    let y ← pullT
    if y = asciiLF then pure none else raise .corruptTable
  else if x = asciiZero ∨ x = asciiOne then
    let p ← readDigits codeMax [decide (x = asciiOne)]
    pure (some p)
  else raise .corruptTable

/-- The records of the slots still to come. -/
def readRecords : Nat → PortM CodeTable
  | 0 => pure []
  | n + 1 => do
    let r ← readRecord
    let rs ← readRecords n
    pure (r :: rs)

/-- `DeserializeTable()`: 257 records; TBLI is not pulled after the last LF (42_huffman_decoder.md R171). -/
def deserializeTable : PortM CodeTable := readRecords nsym

/-- A node being merged, with its path (42_huffman_decoder.md R172). -/
structure Pathed where
  node : Node
  path : BitSeq
deriving DecidableEq, Repr

/-- The two stable sorts: by code value, then by length (42_huffman_decoder.md R172). -/
def orderByCode (ns : List Pathed) : List Pathed :=
  (ns.insertionSort (fun a b => codeLe a.path b.path = true)).insertionSort
    (fun a b => a.path.length ≤ b.path.length)

/-- The Leaves of the slots from number `k` on, in slot order (42_huffman_decoder.md R172). -/
def leavesFrom : Nat → CodeTable → List Pathed
  | _, [] => []
  | k, none :: t => leavesFrom (k + 1) t
  | k, some p :: t => ⟨.leaf (Fin.ofNat 257 k), p⟩ :: leavesFrom (k + 1) t

/-- The sibling check and the Branch of two popped nodes, `a` left and `b` right (42_huffman_decoder.md R173). -/
def mergePathed (a b : Pathed) : Except Stop Pathed :=
  if a.path.length = 0 ∨ b.path.length = 0 then .error (.err .corruptTable)
  else if a.path.dropLast ≠ b.path.dropLast then .error (.err .corruptTable)
  else .ok ⟨.branch a.node b.node 0 a.path.dropLast, a.path.dropLast⟩

/-- One turn of the merge loop: the last two nodes out, the check, their Branch appended, the two sorts again
(42_huffman_decoder.md R173). A list of fewer than two nodes is left as it is; the loop makes no such call. -/
def rebuildOnce (ns : List Pathed) : Except Stop (List Pathed) :=
  match ns.reverse with
  | b :: a :: rest => do
    let m ← mergePathed a b
    pure (orderByCode (rest.reverse ++ [m]))
  | _ => .ok ns

/-- The merge loop (42_huffman_decoder.md R173, R174). The first argument bounds the number of merges. -/
def rebuildLoop : Nat → List Pathed → Except Stop Root
  | _, [] => .error (.err .corruptTable)
  | _, [x] => .ok ⟨x.node, .empty⟩
  | _, [x, y] => .ok ⟨x.node, y.node⟩
  | 0, _ :: _ :: _ :: _ => .error .overrun
  | n + 1, x :: y :: z :: rest => do
    let ns ← rebuildOnce (x :: y :: z :: rest)
    rebuildLoop n ns

/-- `RebuildTree(CTAB)` (42_huffman_decoder.md R172 to R174). -/
def rebuildTree (t : CodeTable) : Except Stop Root :=
  rebuildLoop t.length (orderByCode (leavesFrom 0 t))

/-- `Release(IN); raise E` (42_huffman_decoder.md R177, R179). -/
def releaseAndRaise (e : Err) : PortM Unit := do
  release (.src .inp)
  raise e

/-- The two loops of HUF_DEC (42_huffman_decoder.md R177), one bit a turn: `at_` is the node `n` reached so far, a Root
or a Branch, seen as its two children. The first argument bounds the number of bits read. -/
def decodeLoop (root : Root) : Nat → Root → ReaderChan → PortM Unit
  | 0, _, _ => overrun
  | k + 1, at_, r => do
    match ← readBit r with
    | (.fail, _) => releaseAndRaise .emptyInput
    | (.endOf, _) => releaseAndRaise .truncatedStream
    | (.bit x, r') =>
      match at_.child x with
      | .empty => releaseAndRaise .corruptTree
      | .branch l rt _ _ => decodeLoop root k ⟨l, rt⟩ r'
      | .leaf sym =>
        if sym = eos then release (.src .inp)
        else
          push .out (BitVec.ofNat 8 sym.val)
          decodeLoop root k root r'

/-- The payload part of HUF_DEC: the private reader starts empty, nothing pulled yet (42_huffman_decoder.md R177).
The bound is the number of bits queued on IN and the read that finds none (log entry 9). -/
def decodePayload (root : Root) : PortM Unit := fun ps =>
  decodeLoop root (8 * ps.inp.q.length + 1) root .fresh ps

/-- The steps of HUF_DEC after the session check (42_huffman_decoder.md R177). -/
def hufDecBody (_ : Config) : PortM Unit := do
  let t ← deserializeTable
  let root ← liftPure (rebuildTree t)
  decodePayload root

/-- HUF_DEC (42_huffman_decoder.md R177). -/
def execHufDec (s : State) : Host.Outcome State Fault Refusal := runCommand (codec hufDecBody) s

end Sys2Proof.Machine
end

