-- ==== Sys2Proof/Machine/HuffmanEncoder.lean ====
section
/-! DEFINITION. HUF_ENC (41_huffman_encoder.md R140 to R156). -/

namespace Sys2Proof.Machine

/-- An entry of the frequency list (10_state.md R33). -/
structure Freq where
  sym : Symbol
  cnt : Nat
deriving DecidableEq, Repr

/-- One byte counted: its entry's count goes up by one, or a new entry with count 1 goes in so that the list stays
ascending by Symbol (41_huffman_encoder.md R141). -/
def countSymbol (k : Symbol) : List Freq → List Freq
  | [] => [⟨k, 1⟩]
  | f :: fs =>
    if f.sym = k then ⟨k, f.cnt + 1⟩ :: fs
    else if k < f.sym then ⟨k, 1⟩ :: f :: fs
    else f :: countSymbol k fs

/-- `FrequencyCount(s)` (41_huffman_encoder.md R141): the entry of Symbol 256 first, then every byte in turn. -/
def frequencyCount (s : List Byte) : List Freq :=
  s.foldl (fun fs b => countSymbol (Symbol.ofByte b) fs) [⟨eos, 1⟩]

/-- The stable sort by descending count (41_huffman_encoder.md R142). -/
def orderByCount (fs : List Freq) : List Freq := fs.insertionSort (fun a b => b.cnt ≤ a.cnt)

/-- A node of the list being merged, with its count (41_huffman_encoder.md R143). -/
structure Weighted where
  node : Node
  cnt : Nat
deriving DecidableEq, Repr

/-- The stable sort by descending count of the nodes being merged (41_huffman_encoder.md R143). -/
def orderByWeight (ns : List Weighted) : List Weighted := ns.insertionSort (fun a b => b.cnt ≤ a.cnt)

/-- The Branch of two nodes, `a` left and `b` right (41_huffman_encoder.md R143, R144 (a)). -/
def mergeWeighted (a b : Weighted) : Weighted := ⟨.branch a.node b.node (a.cnt + b.cnt) [], a.cnt + b.cnt⟩

/-- One turn of the merge loop: the last two entries out, their Branch appended, the list sorted again, stably
(41_huffman_encoder.md R143, R144 (b)). A list of fewer than two entries is left as it is; the loop makes no such
call. -/
def mergeOnce (ns : List Weighted) : List Weighted :=
  match ns.reverse with
  | b :: a :: rest => orderByWeight (rest.reverse ++ [mergeWeighted a b])
  | _ => ns

/-- `TreeBuild` on the list of nodes (41_huffman_encoder.md R143, R144 (c), R145). The first argument bounds the
number of merges. -/
def buildLoop : Nat → List Weighted → Except Stop Root
  | _, [] => .error (.err .emptyInput)
  | _, [x] => .ok ⟨x.node, .empty⟩
  | _, [x, y] => .ok ⟨x.node, y.node⟩
  | 0, _ :: _ :: _ :: _ => .error .overrun
  | n + 1, x :: y :: z :: rest => buildLoop n (mergeOnce (x :: y :: z :: rest))

/-- `TreeBuild(FL)` (41_huffman_encoder.md R143). -/
def treeBuild (fl : List Freq) : Except Stop Root :=
  buildLoop fl.length (fl.map fun f => ⟨.leaf f.sym, f.cnt⟩)

/-- `Walk(n, p)`: pre-order, left before right; a Leaf's path goes into its slot (41_huffman_encoder.md R146). -/
def walk : Node → BitSeq → CodeTable → Except Stop CodeTable
  | .leaf k, p, t => if (t.slot k).isSome then .error (.err .duplicateSymbol) else .ok (t.set k.val (some p))
  | .branch l r _ _, p, t => do
    let t' ← walk l (p ++ [false]) t
    walk r (p ++ [true]) t'
  | .empty, _, t => .ok t

/-- `AssignCodes(R)` (41_huffman_encoder.md R146). -/
def assignCodes (r : Root) : Except Stop CodeTable := do
  let t ← walk r.left [false] .empty
  walk r.right [true] t

/-- The code table HUF_ENC makes for an input: count, order, build, assign (41_huffman_encoder.md R149). -/
def encoderTable (s : List Byte) : Except Stop CodeTable := do
  let r ← treeBuild (orderByCount (frequencyCount s))
  assignCodes r

/-- `SerializeTable(CTAB)` (41_huffman_encoder.md R148). -/
def serializeTable (t : CodeTable) : PortM Unit := pushAll .tblo (tableText t)

/-- The bits of a Symbol's code; a Symbol without a code has none, which no input makes HUF_ENC ask for
(41_huffman_encoder.md R150, log entry 11). -/
def CodeTable.codeBits (t : CodeTable) (k : Symbol) : BitSeq := (t.slot k).getD []

/-- The payload's bits: the code of each input byte, then the code of Symbol 256 (30_encoding.md R90). -/
def payloadBits (t : CodeTable) (s : List Byte) : BitSeq :=
  s.flatMap (fun b => t.codeBits (Symbol.ofByte b)) ++ t.codeBits eos

/-- The steps of HUF_ENC after the session check (41_huffman_encoder.md R149). -/
def hufEncBody (c : Config) : PortM Unit := do
  let s ← readAll c.inMax
  let t ← liftPure (encoderTable s)
  serializeTable t
  let w ← writeBits .fresh (payloadBits t s)
  let _ ← closeWriter w

/-- HUF_ENC (41_huffman_encoder.md R149). -/
def execHufEnc (s : State) : Host.Outcome State Fault Refusal := runCommand (codec hufEncBody) s

end Sys2Proof.Machine
end

