-- ==== Sys2Proof/Machine/Lz78.lean ====
section
/-! DEFINITION. LZ_ENC and LZ_DEC (43_lz78.md R200 to R212). -/

namespace Sys2Proof.Machine

/-- A phrase: a byte sequence of the dictionary (10_state.md R34). -/
abbrev Phrase := List Byte

/-- The dictionary: entry `k`, counted from 1, is the phrase of index `k` (10_state.md R34, 43_lz78.md R201). -/
abbrev Dict := List Phrase

/-- A token: an index and, but for a final one, the literal byte (30_encoding.md R94). -/
structure Token where
  index : Nat
  literal : Option Byte
deriving DecidableEq, Repr

/-- The index of a known phrase, 0 for the empty one (43_lz78.md R203). -/
def Dict.indexOf (d : Dict) (w : Phrase) : Nat := if w = [] then 0 else d.idxOf w + 1

/-- The phrase of an index, the empty one for 0 (43_lz78.md R205). -/
def Dict.phrase (d : Dict) (i : Nat) : Phrase := if i = 0 then [] else d.getD (i - 1) []

/-- The encoder's tokens (43_lz78.md R202, R203): the two loops of the rule, one input byte a turn. `w` is the
candidate phrase, known to the dictionary; a byte either extends it or ends a token (log entry 11). -/
def encodeTokens : Dict → Phrase → List Byte → List Token
  | d, w, [] => if w = [] then [] else [⟨d.indexOf w, none⟩]
  | d, w, c :: rest =>
    if w ++ [c] ∈ d then encodeTokens d (w ++ [c]) rest
    else ⟨d.indexOf w, some c⟩ :: encodeTokens (d ++ [w ++ [c]]) [] rest

/-- A token on the stream: the decimal text of the index, then the literal (30_encoding.md R94). -/
def tokenText (t : Token) : List Byte := dec t.index ++ t.literal.toList

/-- The token stream LZ_ENC writes for an input (43_lz78.md R202). -/
def lzText (s : List Byte) : List Byte := (encodeTokens [] [] s).flatMap tokenText

/-- The steps of LZ_ENC after the session check (43_lz78.md R202). -/
def lzEncBody (c : Config) : PortM Unit := do
  let s ← readAll c.inMax
  pushAll .out (lzText s)

/-- LZ_ENC (43_lz78.md R202). -/
def execLzEnc (s : State) : Host.Outcome State Fault Refusal := runCommand (codec lzEncBody) s

/-- The text `d` is the decimal text of an index that exists now, 0 to `size` (43_lz78.md R206). -/
def isIndexText (size : Nat) (d : List Byte) : Bool :=
  (d.length == 1 || d.head? != some asciiZero) && decide (decValue d ≤ size)

/-- The length of the longest index text that starts a digit run `run`, if any, looking at lengths 1 to `j`
(43_lz78.md R206). -/
def longestIndexText (size : Nat) (run : List Byte) : Nat → Option Nat
  | 0 => none
  | j + 1 => if isIndexText size (run.take (j + 1)) then some (j + 1) else longestIndexText size run j

/-- `ParseIndex`: the length of the index text at the start of `t`, and the index (43_lz78.md R206). -/
def parseIndex (t : List Byte) (size : Nat) : Option (Nat × Nat) :=
  let run := t.takeWhile isDigit
  (longestIndexText size run run.length).map fun j => (j, decValue (run.take j))

/-- The decoder's loop (43_lz78.md R205) on the bytes not yet consumed: what it pushes, and how it ends. The first
argument bounds the number of tokens. -/
def decodeTokens : Nat → Dict → List Byte → List Byte × Except Stop Unit
  | _, _, [] => ([], .ok ())
  | 0, _, _ :: _ => ([], .error .overrun)
  | n + 1, p, t@(_ :: _) =>
    match parseIndex t p.length with
    | none => ([], .error (.err .corruptStream))
    | some (j, i) =>
      match t.drop j with
      | [] => (p.phrase i, .ok ())
      | c :: rest =>
        let new := p.phrase i ++ [c]
        let (out, fin) := decodeTokens n (p ++ [new]) rest
        (new ++ out, fin)

/-- The steps of LZ_DEC after the session check (43_lz78.md R205): what the decoded tokens push stays pushed when a
later token is corrupt (60_exceptions.md R234). The bound is the number of bytes (log entry 9). -/
def lzDecBody (c : Config) : PortM Unit := do
  let t ← readAll c.inMax
  let (out, fin) := decodeTokens t.length [] t
  pushAll .out out
  liftPure fin

/-- LZ_DEC (43_lz78.md R205). -/
def execLzDec (s : State) : Host.Outcome State Fault Refusal := runCommand (codec lzDecBody) s

end Sys2Proof.Machine
end

