-- ==== Sys2Proof/Machine/Dispatch.lean ====
section
/-! DEFINITION. One arm per command (30_encoding.md R81). -/

namespace Sys2Proof.Machine

def exec (i : Instr) (s : State) : Host.Outcome State Fault Refusal :=
  match i with
  | .bwOpen => Sys2Proof.Machine.execBwOpen s
  | .bwWrite opa => Sys2Proof.Machine.execBwWrite opa s
  | .bwClose => Sys2Proof.Machine.execBwClose s
  | .brOpen => Sys2Proof.Machine.execBrOpen s
  | .brRead => Sys2Proof.Machine.execBrRead s
  | .brReadReq => Sys2Proof.Machine.execBrReadReq s
  | .brClose => Sys2Proof.Machine.execBrClose s
  | .hufEnc => Sys2Proof.Machine.execHufEnc s
  | .hufDec => Sys2Proof.Machine.execHufDec s
  | .lzEnc => Sys2Proof.Machine.execLzEnc s
  | .lzDec => Sys2Proof.Machine.execLzDec s

end Sys2Proof.Machine
end

