-- ==== Sys2Proof/Machine/HostActions.lean ====
section
/-! DEFINITION. What each host action does (70_reset_and_hazards.md R262, R263), the write to CMD among them. -/

namespace Sys2Proof.Machine

/-- A write of `v` to CMD (10_state.md R24): the decoded command, or IllegalCommand with no other effect
(30_encoding.md R83). -/
def commandWrite (v : Word) (s : State) : Host.Outcome State Fault Refusal :=
  match decode v with
  | .ok i => exec i s
  | .error _ => .next (s.start.fail .illegalCommand)

/-- A port action: refused while a command runs (70_reset_and_hazards.md R263 (c)). -/
def portAction (f : Ports → Ports) (s : State) : Host.Outcome State Fault Refusal :=
  if s.status.busy then .refused .portActionWhileBusy
  else .next { s with ports := f s.ports }

/-- The events a run from `s` to `s'` recorded. -/
def newEvents (s s' : State) : List Event := s'.ports.hist.drop s.ports.hist.length

/-- The event is a release. -/
def Event.isRelease : Event → Bool
  | .rel _ => true
  | .pull _ _ | .endOf _ | .fail _ | .push _ _ => false

/-- The port events a command that leads from `s` to `s'` has done when it is stopped after `k` of them: a prefix of its
events, without its own release, since none is performed for a stopped command (70_reset_and_hazards.md R261). -/
def keptEvents (k : Nat) (s s' : State) : List Event := ((newEvents s s').take k).takeWhile fun e => !e.isRelease

/-- The ports after the events kept of a command stopped by reset (70_reset_and_hazards.md R261, log entry 7). -/
def portsAfter (k : Nat) (s s' : State) : Ports := (keptEvents k s s').foldl Ports.replay s.ports

/-- One host action, its entry already taken off the pending list. -/
def perform (a : HostAction) (s : State) : Host.Outcome State Fault Refusal :=
  match a with
  | .write off size v =>
    if validAccess off size then
      if off = 0 then
        if s.status.busy then .refused .commandWhileBusy
        else commandWrite v s
      else .next s
    else .refused .badAccess
  | .read off size =>
    if validAccess off size then .next { s with readData := some (s.readWindow off) }
    else .refused .badAccess
  | .load p bytes =>
    portAction (fun ps => ps.setSource p { ps.source p with q := (ps.source p).q ++ bytes }) s
  | .setFail p f => portAction (fun ps => ps.setSource p { ps.source p with fail := f }) s
  | .drain p => portAction (fun ps => ps.setLog p []) s
  | .copyTable =>
    portAction (fun ps => { ps with tbli := { ps.tbli with q := ps.tbli.q ++ ps.tblo } }) s
  | .reset => .next s.resetBlock
  | .resetDuring v events =>
    if s.status.busy then .refused .commandWhileBusy
    else
      match commandWrite v s with
      | .next s' => .next { s with ports := portsAfter events s s' }.resetBlock
      | .fault f => .fault f
      | .refused r => .refused r
  | .editSource _ _ => .refused .portEdit
  | .editSink _ _ => .refused .portEdit

/-- A word written to CMD by the host's next action (log entry 3). -/
def writeCmd (v : Word) : HostAction := .write 0 4 v

end Sys2Proof.Machine
end

