-- ==== Sys2Proof/Machine/Step.lean ====
section
/-! DEFINITION. One step: the host's next action, or nothing where the host does nothing. -/

namespace Sys2Proof.Machine

/-- One step (00_scope.md R7): the host's next action is performed. With no action pending the block is idle and keeps
all its state (60_exceptions.md R246, 70_reset_and_hazards.md R274, log entry 2). -/
def step (s : State) : Host.Outcome State Fault Refusal :=
  match s.pending with
  | [] => .next s
  | a :: rest => perform a { s with pending := rest }

/-- `s` with the host's next action a write of the instruction's word to CMD (log entry 3). -/
def State.withFetchWord (s : State) (nbits w : Nat) : State :=
  { s with pending := writeCmd (tableWord nbits w) :: s.pending }

end Sys2Proof.Machine
end

