-- ==== Sys2Proof/Safety.lean ====
section
/-! DEFINITION. The terms the statements use: the legal values of the registers and the state invariant, which ports,
releases and error codes belong to which command, what a list of port events does, and plain readings of the stream
formats (bits packed into bytes, walking a tree, expanding LZ78 tokens) that do not go through the commands'
definitions. -/

namespace Sys2Proof.Machine

/-! ### Legal register values -/

/-- The legal values of STATUS between commands: BUSY = 0 (10_state.md R24); ERR = 1 implies DONE = 1 and ERRCODE in
1..11, ERR = 0 implies ERRCODE = 0 (R23). -/
def Status.legal (s : Status) : Bool :=
  !s.busy && (if s.err then s.done && decide (1 ≤ s.errCode.toNat) && decide (s.errCode.toNat ≤ 11)
    else s.errCode == 0#4)

/-- STATUS of a completed command: DONE alone, the word 0x00000002 (10_state.md R24). -/
abbrev doneStatus : Status := ⟨false, true, false, 0#4⟩

/-- STATUS of a command that ended in the error with code `c`: DONE, ERR and ERRCODE (10_state.md R24). -/
abbrev errStatus (c : BitVec 4) : Status := ⟨false, true, true, c⟩

/-- The legal values of RESULT: 0x000, 0x001, 0x100 (10_state.md R25). -/
def Result.legal (r : Result) : Bool := !(r.bit && r.endMark)

/-- `W_ACC < 2^W_NB` (10_state.md R28). -/
def WriterChan.fits (w : WriterChan) : Bool := decide (w.acc.toNat < 2 ^ w.nb.val)

/-- The invariants of R23, R25, R28 and R29 together. -/
abbrev State.Inv (s : State) : Prop :=
  s.status.legal = true ∧ s.result.legal = true ∧ s.wChan.fits = true ∧
    (s.wOpen = false → s.wChan = ⟨0#8, 0⟩) ∧ (s.rOpen = false → s.rChan = ⟨0#8, 0⟩)

/-- No host channel session is open, so a codec command may start (60_exceptions.md R236). -/
abbrev State.channelsClosed (s : State) : Prop := s.wOpen = false ∧ s.rOpen = false

/-- `n` bytes fit the input buffer (20_memory.md R64). -/
def fitsInput (inMax : Option Nat) (n : Nat) : Prop := ∀ m, inMax = some m → n ≤ m

/-! ### Which ports, releases and codes belong to which command -/

/-- The codec commands. -/
def isCodec : Instr → Bool
  | .hufEnc | .hufDec | .lzEnc | .lzDec => true
  | .bwOpen | .bwWrite _ | .bwClose | .brOpen | .brRead | .brReadReq | .brClose => false

/-- The ports a command moves bytes on (20_memory.md R51). -/
def portsUsed : Instr → List Port
  | .hufEnc => [.src .inp, .sink .out, .sink .tblo]
  | .hufDec => [.src .inp, .sink .out, .src .tbli]
  | .lzEnc => [.src .inp, .sink .out]
  | .lzDec => [.src .inp, .sink .out]
  | .brRead => [.src .inp]
  | .brReadReq => [.src .inp]
  | .bwWrite _ => [.sink .out]
  | .bwClose => [.sink .out]
  | .bwOpen => []
  | .brOpen => []
  | .brClose => []

/-- The port an event is on. -/
def Event.port : Event → Port
  | .pull p _ => .src p
  | .endOf p => .src p
  | .fail p => .src p
  | .push p _ => .sink p
  | .rel p => p

/-- The releases of a command that leads from `s` to `s'` (20_memory.md R55): HUF_ENC's when it completes, HUF_DEC's
when its reader was opened, which is on every exit but SequenceError, CorruptTable and a failed TBLI. -/
def releasesBy (i : Instr) (s s' : State) : List Event :=
  match i with
  | .bwClose => if s.wOpen then [.rel (.sink .out)] else []
  | .brClose => if s.rOpen then [.rel (.src .inp)] else []
  | .hufEnc => if s'.status.err then [] else [.rel (.sink .out)]
  | .hufDec =>
    if s'.status.errCode = 11#4 ∨ s'.status.errCode = 6#4 ∨ (s'.status.errCode = 1#4 ∧ s.ports.tbli.fail = true) then []
    else [.rel (.src .inp)]
  | .bwOpen | .bwWrite _ | .brOpen | .brRead | .brReadReq | .lzEnc | .lzDec => []

/-- The error codes a command can report (60_exceptions.md R231); InvalidBit is BW_WRITE's for an operand that is no
bit (40_bitchannel.md R124). -/
def reportableCodes : Instr → List (BitVec 4)
  | .bwOpen => [11#4]
  | .bwWrite opa => if 2 ≤ opa.toNat then [11#4, 2#4] else [11#4]
  | .bwClose => []
  | .brOpen => [11#4]
  | .brRead => [1#4]
  | .brReadReq => [1#4, 3#4]
  | .brClose => []
  | .hufEnc => [11#4, 1#4, 9#4]
  | .hufDec => [11#4, 1#4, 6#4, 4#4, 7#4]
  | .lzEnc => [11#4, 1#4, 9#4]
  | .lzDec => [11#4, 1#4, 9#4, 8#4]

/-- What one pull of IN records (20_memory.md R52). -/
def pullEvent (inp : Source) : Event :=
  if inp.fail then .fail .inp
  else
    match inp.q with
    | [] => .endOf .inp
    | b :: _ => .pull .inp b

/-! ### Port events -/

/-- What one port event does to the ports, if it can happen there: a pull returns the head of a source that has not
failed, an end needs an empty one, a failure a failed one (20_memory.md R52 to R54). -/
def applyEvent (ps : Ports) : Event → Option Ports
  | .pull p b =>
    if (ps.source p).fail = false ∧ (ps.source p).q.head? = some b then
      some ((ps.setSource p { ps.source p with q := (ps.source p).q.tail }).record (.pull p b))
    else none
  | .endOf p => if (ps.source p).fail = false ∧ (ps.source p).q = [] then some (ps.record (.endOf p)) else none
  | .fail p => if (ps.source p).fail = true then some (ps.record (.fail p)) else none
  | .push p b => some ((ps.setLog p (ps.log p ++ [b])).record (.push p b))
  | .rel p => some (ps.record (.rel p))

/-- A list of port events, in order. -/
def applyEvents : List Event → Ports → Option Ports
  | [], ps => some ps
  | e :: es, ps => (applyEvent ps e).bind (applyEvents es)

/-! ### Several commands in a row -/

/-- `BW_BITS "<0|1 string>"`: one BW_WRITE per bit, in order (30_encoding.md R87). -/
def bwBits (bits : BitSeq) : List Instr := bits.map fun b => .bwWrite (if b then 1#8 else 0#8)

/-- `BR_READN n`: `n` BR_READs (30_encoding.md R87). -/
def brReadN (n : Nat) : List Instr := List.replicate n .brRead

/-- The commands in order, each from the state the one before left; `none` if one of them does not end in a next
state. -/
def runCommands : List Instr → State → Option State
  | [], s => some s
  | i :: is, s =>
    match exec i s with
    | .next s' => runCommands is s'
    | .fault _ => none
    | .refused _ => none

/-- The RESULTs of `n` BR_READs in a row (30_encoding.md R87), `none` if one of them does not end in a next state. -/
def readResults : Nat → State → Option (List Result)
  | 0, _ => some []
  | n + 1, s =>
    match exec .brRead s with
    | .next s' => (readResults n s').map fun rs => s'.result :: rs
    | .fault _ => none
    | .refused _ => none

/-! ### Bits and bytes -/

/-- Byte `j` of a bit stream: bits `8j` to `8j + 7` as bits 7 to 0, a missing bit read as 0 (30_encoding.md R90). -/
def packedByte (bits : BitSeq) (j : Nat) : Byte :=
  BitVec.ofNat 8 ((List.range 8).foldl (fun v k => 2 * v + (bits.getD (8 * j + k) false).toNat) 0)

/-- A bit stream as bytes, most significant bit first, the last byte zero-padded (30_encoding.md R90). -/
def packBits (bits : BitSeq) : List Byte := (List.range ((bits.length + 7) / 8)).map (packedByte bits)

/-- The bits of a byte, bit 7 first (20_memory.md R57). -/
def byteBits (b : Byte) : BitSeq := (List.range 8).map fun k => b.getLsbD (7 - k)

/-- The number a bit sequence stands for, first bit highest (00_scope.md R10). -/
def bitsValue (p : BitSeq) : Nat := p.foldl (fun v b => 2 * v + b.toNat) 0

/-! ### Trees and tables -/

/-- The node a nonempty bit sequence leads to from a Root, every node before the last one being a Branch
(42_huffman_decoder.md R177). -/
def Root.follow (r : Root) : BitSeq → Option Node
  | [] => none
  | [b] => some (r.child b)
  | b :: c :: p =>
    match r.child b with
    | .branch l rt _ _ => Root.follow ⟨l, rt⟩ (c :: p)
    | .leaf _ => none
    | .empty => none

/-- The subtree has no placeholder in it. -/
def Node.full : Node → Bool
  | .leaf _ => true
  | .branch l r _ _ => l.full && r.full
  | .empty => false

/-- A tree the encoder can build: no placeholder, or the degenerate Root (10_state.md R31, 41_huffman_encoder.md
R145). -/
def Root.proper (r : Root) : Prop :=
  (r.left.full = true ∧ r.right.full = true) ∨ ∃ k, r = ⟨.leaf k, .empty⟩

/-- A table that has a text: 257 slots, every present code 1 to CODE_MAX bits long (30_encoding.md R92). -/
abbrev CodeTable.valid (t : CodeTable) : Prop :=
  t.length = 257 ∧ ∀ o ∈ t, ∀ p ∈ o, 1 ≤ p.length ∧ p.length ≤ 256

/-- `p` comes before `q`: shorter, or of equal length and lower value (42_huffman_decoder.md R172). -/
def codeBefore (p q : BitSeq) : Prop := p.length < q.length ∨ (p.length = q.length ∧ bitsValue p < bitsValue q)

/-- The ordered nodes merge to the Root: one node gives the degenerate Root, two nodes its children; of three or more the
last two are merged if their paths are one path `p` and one bit more each, and their Branch takes its place in the order,
after any node with the path `p` (42_huffman_decoder.md R173, R174). -/
inductive Rebuilds : List Pathed → Root → Prop
  | one (x : Pathed) : Rebuilds [x] ⟨x.node, .empty⟩
  | two (x y : Pathed) : Rebuilds [x, y] ⟨x.node, y.node⟩
  | merge (l r : Node) (p : BitSeq) (b c : Bool) (pre post : List Pathed) (root : Root) :
    pre ++ post ≠ [] → (∀ z ∈ pre, ¬ codeBefore p z.path) → (∀ z ∈ post, codeBefore p z.path) →
    Rebuilds (pre ++ ⟨.branch l r 0 p, p⟩ :: post) root →
    Rebuilds (pre ++ post ++ [⟨l, p ++ [b]⟩, ⟨r, p ++ [c]⟩]) root

/-- The codes of the present slots, in slot order. -/
def CodeTable.codes (t : CodeTable) : List BitSeq := t.filterMap id

/-- The bytes can be gone on with to a table's text, or are one (30_encoding.md R92). -/
def startsTable (p : List Byte) : Prop := ∃ t, CodeTable.valid t ∧ p <+: tableText t

/-- How a TBLI queue `q` that starts with no table's text shows it (42_huffman_decoder.md R171): it ends before the
table does, or it holds a byte no table has there, which is consumed and is the last one consumed. `rest` is what stays
queued, `evs` the events. -/
def tableError (q rest : List Byte) (evs : List Event) : Prop :=
  (startsTable q ∧ rest = [] ∧ evs = q.map (Event.pull .tbli) ++ [.endOf .tbli]) ∨
  ∃ pre x, q = pre ++ x :: rest ∧ startsTable pre ∧ ¬ startsTable (pre ++ [x]) ∧
    evs = (pre ++ [x]).map (Event.pull .tbli)

/-- The payload events of HUF_DEC when `k` bits are read and the Symbols of `out` come next, `payload` being the bytes
still to be pulled: for each Symbol the pulls its code needs, then its push; then the pulls that what follows needs
(20_memory.md R65, 42_huffman_decoder.md R177, R178). -/
def decodeEvents (code : Symbol → BitSeq) : Nat → List Byte → List Byte → List Event
  | _, payload, [] => payload.map (Event.pull .inp)
  | k, payload, b :: out =>
    let k' := k + (code (Symbol.ofByte b)).length
    let n := (k' + 7) / 8 - (k + 7) / 8
    (payload.take n).map (Event.pull .inp) ++ [.push .out b] ++ decodeEvents code k' (payload.drop n) out

/-! ### LZ78 tokens -/

/-- What a token list stands for: each token's phrase and literal, the dictionary growing by one entry per token with
a literal (43_lz78.md R205). -/
def expandTokens : Dict → List Token → List Byte
  | _, [] => []
  | d, ⟨i, none⟩ :: ts => d.phrase i ++ expandTokens d ts
  | d, ⟨i, some c⟩ :: ts => d.phrase i ++ [c] ++ expandTokens (d ++ [d.phrase i ++ [c]]) ts

/-- The tokens the encoder's rule allows for an input, stated on the tokens (43_lz78.md R203, R204): each index exists,
the phrase with the literal is new to the dictionary, a token without a literal is the last one and has an index of 1
or more. -/
def tokensEncode : Dict → List Token → List Byte → Prop
  | _, [], s => s = []
  | d, ⟨i, none⟩ :: ts, s => ts = [] ∧ 1 ≤ i ∧ i ≤ d.length ∧ s = d.phrase i
  | d, ⟨i, some c⟩ :: ts, s =>
    i ≤ d.length ∧ d.phrase i ++ [c] ∉ d ∧
      ∃ rest, s = d.phrase i ++ c :: rest ∧ tokensEncode (d ++ [d.phrase i ++ [c]]) ts rest

/-- Tokens with literals that the rule reads from their text, followed by `tail`, when `n` entries exist: each index
exists, and no longer text of an index that exists then starts where the token starts (43_lz78.md R206). A literal may be
a digit byte. -/
def tokensReadable : Nat → List Token → List Byte → Prop
  | _, [], _ => True
  | _, ⟨_, none⟩ :: _, _ => False
  | n, ⟨i, some c⟩ :: ts, tail =>
    i ≤ n ∧
      (∀ k ≤ n, dec k <+: (⟨i, some c⟩ :: ts).flatMap tokenText ++ tail → (dec k).length ≤ (dec i).length) ∧
      tokensReadable (n + 1) ts tail

/-- No index text of 0 to `n` starts here: no digit byte, or a first digit that is neither `0` nor an existing index
(43_lz78.md R208). -/
def noIndexAt (n : Nat) : List Byte → Prop
  | [] => False
  | x :: _ => isDigit x = false ∨ (x ≠ asciiZero ∧ n < x.toNat - 0x30)

end Sys2Proof.Machine
end

