-- ==== Sys2Proof/Certificates/Slice0/Obligations.lean ====
section
/-! DEFINITION. The statements about the machine, each from the numbered rules its docstring names. -/

open Sys2Proof Sys2Proof.Machine

/-! ### Encoding and the step -/

/-- Words written out from the opcode map and the assembler examples (30_encoding.md R81, R86), and illegal ones
(R83). -/
def Obligations.DecodeSampleWords : Prop :=
  decode 0x00000001#32 = .ok .bwOpen ∧ decode 0x00000102#32 = .ok (.bwWrite 1#8) ∧
  decode 0x00000702#32 = .ok (.bwWrite 7#8) ∧ decode 0x0000FF02#32 = .ok (.bwWrite 255#8) ∧
  decode 0x00000003#32 = .ok .bwClose ∧ decode 0x00000004#32 = .ok .brOpen ∧
  decode 0x00000005#32 = .ok .brRead ∧ decode 0x00000006#32 = .ok .brReadReq ∧
  decode 0x00000007#32 = .ok .brClose ∧ decode 0x00000010#32 = .ok .hufEnc ∧
  decode 0x00000011#32 = .ok .hufDec ∧ decode 0x00000020#32 = .ok .lzEnc ∧
  decode 0x00000021#32 = .ok .lzDec ∧
  decode 0x00000000#32 = .error .opcUnassigned ∧ decode 0x00000008#32 = .error .opcUnassigned ∧
  decode 0x00000110#32 = .error .opaNonzero ∧ decode 0x10000005#32 = .error .rsvNonzero ∧
  decode 0x00010002#32 = .error .rsvNonzero

/-- Decoding and encoding agree in both directions: a word decodes to a command exactly when it is that command's
word, for every command and every operand byte (30_encoding.md R80, R81, R82, R85). -/
def Obligations.DecodeIffEncode : Prop := ∀ v i, decode v = .ok i ↔ v = encode i

/-- A word decodes to some command exactly when it matches a row of the opcode table under the row's mask
(30_encoding.md R85). -/
def Obligations.DecodeAcceptsExactlyTableRows : Prop :=
  ∀ v, (∃ i, decode v = .ok i) ↔ ∃ r ∈ opcodeTable, r.accepts v = true

/-- A CMD write of an illegal word ends in IllegalCommand, code 10, and changes nothing but STATUS; every word is
either a command's or illegal (30_encoding.md R83). -/
def Obligations.IllegalWordChangesOnlyStatus : Prop :=
  (∀ s v, (fieldsOf v).wellFormed = false → commandWrite v s = .next { s with status := errStatus 10#4 }) ∧
  (∀ v, (fieldsOf v).wellFormed = true ↔ ∃ i, decode v = .ok i)

/-- When the host's next action writes a word to CMD and no command runs, the step is the meaning of the command it
decodes to, on the state with the action taken off, or IllegalCommand; with no action pending the block keeps all its
state (10_state.md R22, R27, 30_encoding.md R83, 60_exceptions.md R246). That the host's actions stand in State is the
model's choice (log entries 1, 2). -/
def Obligations.StepRunsDecodedCommandOrIdles : Prop :=
  (∀ s v rest i, s.pending = .write 0 4 v :: rest → s.status.busy = false → decode v = .ok i →
    step s = exec i { s with pending := rest }) ∧
  (∀ s v rest e, s.pending = .write 0 4 v :: rest → s.status.busy = false → decode v = .error e →
    step s = .next { s with pending := rest, status := errStatus 10#4 }) ∧
  (∀ s, s.pending = [] → step s = .next s)

/-! ### STATUS and RESULT -/

/-- The bits of the words a host reads from STATUS and RESULT (10_state.md R23, R25). -/
def Obligations.StatusAndResultWordLayout : Prop :=
  (∀ st : Status,
    st.toWord.getLsbD 0 = st.busy ∧ st.toWord.getLsbD 1 = st.done ∧ st.toWord.getLsbD 2 = st.err ∧
    st.toWord.extractLsb' 3 5 = 0#5 ∧ st.toWord.extractLsb' 8 4 = st.errCode ∧
    st.toWord.extractLsb' 12 20 = 0#20) ∧
  (∀ r : Result,
    r.toWord.getLsbD 0 = r.bit ∧ r.toWord.extractLsb' 1 7 = 0#7 ∧ r.toWord.getLsbD 8 = r.endMark ∧
    r.toWord.extractLsb' 9 23 = 0#23)

/-- Every command in every state ends in a next state, completed or in error with a code from 1 to 11, and leaves the
host's pending actions, the last word read and the parameters as they are (00_scope.md R8, 10_state.md R24). -/
def Obligations.EveryCommandCompletesOrReportsAnError : Prop :=
  ∀ i s, ∃ s', exec i s = .next s' ∧
    (s'.status = doneStatus ∨ ∃ c : BitVec 4, 1 ≤ c.toNat ∧ c.toNat ≤ 11 ∧ s'.status = errStatus c) ∧
    s'.pending = s.pending ∧ s'.readData = s.readData ∧ s'.config = s.config

/-- Which command can end with which code: no other code ever, and each listed one in some state (60_exceptions.md
R231). -/
def Obligations.ErrorCodesByCommand : Prop :=
  (∀ i s s', exec i s = .next s' → s'.status.err = true → s'.status.errCode ∈ reportableCodes i) ∧
  (∀ i, ∀ c ∈ reportableCodes i, ∃ s s', exec i s = .next s' ∧ s'.status = errStatus c) ∧
  (∀ v e s, decode v = .error e → commandWrite v s = .next { s with status := errStatus 10#4 })

/-- No command reads STATUS: the outcome of the command before does not change what a command does (10_state.md
R36). -/
def Obligations.StatusNeverInfluencesCommands : Prop :=
  ∀ i s st, exec i { s with status := st } = exec i s

/-! ### BitChannel commands -/

/-- BW_OPEN (40_bitchannel.md R114). -/
def Obligations.BwOpenEffect : Prop :=
  decode 0x00000001#32 = .ok .bwOpen ∧
  (∀ s, s.wOpen = true → exec .bwOpen s = .next { s with status := errStatus 11#4 }) ∧
  (∀ s, s.wOpen = false → exec .bwOpen s =
    .next { s with status := doneStatus, wOpen := true, wChan := ⟨0#8, 0⟩ })

/-- BW_WRITE (40_bitchannel.md R115, R111): the session check first, then the operand, then one bit into the accumulator;
the eighth bit pushes the byte at once. That the sum wraps at 8 bits where W_ACC is not below 2^W_NB, in states no run
reaches, is the model's (log entry 14). -/
def Obligations.BwWriteEffect : Prop :=
  (∀ opa : Byte, decode (0#16 ++ opa ++ 0x02#8) = .ok (.bwWrite opa)) ∧
  (∀ s opa, s.wOpen = false → exec (.bwWrite opa) s = .next { s with status := errStatus 11#4 }) ∧
  (∀ s opa, s.wOpen = true → 2 ≤ opa.toNat → exec (.bwWrite opa) s = .next { s with status := errStatus 2#4 }) ∧
  (∀ s opa (h : s.wChan.nb.val + 1 < 8), s.wOpen = true → opa.toNat ≤ 1 → exec (.bwWrite opa) s =
    .next { s with status := doneStatus, wChan := ⟨s.wChan.acc * 2#8 + opa, ⟨s.wChan.nb.val + 1, h⟩⟩ }) ∧
  (∀ s opa, s.wOpen = true → opa.toNat ≤ 1 → s.wChan.nb.val = 7 → exec (.bwWrite opa) s =
    .next { s with
      status := doneStatus
      wChan := ⟨0#8, 0⟩
      ports := { s.ports with
        out := s.ports.out ++ [s.wChan.acc * 2#8 + opa]
        hist := s.ports.hist ++ [.push .out (s.wChan.acc * 2#8 + opa)] } })

/-- BW_CLOSE (40_bitchannel.md R116, R112): nothing without a session; else the padding byte if any bit is buffered,
then the release. That the shifted accumulator keeps its low 8 bits where W_ACC is not below 2^W_NB, in states no run
reaches, is the model's (log entry 14). -/
def Obligations.BwCloseEffect : Prop :=
  decode 0x00000003#32 = .ok .bwClose ∧
  (∀ s, s.wOpen = false → exec .bwClose s = .next { s with status := doneStatus }) ∧
  (∀ s, s.wOpen = true → s.wChan.nb.val = 0 → exec .bwClose s =
    .next { s with
      status := doneStatus
      wOpen := false
      ports := { s.ports with hist := s.ports.hist ++ [.rel (.sink .out)] } }) ∧
  (∀ s, s.wOpen = true → 0 < s.wChan.nb.val → exec .bwClose s =
    .next { s with
      status := doneStatus
      wOpen := false
      wChan := ⟨0#8, 0⟩
      ports := { s.ports with
        out := s.ports.out ++ [s.wChan.acc * BitVec.ofNat 8 (2 ^ (8 - s.wChan.nb.val))]
        hist := s.ports.hist ++
          [.push .out (s.wChan.acc * BitVec.ofNat 8 (2 ^ (8 - s.wChan.nb.val))), .rel (.sink .out)] } })

/-- BR_OPEN (40_bitchannel.md R117). -/
def Obligations.BrOpenEffect : Prop :=
  decode 0x00000004#32 = .ok .brOpen ∧
  (∀ s, s.rOpen = true → exec .brOpen s = .next { s with status := errStatus 11#4 }) ∧
  (∀ s, s.rOpen = false → exec .brOpen s =
    .next { s with status := doneStatus, rOpen := true, rChan := ⟨0#8, 0⟩ })

/-- BR_READ (40_bitchannel.md R118, R113): END without a pull on a closed reader; the next buffered bit without a pull;
else one pull, whose failure is EmptyInput, whose end is END, and whose byte gives bit 7. -/
def Obligations.BrReadEffect : Prop :=
  decode 0x00000005#32 = .ok .brRead ∧
  (∀ s, s.rOpen = false → exec .brRead s = .next { s with status := doneStatus, result := ⟨false, true⟩ }) ∧
  (∀ s n (h : n + 1 < 9), s.rOpen = true → s.rChan.nb = ⟨n + 1, h⟩ → exec .brRead s =
    .next { s with
      status := doneStatus
      result := ⟨s.rChan.buf.getLsbD n, false⟩
      rChan := ⟨s.rChan.buf, ⟨n, Nat.lt_of_succ_lt h⟩⟩ }) ∧
  (∀ s, s.rOpen = true → s.rChan.nb = 0 → s.ports.inp.fail = true → exec .brRead s =
    .next { s with
      status := errStatus 1#4
      ports := { s.ports with hist := s.ports.hist ++ [.fail .inp] } }) ∧
  (∀ s, s.rOpen = true → s.rChan.nb = 0 → s.ports.inp = ⟨[], false⟩ → exec .brRead s =
    .next { s with
      status := doneStatus
      result := ⟨false, true⟩
      ports := { s.ports with hist := s.ports.hist ++ [.endOf .inp] } }) ∧
  (∀ s b rest, s.rOpen = true → s.rChan.nb = 0 → s.ports.inp = ⟨b :: rest, false⟩ → exec .brRead s =
    .next { s with
      status := doneStatus
      result := ⟨b.getLsbD 7, false⟩
      rChan := ⟨b, 7⟩
      ports := { s.ports with inp := ⟨rest, false⟩, hist := s.ports.hist ++ [.pull .inp b] } })

/-- BR_READREQ (40_bitchannel.md R119): as BR_READ, but the end is UnexpectedEndOfStream, with RESULT 0x100 and the
reader as it was. -/
def Obligations.BrReadReqEffect : Prop :=
  decode 0x00000006#32 = .ok .brReadReq ∧
  (∀ s, s.rOpen = false → exec .brReadReq s = .next { s with status := errStatus 3#4, result := ⟨false, true⟩ }) ∧
  (∀ s n (h : n + 1 < 9), s.rOpen = true → s.rChan.nb = ⟨n + 1, h⟩ → exec .brReadReq s =
    .next { s with
      status := doneStatus
      result := ⟨s.rChan.buf.getLsbD n, false⟩
      rChan := ⟨s.rChan.buf, ⟨n, Nat.lt_of_succ_lt h⟩⟩ }) ∧
  (∀ s, s.rOpen = true → s.rChan.nb = 0 → s.ports.inp.fail = true → exec .brReadReq s =
    .next { s with
      status := errStatus 1#4
      ports := { s.ports with hist := s.ports.hist ++ [.fail .inp] } }) ∧
  (∀ s, s.rOpen = true → s.rChan.nb = 0 → s.ports.inp = ⟨[], false⟩ → exec .brReadReq s =
    .next { s with
      status := errStatus 3#4
      result := ⟨false, true⟩
      ports := { s.ports with hist := s.ports.hist ++ [.endOf .inp] } }) ∧
  (∀ s b rest, s.rOpen = true → s.rChan.nb = 0 → s.ports.inp = ⟨b :: rest, false⟩ → exec .brReadReq s =
    .next { s with
      status := doneStatus
      result := ⟨b.getLsbD 7, false⟩
      rChan := ⟨b, 7⟩
      ports := { s.ports with inp := ⟨rest, false⟩, hist := s.ports.hist ++ [.pull .inp b] } })

/-- BR_CLOSE (40_bitchannel.md R120): nothing without a session; else the release, and the buffered bits are gone
while the queue stays. -/
def Obligations.BrCloseEffect : Prop :=
  decode 0x00000007#32 = .ok .brClose ∧
  (∀ s, s.rOpen = false → exec .brClose s = .next { s with status := doneStatus }) ∧
  (∀ s, s.rOpen = true → exec .brClose s =
    .next { s with
      status := doneStatus
      rOpen := false
      rChan := ⟨0#8, 0⟩
      ports := { s.ports with hist := s.ports.hist ++ [.rel (.src .inp)] } })

/-- A whole writer session: BW_OPEN, one BW_WRITE per bit, BW_CLOSE put exactly the packed bits on OUT, most
significant bit first and zero-padded, and release OUT once, at the end (40_bitchannel.md R111, R112, R123,
20_memory.md R57, 30_encoding.md R90). -/
def Obligations.WriterSessionEmitsPackedBits : Prop :=
  ∀ (s : State) (bits : BitSeq), s.wOpen = false →
    runCommands (.bwOpen :: bwBits bits ++ [.bwClose]) s =
      some { s with
        status := doneStatus
        wChan := ⟨0#8, 0⟩
        ports := { s.ports with
          out := s.ports.out ++ packBits bits
          hist := s.ports.hist ++ (packBits bits).map (Event.push .out) ++ [.rel (.sink .out)] } }

/-- A reader session over packed bits returns them in order and leaves the bytes after them on IN (40_bitchannel.md
R113, 20_memory.md R57). -/
def Obligations.ReaderSessionReturnsPackedBits : Prop :=
  ∀ (s : State) (bits : BitSeq) (tail : List Byte), s.rOpen = false →
    s.ports.inp = ⟨packBits bits ++ tail, false⟩ →
    (∃ s1, exec .brOpen s = .next s1 ∧
      readResults bits.length s1 = some (bits.map fun b => (⟨b, false⟩ : Result))) ∧
    ∃ s2, runCommands (.brOpen :: brReadN bits.length) s = some s2 ∧
      s2.ports.inp = ⟨tail, false⟩ ∧ s2.rOpen = true

/-- An open reader that returned END is not exhausted. A read, BR_READ or BR_READREQ, that finds R_NB = 0 on an open
reader makes one pull of IN and leaves the reader open; after an END, the next read of either kind returns the first bit
of a byte the host has loaded since. Only BR_CLOSE and reset close a reader; after them every read gives END without a
pull, whatever IN holds, as an error for BR_READREQ (40_bitchannel.md R121, R118, R119). -/
def Obligations.OpenReaderReadsOnAfterEnd : Prop :=
  (∀ s i, i = .brRead ∨ i = .brReadReq → s.rOpen = true → s.rChan.nb = 0 →
    ∃ s1, exec i s = .next s1 ∧ s1.rOpen = true ∧ newEvents s s1 = [pullEvent s.ports.inp]) ∧
  (∀ s i, i = .brRead ∨ i = .brReadReq → s.rOpen = true → s.rChan.nb = 0 → s.ports.inp = ⟨[], false⟩ →
    ∃ s1, exec i s = .next s1 ∧ s1.result = ⟨false, true⟩ ∧ s1.rOpen = true ∧ s1.rChan.nb = 0 ∧
      ∀ j b rest, j = .brRead ∨ j = .brReadReq →
        ∃ s2, exec j { s1 with ports := { s1.ports with inp := ⟨b :: rest, false⟩ } } = .next s2 ∧
          s2.status = doneStatus ∧ s2.result = ⟨b.getLsbD 7, false⟩ ∧ s2.ports.inp = ⟨rest, false⟩) ∧
  (∀ s s', s.rOpen = true → step s = .next s' → s'.rOpen = false →
    ∃ rest, s.pending = .write 0 4 (encode .brClose) :: rest ∨ s.pending = .reset :: rest ∨
      ∃ v n, s.pending = .resetDuring v n :: rest) ∧
  (∀ (s s1 : State) (ps : Ports), (exec .brClose s = .next s1 ∨ s1 = s.resetBlock) →
    exec .brRead { s1 with ports := ps } =
      .next { s1 with ports := ps, status := doneStatus, result := ⟨false, true⟩ } ∧
    exec .brReadReq { s1 with ports := ps } =
      .next { s1 with ports := ps, status := errStatus 3#4, result := ⟨false, true⟩ })

/-! ### HUF_ENC -/

/-- The frequency list is strictly ascending by Symbol and holds exactly (256, 1) and, for each byte of the input, its
number of occurrences (41_huffman_encoder.md R141). -/
def Obligations.FrequencyCountCountsEveryByte : Prop :=
  ∀ s : List Byte,
    (frequencyCount s).Pairwise (fun a b => a.sym < b.sym) ∧
    ∀ k c, (⟨k, c⟩ : Freq) ∈ frequencyCount s ↔
      (k = eos ∧ c = 1) ∨ ∃ b ∈ s, k = Symbol.ofByte b ∧ c = s.count b

/-- The ordered list has the same entries, by descending count, equal counts by ascending Symbol; the example of the
rule (41_huffman_encoder.md R142). -/
def Obligations.FrequencyOrderDescendingThenBySymbol : Prop :=
  (∀ s : List Byte,
    (orderByCount (frequencyCount s)).Perm (frequencyCount s) ∧
    (orderByCount (frequencyCount s)).Pairwise
      (fun a b => b.cnt < a.cnt ∨ (a.cnt = b.cnt ∧ a.sym < b.sym))) ∧
  orderByCount (frequencyCount
      [0x41#8, 0x42#8, 0x52#8, 0x41#8, 0x43#8, 0x41#8, 0x44#8, 0x41#8, 0x42#8, 0x52#8, 0x41#8]) =
    [⟨0x41, 5⟩, ⟨0x42, 2⟩, ⟨0x52, 2⟩, ⟨0x43, 1⟩, ⟨0x44, 1⟩, ⟨256, 1⟩]

/-- The tree always exists; its Root is degenerate exactly when the input is empty, and the list has one entry exactly
then (41_huffman_encoder.md R145). -/
def Obligations.EncoderTreeDegenerateOnlyForEmptyInput : Prop :=
  (∀ f : Freq, treeBuild [f] = .ok ⟨.leaf f.sym, .empty⟩) ∧
  ∀ s : List Byte, ((orderByCount (frequencyCount s)).length = 1 ↔ s = []) ∧
    (s ≠ [] → (∀ b ∈ s, ∀ c ∈ s, b = c) → (orderByCount (frequencyCount s)).length = 2) ∧
    ∃ r, treeBuild (orderByCount (frequencyCount s)) = .ok r ∧ (r.right = .empty ↔ s = [])

/-- A slot of HUF_ENC's table is present exactly for each byte of the input and for Symbol 256
(41_huffman_encoder.md R153 (a)). -/
def Obligations.EncoderTablePresentSlots : Prop :=
  ∀ s t, encoderTable s = .ok t → t.length = 257 ∧
    ∀ k, (t.slot k).isSome = true ↔ k = eos ∨ ∃ b ∈ s, k = Symbol.ofByte b

/-- No code of HUF_ENC's table is a prefix of another Symbol's code (41_huffman_encoder.md R153 (b)). -/
def Obligations.EncoderCodesPrefixFree : Prop :=
  ∀ s t k k' p p', encoderTable s = .ok t → t.slot k = some p → t.slot k' = some p' → k ≠ k' → ¬ p <+: p'

/-- Every code has 1 to max(1, d) bits, d the number of distinct bytes, and the codes are complete: the sum of
2^(-length) is 1, and 1/2 for the empty input (41_huffman_encoder.md R153 (c), (d)). -/
def Obligations.EncoderCodesBoundedAndComplete : Prop :=
  ∀ s t, encoderTable s = .ok t →
    (∀ p ∈ t.codes, 1 ≤ p.length ∧ p.length ≤ max 1 s.toFinset.card ∧ p.length ≤ 256) ∧
    (s ≠ [] → (t.codes.map fun p => (1 / 2 : ℚ) ^ p.length).sum = 1) ∧
    (s = [] → (t.codes.map fun p => (1 / 2 : ℚ) ^ p.length).sum = 1 / 2)

/-- HUF_ENC completes: IN is read to its end, the whole table goes to TBLO, then the packed payload to OUT, then OUT is
released; nothing else changes (41_huffman_encoder.md R149 to R152, 30_encoding.md R90, 20_memory.md R64). -/
def Obligations.HufEncCompletes : Prop :=
  ∀ s, s.channelsClosed → s.ports.inp.fail = false → fitsInput s.config.inMax s.ports.inp.q.length →
    ∃ t, encoderTable s.ports.inp.q = .ok t ∧ t.length = 257 ∧ exec .hufEnc s =
      .next { s with
        status := doneStatus
        ports := { s.ports with
          inp := ⟨[], false⟩
          tblo := s.ports.tblo ++ tableText t
          out := s.ports.out ++ packBits (payloadBits t s.ports.inp.q)
          hist := s.ports.hist ++ s.ports.inp.q.map (Event.pull .inp) ++ [.endOf .inp] ++
            (tableText t).map (Event.push .tblo) ++
            (packBits (payloadBits t s.ports.inp.q)).map (Event.push .out) ++ [.rel (.sink .out)] } }

/-- The three errors of HUF_ENC, each before any push: an open session, a failed IN, more than IN_MAX bytes, whose
first byte too many is consumed (41_huffman_encoder.md R149, 20_memory.md R64, 60_exceptions.md R236). -/
def Obligations.HufEncErrors : Prop :=
  (∀ s, ¬ s.channelsClosed → exec .hufEnc s = .next { s with status := errStatus 11#4 }) ∧
  (∀ s, s.channelsClosed → s.ports.inp.fail = true → exec .hufEnc s =
    .next { s with
      status := errStatus 1#4
      ports := { s.ports with hist := s.ports.hist ++ [.fail .inp] } }) ∧
  (∀ s m, s.channelsClosed → s.ports.inp.fail = false → s.config.inMax = some m → m < s.ports.inp.q.length →
    exec .hufEnc s =
      .next { s with
        status := errStatus 9#4
        ports := { s.ports with
          inp := ⟨s.ports.inp.q.drop (m + 1), false⟩
          hist := s.ports.hist ++ (s.ports.inp.q.take (m + 1)).map (Event.pull .inp) } })

/-- HUF_ENC on an empty input: 256 absent records and `0` on TBLO (514 bytes), the byte 0x00 on OUT, then the release
(41_huffman_encoder.md R154). -/
def Obligations.HufEncEmptyInput : Prop :=
  frequencyCount [] = [⟨256, 1⟩] ∧
  ∀ s, s.channelsClosed → s.ports.inp = ⟨[], false⟩ →
    ∃ text : List Byte, text = (List.replicate 256 [0x2D#8, 0x0A#8]).flatten ++ [0x30#8, 0x0A#8] ∧
      text.length = 514 ∧ exec .hufEnc s =
        .next { s with
          status := doneStatus
          ports := { s.ports with
            tblo := s.ports.tblo ++ text
            out := s.ports.out ++ [0x00#8]
            hist := s.ports.hist ++ [.endOf .inp] ++ text.map (Event.push .tblo) ++
              [.push .out 0x00#8, .rel (.sink .out)] } }

/-- The worked example "ABRACADABRA" (41_huffman_encoder.md R155): the tree, the codes, the payload bits and bytes,
the length of the table. -/
def Obligations.HufEncWorkedExample : Prop :=
  let input : List Byte :=
    [0x41#8, 0x42#8, 0x52#8, 0x41#8, 0x43#8, 0x41#8, 0x44#8, 0x41#8, 0x42#8, 0x52#8, 0x41#8]
  let b1 : Node := .branch (.leaf 0x44) (.leaf 256) 2 []
  let b2 : Node := .branch b1 (.leaf 0x43) 3 []
  let b3 : Node := .branch (.leaf 0x42) (.leaf 0x52) 4 []
  let b4 : Node := .branch b3 b2 7 []
  treeBuild (orderByCount (frequencyCount input)) = .ok ⟨b4, .leaf 0x41⟩ ∧
  ∃ t, encoderTable input = .ok t ∧
    t.slot 0x41 = some [true] ∧ t.slot 0x42 = some [false, false, false] ∧
    t.slot 0x52 = some [false, false, true] ∧ t.slot 0x43 = some [false, true, true] ∧
    t.slot 0x44 = some [false, true, false, false] ∧ t.slot 256 = some [false, true, false, true] ∧
    payloadBits t input =
      [true, false, false, false, false, false, true, true, false, true, true, true, false, true, false, false, true,
        false, false, false, false, false, true, true, false, true, false, true] ∧
    packBits (payloadBits t input) = [0x83#8, 0x74#8, 0x83#8, 0x50#8] ∧ (tableText t).length = 526

/-! ### HUF_DEC -/

/-- The deserializer accepts exactly the table texts: it reads one back to its table and pulls nothing after its last
LF, and everything else is CorruptTable, with the byte that shows it the last one consumed, or at the end of a queue
that is too short (30_encoding.md R93, 42_huffman_decoder.md R171). -/
def Obligations.DeserializerAcceptsExactlyTableTexts : Prop :=
  ∀ ps : Ports, ps.tbli.fail = false →
    (∀ t rest, t.valid → ps.tbli.q = tableText t ++ rest → deserializeTable ps =
      .ok t { ps with tbli := ⟨rest, false⟩, hist := ps.hist ++ (tableText t).map (Event.pull .tbli) }) ∧
    ((¬ ∃ t rest, CodeTable.valid t ∧ ps.tbli.q = tableText t ++ rest) →
      ∃ rest evs, tableError ps.tbli.q rest evs ∧ deserializeTable ps =
        .error (.err .corruptTable) { ps with tbli := ⟨rest, false⟩, hist := ps.hist ++ evs })

/-- The decoder's Leaves: one per present slot, carrying the slot's index as Symbol and its code as path, ordered by
length, then by code value, then (equal codes) by slot (42_huffman_decoder.md R172). -/
def Obligations.LeavesOrderedByLengthValueSlot : Prop :=
  ∀ t : CodeTable, t.length = 257 →
    (∀ x, x ∈ orderByCode (leavesFrom 0 t) ↔ ∃ k p, t.slot k = some p ∧ x = ⟨.leaf k, p⟩) ∧
    (orderByCode (leavesFrom 0 t)).Pairwise (fun a b =>
      a.path.length < b.path.length ∨ (a.path.length = b.path.length ∧
        (bitsValue a.path < bitsValue b.path ∨
          (a.path = b.path ∧ ∃ j k, a.node = .leaf j ∧ b.node = .leaf k ∧ j < k))))

/-- Rebuilding inverts the code assignment: for every tree without a placeholder, and for the degenerate Root, the
rebuilt tree assigns the same table, reaches exactly each present slot's Leaf by its code, and has a placeholder only
in the degenerate case; every table of HUF_ENC comes from such a tree (42_huffman_decoder.md R175). -/
def Obligations.RebuildInvertsAssignCodes : Prop :=
  (∀ r t, Root.proper r → assignCodes r = .ok t →
    ∃ r', rebuildTree t = .ok r' ∧ assignCodes r' = .ok t ∧
      (∀ k p, t.slot k = some p ↔ r'.follow p = some (.leaf k)) ∧
      (∀ p, r'.follow p = some .empty → p = [true] ∧ ∃ k, r' = ⟨.leaf k, .empty⟩)) ∧
  (∀ s t, encoderTable s = .ok t → ∃ r, Root.proper r ∧ assignCodes r = .ok t)

/-- HUF_DEC completes on a payload whose bits start with codes of the rebuilt tree, the last one Symbol 256's: it pushes
exactly the Symbols' bytes, each after the pull its code needs and before the next one, pulls no byte after the one with
the last code's last bit, examines no bit after that one, leaves what follows on IN and on TBLI, and releases IN last
(42_huffman_decoder.md R177, R178, R179, 20_memory.md R65). -/
def Obligations.HufDecDecodesCodes : Prop :=
  ∀ (s : State) (t : CodeTable) (r : Root) (code : Symbol → BitSeq) (bits : BitSeq) (out rest payload tail : List Byte),
    s.channelsClosed → t.valid → rebuildTree t = .ok r →
    (∀ k, (k = eos ∨ ∃ b ∈ out, k = Symbol.ofByte b) → r.follow (code k) = some (.leaf k)) →
    bits = out.flatMap (fun b => code (Symbol.ofByte b)) ++ code eos →
    bits <+: payload.flatMap byteBits → payload.length = (bits.length + 7) / 8 →
    s.ports.tbli = ⟨tableText t ++ rest, false⟩ → s.ports.inp = ⟨payload ++ tail, false⟩ →
    exec .hufDec s =
      .next { s with
        status := doneStatus
        ports := { s.ports with
          tbli := ⟨rest, false⟩
          inp := ⟨tail, false⟩
          out := s.ports.out ++ out
          hist := s.ports.hist ++ (tableText t).map (Event.pull .tbli) ++ decodeEvents code 0 payload out ++
            [.rel (.src .inp)] } }

/-- The errors of HUF_DEC before its reader opens: an open session, a failed TBLI, a text that is no table, whose bytes
are consumed up to the one that shows it or to the queue's end, a table whose ordered Leaves do not merge to a Root; IN
is not touched and nothing is released (42_huffman_decoder.md R171, R173, R174, R177, R179). -/
def Obligations.HufDecTableErrors : Prop :=
  (∀ s, ¬ s.channelsClosed → exec .hufDec s = .next { s with status := errStatus 11#4 }) ∧
  (∀ s, s.channelsClosed → s.ports.tbli.fail = true → exec .hufDec s =
    .next { s with
      status := errStatus 1#4
      ports := { s.ports with hist := s.ports.hist ++ [.fail .tbli] } }) ∧
  (∀ s, s.channelsClosed → s.ports.tbli.fail = false →
    (¬ ∃ t rest, CodeTable.valid t ∧ s.ports.tbli.q = tableText t ++ rest) →
    ∃ rest evs, tableError s.ports.tbli.q rest evs ∧ exec .hufDec s =
      .next { s with
        status := errStatus 6#4
        ports := { s.ports with tbli := ⟨rest, false⟩, hist := s.ports.hist ++ evs } }) ∧
  (∀ s t rest, s.channelsClosed → s.ports.tbli = ⟨tableText t ++ rest, false⟩ → t.valid →
    (¬ ∃ r, Rebuilds (orderByCode (leavesFrom 0 t)) r) → exec .hufDec s =
      .next { s with
        status := errStatus 6#4
        ports := { s.ports with
          tbli := ⟨rest, false⟩
          hist := s.ports.hist ++ (tableText t).map (Event.pull .tbli) } })

/-- The errors of HUF_DEC after the table: a failed IN is EmptyInput; a payload that ends inside or before a code is
TruncatedStream, with the bytes decoded before it kept on OUT, each pushed between the pulls its code is between; IN is
released last (42_huffman_decoder.md R177, R179, R180, 20_memory.md R65). -/
def Obligations.HufDecPayloadErrors : Prop :=
  (∀ s t r rest, s.channelsClosed → CodeTable.valid t → rebuildTree t = .ok r →
    s.ports.tbli = ⟨tableText t ++ rest, false⟩ → s.ports.inp.fail = true → exec .hufDec s =
      .next { s with
        status := errStatus 1#4
        ports := { s.ports with
          tbli := ⟨rest, false⟩
          hist := s.ports.hist ++ (tableText t).map (Event.pull .tbli) ++ [.fail .inp, .rel (.src .inp)] } }) ∧
  (∀ s t r (code : Symbol → BitSeq) (out rest payload : List Byte) (p : BitSeq),
    s.channelsClosed → CodeTable.valid t → rebuildTree t = .ok r →
    (∀ b ∈ out, r.follow (code (Symbol.ofByte b)) = some (.leaf (Symbol.ofByte b))) →
    (p = [] ∨ ∃ l rt n q, r.follow p = some (.branch l rt n q)) →
    s.ports.tbli = ⟨tableText t ++ rest, false⟩ → s.ports.inp = ⟨payload, false⟩ →
    payload.flatMap byteBits = out.flatMap (fun b => code (Symbol.ofByte b)) ++ p →
    exec .hufDec s =
      .next { s with
        status := errStatus 4#4
        ports := { s.ports with
          tbli := ⟨rest, false⟩
          inp := ⟨[], false⟩
          out := s.ports.out ++ out
          hist := s.ports.hist ++ (tableText t).map (Event.pull .tbli) ++ decodeEvents code 0 payload out ++
            [.endOf .inp, .rel (.src .inp)] } })

/-- A table with one present slot, whatever its code, gives the degenerate Root. With slot 256 a payload whose first bit
is 0 completes with no output, one whose first bit is 1 is CorruptTree. With a byte's slot each bit 0 puts that byte on
OUT and the first bit 1 is CorruptTree, the output before it kept. Either way no byte is pulled after the one with the
last bit read, and IN is released last (42_huffman_decoder.md R174, R177 to R181). -/
def Obligations.OneSlotTableDecoding : Prop :=
  (∀ s t b rest tail, s.channelsClosed → CodeTable.valid t →
    (∀ k, (t.slot k).isSome = true ↔ k = eos) →
    s.ports.tbli = ⟨tableText t ++ rest, false⟩ → s.ports.inp = ⟨b :: tail, false⟩ →
    rebuildTree t = .ok ⟨.leaf eos, .empty⟩ ∧
    exec .hufDec s =
      .next { s with
        status := if b.getLsbD 7 then errStatus 7#4 else doneStatus
        ports := { s.ports with
          tbli := ⟨rest, false⟩
          inp := ⟨tail, false⟩
          hist := s.ports.hist ++ (tableText t).map (Event.pull .tbli) ++ [.pull .inp b, .rel (.src .inp)] } }) ∧
  (∀ s t c n rest payload tail, s.channelsClosed → CodeTable.valid t →
    (∀ k, (t.slot k).isSome = true ↔ k = Symbol.ofByte c) →
    s.ports.tbli = ⟨tableText t ++ rest, false⟩ → s.ports.inp = ⟨payload ++ tail, false⟩ →
    payload.length = n / 8 + 1 → List.replicate n false ++ [true] <+: payload.flatMap byteBits →
    rebuildTree t = .ok ⟨.leaf (Symbol.ofByte c), .empty⟩ ∧
    exec .hufDec s =
      .next { s with
        status := errStatus 7#4
        ports := { s.ports with
          tbli := ⟨rest, false⟩
          inp := ⟨tail, false⟩
          out := s.ports.out ++ List.replicate n c
          hist := s.ports.hist ++ (tableText t).map (Event.pull .tbli) ++
            decodeEvents (fun _ => [false]) 0 payload (List.replicate n c) ++ [.rel (.src .inp)] } })

/-- Every table, one HUF_ENC never writes too, is rebuilt by the one merge rule or is CorruptTable: the rebuilt tree is
the one its ordered Leaves merge to, and a table whose Leaves merge to none, such as one with no present slot, does not
rebuild. With the codes `000`, `001` and `1` the Root's left child is the Leaf whose code is `1`; with `010`, `100` and `0`
the two longest are no siblings; with five slots coded `0` an empty path meets more nodes (42_huffman_decoder.md R173,
R174, R176). -/
def Obligations.RebuildOfIncompleteCode : Prop :=
  (∀ t : CodeTable, t.length = 257 →
    (∀ r, rebuildTree t = .ok r ↔ Rebuilds (orderByCode (leavesFrom 0 t)) r) ∧
    ((¬ ∃ r, Rebuilds (orderByCode (leavesFrom 0 t)) r) → rebuildTree t = .error (.err .corruptTable)) ∧
    ((∀ k, t.slot k = none) → rebuildTree t = .error (.err .corruptTable))) ∧
  rebuildTree (((CodeTable.empty.set 0x41 (some [false, false, false])).set 0x42
      (some [false, false, true])).set 256 (some [true])) =
    .ok ⟨.leaf 256, .branch (.leaf 0x41) (.leaf 0x42) 0 [false, false]⟩ ∧
  rebuildTree (((CodeTable.empty.set 0x41 (some [false, true, false])).set 0x42
      (some [true, false, false])).set 256 (some [false])) = .error (.err .corruptTable) ∧
  rebuildTree (List.replicate 5 (some [false]) ++ List.replicate 252 none) = .error (.err .corruptTable)

/-- The Huffman round trip: HUF_DEC on the table and the payload HUF_ENC wrote completes and appends exactly HUF_ENC's
input to OUT (42_huffman_decoder.md R182). -/
def Obligations.HuffmanRoundTrip : Prop :=
  ∀ s : State, s.channelsClosed → s.ports.inp.fail = false → fitsInput s.config.inMax s.ports.inp.q.length →
    ∃ s', exec .hufEnc s = .next s' ∧ s'.status = doneStatus ∧
      ∀ u : State, u.channelsClosed →
        u.ports.tbli = ⟨s'.ports.tblo.drop s.ports.tblo.length, false⟩ →
        u.ports.inp = ⟨s'.ports.out.drop s.ports.out.length, false⟩ →
        ∃ u', exec .hufDec u = .next u' ∧ u'.status = doneStatus ∧
          u'.ports.out = u.ports.out ++ s.ports.inp.q ∧ u'.ports.inp.q = [] ∧ u'.ports.tbli.q = []

/-! ### LZ78 -/

/-- The decimal text of a number: one ASCII digit byte per digit, most significant first, no leading zero, no sign
(20_memory.md R59, 00_scope.md R11). -/
def Obligations.DecimalTextIsCanonical : Prop :=
  ∀ n, dec n ≠ [] ∧ (∀ b ∈ dec n, isDigit b = true) ∧ decValue (dec n) = n ∧
    ((dec n).head? = some asciiZero → dec n = [asciiZero] ∧ n = 0)

/-- The index parse takes the longest decimal text of an index that exists now, 0 or 1 to `size`, and finds none
exactly when no such text stands there (43_lz78.md R206). -/
def Obligations.ParseIndexTakesLongestExistingIndex : Prop :=
  ∀ (t : List Byte) (size : Nat),
    (∀ j i, parseIndex t size = some (j, i) ↔
      i ≤ size ∧ dec i <+: t ∧ j = (dec i).length ∧ ∀ k ≤ size, dec k <+: t → (dec k).length ≤ j) ∧
    (parseIndex t size = none ↔ ∀ k ≤ size, ¬ dec k <+: t)

/-- The encoder's tokens are those the rule allows, stand for the input, and are at most as many as its bytes
(43_lz78.md R203, R204, R211). -/
def Obligations.EncoderTokensFollowTheRule : Prop :=
  ∀ s : List Byte, tokensEncode [] (encodeTokens [] [] s) s ∧ expandTokens [] (encodeTokens [] [] s) = s ∧
    (encodeTokens [] [] s).length ≤ s.length

/-- LZ_ENC completes: IN is read to its end and the tokens' text goes to OUT; nothing is released and nothing else
changes (43_lz78.md R202, R210). -/
def Obligations.LzEncCompletes : Prop :=
  ∀ s, s.channelsClosed → s.ports.inp.fail = false → fitsInput s.config.inMax s.ports.inp.q.length →
    exec .lzEnc s =
      .next { s with
        status := doneStatus
        ports := { s.ports with
          inp := ⟨[], false⟩
          out := s.ports.out ++ (encodeTokens [] [] s.ports.inp.q).flatMap tokenText
          hist := s.ports.hist ++ s.ports.inp.q.map (Event.pull .inp) ++ [.endOf .inp] ++
            ((encodeTokens [] [] s.ports.inp.q).flatMap tokenText).map (Event.push .out) } }

/-- The errors LZ_ENC and LZ_DEC share, each before any push: an open session, a failed IN, more than IN_MAX bytes
(43_lz78.md R202, R205, 20_memory.md R64, 60_exceptions.md R236). -/
def Obligations.LzReadErrors : Prop :=
  ∀ i, i = .lzEnc ∨ i = .lzDec →
    (∀ s, ¬ s.channelsClosed → exec i s = .next { s with status := errStatus 11#4 }) ∧
    (∀ s, s.channelsClosed → s.ports.inp.fail = true → exec i s =
      .next { s with
        status := errStatus 1#4
        ports := { s.ports with hist := s.ports.hist ++ [.fail .inp] } }) ∧
    (∀ s m, s.channelsClosed → s.ports.inp.fail = false → s.config.inMax = some m → m < s.ports.inp.q.length →
      exec i s =
        .next { s with
          status := errStatus 9#4
          ports := { s.ports with
            inp := ⟨s.ports.inp.q.drop (m + 1), false⟩
            hist := s.ports.hist ++ (s.ports.inp.q.take (m + 1)).map (Event.pull .inp) } })

/-- LZ_DEC completes on a stream that the rule reads as tokens, digit literals among them, with or without a final index:
it pushes exactly what they stand for; nothing is released and nothing else changes (43_lz78.md R205, R206, R210). -/
def Obligations.LzDecExpandsTokens : Prop :=
  ∀ (s : State) (ts : List Token) (final : Option Nat), s.channelsClosed →
    tokensReadable 0 ts ((final.map dec).getD []) → (∀ i ∈ final, i ≤ ts.length) →
    s.ports.inp = ⟨ts.flatMap tokenText ++ (final.map dec).getD [], false⟩ →
    fitsInput s.config.inMax s.ports.inp.q.length →
    exec .lzDec s =
      .next { s with
        status := doneStatus
        ports := { s.ports with
          inp := ⟨[], false⟩
          out := s.ports.out ++ expandTokens [] (ts ++ final.toList.map fun i => ⟨i, none⟩)
          hist := s.ports.hist ++ s.ports.inp.q.map (Event.pull .inp) ++ [.endOf .inp] ++
            (expandTokens [] (ts ++ final.toList.map fun i => ⟨i, none⟩)).map (Event.push .out) } }

/-- Where, after any tokens the rule reads, no text of an existing index starts, LZ_DEC ends in CorruptStream: the output of the tokens before it stays
and IN is empty (43_lz78.md R208, 60_exceptions.md R234). -/
def Obligations.LzDecCorruptStream : Prop :=
  ∀ (s : State) (ts : List Token) (bad : List Byte), s.channelsClosed → tokensReadable 0 ts bad →
    noIndexAt ts.length bad → s.ports.inp = ⟨ts.flatMap tokenText ++ bad, false⟩ →
    fitsInput s.config.inMax s.ports.inp.q.length →
    exec .lzDec s =
      .next { s with
        status := errStatus 8#4
        ports := { s.ports with
          inp := ⟨[], false⟩
          out := s.ports.out ++ expandTokens [] ts
          hist := s.ports.hist ++ s.ports.inp.q.map (Event.pull .inp) ++ [.endOf .inp] ++
            (expandTokens [] ts).map (Event.push .out) } }

/-- Every byte sequence has a reading as tokens that ends at its last byte, with a final index, or where no text of an
existing index starts, so that LzDecExpandsTokens and LzDecCorruptStream leave no stream out (43_lz78.md R205, R206,
R208). -/
def Obligations.EveryLzStreamHasAReading : Prop :=
  ∀ t : List Byte, ∃ ts tail, t = ts.flatMap tokenText ++ tail ∧ tokensReadable 0 ts tail ∧
    (tail = [] ∨ (∃ i ≤ ts.length, tail = dec i) ∨ noIndexAt ts.length tail)

/-- The LZ78 round trip where it holds: an input without digit bytes, or one whose tokens with an index of 1 or more
have no digit literal, comes back from LZ_DEC on LZ_ENC's output (43_lz78.md R209). The token stream must fit the
decoder's own input buffer: R209 bounds the input only, R64 the stream (log entry 12). -/
def Obligations.LzRoundTripWithoutDigitLiterals : Prop :=
  ∀ s : State, s.channelsClosed → s.ports.inp.fail = false → fitsInput s.config.inMax s.ports.inp.q.length →
    ((∀ b ∈ s.ports.inp.q, isDigit b = false) ∨
      (∀ tok ∈ encodeTokens [] [] s.ports.inp.q, 1 ≤ tok.index → ∀ c ∈ tok.literal, isDigit c = false)) →
    ∃ s', exec .lzEnc s = .next s' ∧ s'.status = doneStatus ∧
      ∀ u : State, u.channelsClosed → u.ports.inp = ⟨s'.ports.out.drop s.ports.out.length, false⟩ →
        fitsInput u.config.inMax u.ports.inp.q.length →
        ∃ u', exec .lzDec u = .next u' ∧ u'.status = doneStatus ∧
          u'.ports.out = u.ports.out ++ s.ports.inp.q

/-- The digit ambiguity is kept: "abcdefghija0" encodes to a stream that LZ_DEC reads, without an error, as
"abcdefghijj" (43_lz78.md R209). -/
def Obligations.LzDigitAmbiguityIsKept : Prop :=
  let input : List Byte :=
    [0x61#8, 0x62#8, 0x63#8, 0x64#8, 0x65#8, 0x66#8, 0x67#8, 0x68#8, 0x69#8, 0x6A#8, 0x61#8, 0x30#8]
  let stream : List Byte :=
    [0x30#8, 0x61#8, 0x30#8, 0x62#8, 0x30#8, 0x63#8, 0x30#8, 0x64#8, 0x30#8, 0x65#8, 0x30#8, 0x66#8, 0x30#8, 0x67#8,
      0x30#8, 0x68#8, 0x30#8, 0x69#8, 0x30#8, 0x6A#8, 0x31#8, 0x30#8]
  lzText input = stream ∧
  ∀ s : State, s.channelsClosed → s.ports.inp = ⟨stream, false⟩ → fitsInput s.config.inMax 22 →
    ∃ s', exec .lzDec s = .next s' ∧ s'.status = doneStatus ∧
      s'.ports.out = s.ports.out ++
        [0x61#8, 0x62#8, 0x63#8, 0x64#8, 0x65#8, 0x66#8, 0x67#8, 0x68#8, 0x69#8, 0x6A#8, 0x6A#8]

/-- The worked examples "AAAA" and "ABABAB": their tokens and their text (43_lz78.md R212). -/
def Obligations.LzWorkedExamples : Prop :=
  encodeTokens [] [] [0x41#8, 0x41#8, 0x41#8, 0x41#8] = [⟨0, some 0x41#8⟩, ⟨1, some 0x41#8⟩, ⟨1, none⟩] ∧
  lzText [0x41#8, 0x41#8, 0x41#8, 0x41#8] = [0x30#8, 0x41#8, 0x31#8, 0x41#8, 0x31#8] ∧
  encodeTokens [] [] [0x41#8, 0x42#8, 0x41#8, 0x42#8, 0x41#8, 0x42#8] =
    [⟨0, some 0x41#8⟩, ⟨0, some 0x42#8⟩, ⟨1, some 0x42#8⟩, ⟨3, none⟩] ∧
  lzText [0x41#8, 0x42#8, 0x41#8, 0x42#8, 0x41#8, 0x42#8] =
    [0x30#8, 0x41#8, 0x30#8, 0x42#8, 0x31#8, 0x42#8, 0x33#8]

/-! ### The whole machine -/

/-- No command moves a byte on, or sees the end or the failure of, a port not listed for it, and leaves that port's
contents as they are (20_memory.md R51). A release is no access: which command releases what is R55's (log entry
16). -/
def Obligations.PortsNotListedAreUntouched : Prop :=
  ∀ i s s' p, exec i s = .next s' → p ∉ portsUsed i →
    (∀ e ∈ newEvents s s', e.port = p → e.isRelease = true) ∧
    match p with
    | .src q => s'.ports.source q = s.ports.source q
    | .sink q => s'.ports.log q = s.ports.log q

/-- The releases of each command, exhaustively, each one the last event of its command (20_memory.md R55). -/
def Obligations.ReleasesByCommand : Prop :=
  ∀ i s s', exec i s = .next s' →
    (newEvents s s').filter Event.isRelease = releasesBy i s s' ∧
    ∀ e ∈ releasesBy i s s', (newEvents s s').getLast? = some e

/-- A command changes the ports only through its recorded events: applying them in order to the ports it found, every
pull taking the head of a source that has not failed, gives the ports it left, and the history only grows
(20_memory.md R52, R53, R54, R56). -/
def Obligations.EventHistoryExplainsPorts : Prop :=
  ∀ i s s', exec i s = .next s' →
    s'.ports.hist = s.ports.hist ++ newEvents s s' ∧ applyEvents (newEvents s s') s.ports = some s'.ports

/-- A codec command refuses to start while a host channel is open; else it neither changes nor reads the channel
registers and RESULT: whatever they hold, it does the same and keeps them (40_bitchannel.md R122). -/
def Obligations.CodecsIgnoreAndKeepChannelRegisters : Prop :=
  ∀ i s, isCodec i = true →
    (¬ s.channelsClosed → exec i s = .next { s with status := errStatus 11#4 }) ∧
    (s.channelsClosed → ∃ st ps, ∀ w r res,
      exec i { s with wChan := w, rChan := r, result := res } =
        .next { s with wChan := w, rChan := r, result := res, status := st, ports := ps })

/-- The state after reset meets the invariant (10_state.md R38). -/
def Obligations.InvHoldsAtReset : Prop := State.reset.Inv

/-- Every step keeps the invariant, from every state that meets it (10_state.md R23, R24, R25, R28, R29). -/
def Obligations.StepKeepsInv : Prop := ∀ s s', s.Inv → step s = .next s' → s'.Inv

/-- Reset puts every register of the block to its reset value and changes neither the ports nor `hist` (10_state.md
R38). The pending list is the model's (log entry 1). -/
def Obligations.ResetPutsEveryRegisterToItsResetValue : Prop :=
  ∀ s rest, s.pending = .reset :: rest →
    step s = .next { s with
      pending := rest
      status := ⟨false, false, false, 0#4⟩
      result := ⟨false, false⟩
      wOpen := false
      wChan := ⟨0#8, 0⟩
      rOpen := false
      rChan := ⟨0#8, 0⟩ } ∧
    (⟨false, false, false, 0#4⟩ : Status).toWord = 0x00000000#32 ∧ (⟨false, false⟩ : Result).toWord = 0x00000000#32

/-- Reset during a command: the ports are those after a prefix of the command's port events, of the length the action
asks for or all but its release, and no release is in it; every register has its reset value (70_reset_and_hazards.md
R261). The form of the action is the model's (log entries 1, 7). -/
def Obligations.ResetDuringCommandKeepsAPrefixOfEvents : Prop :=
  ∀ s v n rest, s.pending = .resetDuring v n :: rest → s.status.busy = false →
    ∃ s1 evs ps, commandWrite v { s with pending := rest } = .next s1 ∧
      evs <+: newEvents s s1 ∧ (∀ e ∈ evs, e.isRelease = false) ∧
      evs.length = min n ((newEvents s s1).filter fun e => !e.isRelease).length ∧
      applyEvents evs s.ports = some ps ∧
      step s = .next { s with
        pending := rest
        status := ⟨false, false, false, 0#4⟩
        result := ⟨false, false⟩
        wOpen := false
        wChan := ⟨0#8, 0⟩
        rOpen := false
        rChan := ⟨0#8, 0⟩
        ports := ps }

/-- The host's actions on the ports between two commands: load, fail, unfail, drain, copy; no event is recorded
(70_reset_and_hazards.md R262; the pending list is the model's, log entry 1). -/
def Obligations.HostPortActions : Prop :=
  ∀ s rest, s.status.busy = false →
    (∀ bytes, s.pending = .load .inp bytes :: rest → step s = .next { s with
      pending := rest
      ports := { s.ports with inp := ⟨s.ports.inp.q ++ bytes, s.ports.inp.fail⟩ } }) ∧
    (∀ bytes, s.pending = .load .tbli bytes :: rest → step s = .next { s with
      pending := rest
      ports := { s.ports with tbli := ⟨s.ports.tbli.q ++ bytes, s.ports.tbli.fail⟩ } }) ∧
    (∀ f, s.pending = .setFail .inp f :: rest → step s = .next { s with
      pending := rest
      ports := { s.ports with inp := ⟨s.ports.inp.q, f⟩ } }) ∧
    (∀ f, s.pending = .setFail .tbli f :: rest → step s = .next { s with
      pending := rest
      ports := { s.ports with tbli := ⟨s.ports.tbli.q, f⟩ } }) ∧
    (s.pending = .drain .out :: rest →
      step s = .next { s with pending := rest, ports := { s.ports with out := [] } }) ∧
    (s.pending = .drain .tblo :: rest →
      step s = .next { s with pending := rest, ports := { s.ports with tblo := [] } }) ∧
    (s.pending = .copyTable :: rest → step s = .next { s with
      pending := rest
      ports := { s.ports with tbli := ⟨s.ports.tbli.q ++ s.ports.tblo, s.ports.tbli.fail⟩ } })

/-- The host actions a model refuses, by name: a CMD write while a command runs, an access that is not a whole aligned
word of the window, a port action while a command runs, an edit of a queue or a log (70_reset_and_hazards.md R263; the form of
the actions is the model's, log entries 1, 17). -/
def Obligations.RefusedHostActions : Prop :=
  (∀ s v rest, s.pending = .write 0 4 v :: rest → s.status.busy = true → step s = .refused .commandWhileBusy) ∧
  (∀ s v n rest, s.pending = .resetDuring v n :: rest → s.status.busy = true →
    step s = .refused .commandWhileBusy) ∧
  (∀ s off size v rest, s.pending = .write off size v :: rest → ¬ (size = 4 ∧ off ∈ [0, 4, 8, 12]) →
    step s = .refused .badAccess) ∧
  (∀ s off size rest, s.pending = .read off size :: rest → ¬ (size = 4 ∧ off ∈ [0, 4, 8, 12]) →
    step s = .refused .badAccess) ∧
  (∀ s a rest, s.pending = a :: rest → s.status.busy = true →
    ((∃ p bytes, a = .load p bytes) ∨ (∃ p f, a = .setFail p f) ∨ (∃ p, a = .drain p) ∨ a = .copyTable) →
    step s = .refused .portActionWhileBusy) ∧
  (∀ s a rest, s.pending = a :: rest → ((∃ p q, a = .editSource p q) ∨ (∃ p l, a = .editSink p l)) →
    step s = .refused .portEdit)

/-- Reads of the register window answer 0 for CMD and 0xC, the STATUS and the RESULT word, and change nothing of the
block or the ports; writes to STATUS, RESULT and 0xC are ignored (20_memory.md R62, R63). The field that keeps the
answer and the pending list are the model's own (log entries 1, 8). -/
def Obligations.RegisterWindowAccess : Prop :=
  (∀ s rest, s.pending = .read 0 4 :: rest → step s = .next { s with pending := rest, readData := some 0#32 }) ∧
  (∀ s rest, s.pending = .read 4 4 :: rest →
    step s = .next { s with pending := rest, readData := some s.status.toWord }) ∧
  (∀ s rest, s.pending = .read 8 4 :: rest →
    step s = .next { s with pending := rest, readData := some s.result.toWord }) ∧
  (∀ s rest, s.pending = .read 12 4 :: rest → step s = .next { s with pending := rest, readData := some 0#32 }) ∧
  (∀ s off v rest, s.pending = .write off 4 v :: rest → off ∈ [4, 8, 12] →
    step s = .next { s with pending := rest })
end

