-- ==== Sys2Proof/Laws/State.lean ====
section
/-! SUPPORT. The small lemmas of the state's updates: one per field per named update, true by unfolding, so that no
proof unfolds a record update again. -/

namespace Sys2Proof.Machine

section Status
variable (s : State) (e : Err)

@[simp] theorem start_status : s.start.status = .started := rfl
@[simp] theorem start_result : s.start.result = s.result := rfl
@[simp] theorem start_wOpen : s.start.wOpen = s.wOpen := rfl
@[simp] theorem start_wChan : s.start.wChan = s.wChan := rfl
@[simp] theorem start_rOpen : s.start.rOpen = s.rOpen := rfl
@[simp] theorem start_rChan : s.start.rChan = s.rChan := rfl
@[simp] theorem start_ports : s.start.ports = s.ports := rfl
@[simp] theorem start_pending : s.start.pending = s.pending := rfl
@[simp] theorem start_readData : s.start.readData = s.readData := rfl
@[simp] theorem start_config : s.start.config = s.config := rfl

@[simp] theorem complete_status : s.complete.status = .completed := rfl
@[simp] theorem complete_result : s.complete.result = s.result := rfl
@[simp] theorem complete_wOpen : s.complete.wOpen = s.wOpen := rfl
@[simp] theorem complete_wChan : s.complete.wChan = s.wChan := rfl
@[simp] theorem complete_rOpen : s.complete.rOpen = s.rOpen := rfl
@[simp] theorem complete_rChan : s.complete.rChan = s.rChan := rfl
@[simp] theorem complete_ports : s.complete.ports = s.ports := rfl
@[simp] theorem complete_pending : s.complete.pending = s.pending := rfl
@[simp] theorem complete_readData : s.complete.readData = s.readData := rfl
@[simp] theorem complete_config : s.complete.config = s.config := rfl

@[simp] theorem fail_status : (s.fail e).status = .failed e := rfl
@[simp] theorem fail_result : (s.fail e).result = s.result := rfl
@[simp] theorem fail_wOpen : (s.fail e).wOpen = s.wOpen := rfl
@[simp] theorem fail_wChan : (s.fail e).wChan = s.wChan := rfl
@[simp] theorem fail_rOpen : (s.fail e).rOpen = s.rOpen := rfl
@[simp] theorem fail_rChan : (s.fail e).rChan = s.rChan := rfl
@[simp] theorem fail_ports : (s.fail e).ports = s.ports := rfl
@[simp] theorem fail_pending : (s.fail e).pending = s.pending := rfl
@[simp] theorem fail_readData : (s.fail e).readData = s.readData := rfl
@[simp] theorem fail_config : (s.fail e).config = s.config := rfl

@[simp] theorem resetBlock_status : s.resetBlock.status = ⟨false, false, false, 0#4⟩ := rfl
@[simp] theorem resetBlock_result : s.resetBlock.result = ⟨false, false⟩ := rfl
@[simp] theorem resetBlock_wOpen : s.resetBlock.wOpen = false := rfl
@[simp] theorem resetBlock_wChan : s.resetBlock.wChan = .fresh := rfl
@[simp] theorem resetBlock_rOpen : s.resetBlock.rOpen = false := rfl
@[simp] theorem resetBlock_rChan : s.resetBlock.rChan = .fresh := rfl
@[simp] theorem resetBlock_ports : s.resetBlock.ports = s.ports := rfl
@[simp] theorem resetBlock_pending : s.resetBlock.pending = s.pending := rfl
@[simp] theorem resetBlock_readData : s.resetBlock.readData = s.readData := rfl
@[simp] theorem resetBlock_config : s.resetBlock.config = s.config := rfl

end Status

section Ports
variable (ps : Ports) (e : Event) (src : Source) (l : List Byte)

@[simp] theorem record_inp : (ps.record e).inp = ps.inp := rfl
@[simp] theorem record_tbli : (ps.record e).tbli = ps.tbli := rfl
@[simp] theorem record_out : (ps.record e).out = ps.out := rfl
@[simp] theorem record_tblo : (ps.record e).tblo = ps.tblo := rfl
@[simp] theorem record_hist : (ps.record e).hist = ps.hist ++ [e] := rfl
@[simp] theorem record_source (p : SrcPort) : (ps.record e).source p = ps.source p := by cases p <;> rfl
@[simp] theorem record_log (p : SinkPort) : (ps.record e).log p = ps.log p := by cases p <;> rfl

@[simp] theorem setSource_hist (p : SrcPort) : (ps.setSource p src).hist = ps.hist := by cases p <;> rfl
@[simp] theorem setSource_out (p : SrcPort) : (ps.setSource p src).out = ps.out := by cases p <;> rfl
@[simp] theorem setSource_tblo (p : SrcPort) : (ps.setSource p src).tblo = ps.tblo := by cases p <;> rfl
@[simp] theorem setSource_log (p : SrcPort) (q : SinkPort) : (ps.setSource p src).log q = ps.log q := by
  cases p <;> cases q <;> rfl
@[simp] theorem setSource_source_same (p : SrcPort) : (ps.setSource p src).source p = src := by cases p <;> rfl
theorem setSource_source_other {p q : SrcPort} (h : q ≠ p) : (ps.setSource p src).source q = ps.source q := by
  cases p <;> cases q <;> first | rfl | exact absurd rfl h

@[simp] theorem setLog_hist (p : SinkPort) : (ps.setLog p l).hist = ps.hist := by cases p <;> rfl
@[simp] theorem setLog_inp (p : SinkPort) : (ps.setLog p l).inp = ps.inp := by cases p <;> rfl
@[simp] theorem setLog_tbli (p : SinkPort) : (ps.setLog p l).tbli = ps.tbli := by cases p <;> rfl
@[simp] theorem setLog_source (p : SinkPort) (q : SrcPort) : (ps.setLog p l).source q = ps.source q := by
  cases p <;> cases q <;> rfl
@[simp] theorem setLog_log_same (p : SinkPort) : (ps.setLog p l).log p = l := by cases p <;> rfl
theorem setLog_log_other {p q : SinkPort} (h : q ≠ p) : (ps.setLog p l).log q = ps.log q := by
  cases p <;> cases q <;> first | rfl | exact absurd rfl h

end Ports

end Sys2Proof.Machine
end

