-- ==== Sys2Proof/Laws/Ops.lean ====
section
/-! SUPPORT. What each shared operation can do, said once: the port accesses, the bit-level functions, ReadAll, the
STATUS protocol around a command's body. Proofs cite these instead of unfolding the operations. -/

namespace Sys2Proof.Machine

/-! ### Bodies -/

/-- A sequence of two bodies: the second runs on what the first left, unless the first stopped. -/
theorem bind_run {σ α β : Type} (m : EStateM Stop σ α) (f : α → EStateM Stop σ β) (s : σ) :
    (m >>= f) s = match m s with
      | .ok a s' => f a s'
      | .error e s' => .error e s' := by
  change EStateM.bind m f s = _
  unfold EStateM.bind
  cases m s <;> rfl

/-- A body whose result is mapped. -/
theorem map_run {σ α β : Type} (m : EStateM Stop σ α) (f : α → β) (s : σ) :
    (f <$> m) s = match m s with
      | .ok a s' => .ok (f a) s'
      | .error e s' => .error e s' := by
  change EStateM.map f m s = _
  unfold EStateM.map
  cases m s <;> rfl

@[simp] theorem pure_run {σ α : Type} (a : α) (s : σ) : (pure a : EStateM Stop σ α) s = .ok a s := rfl

@[simp] theorem get_run {σ : Type} (s : σ) : (get : EStateM Stop σ σ) s = .ok s s := rfl

@[simp] theorem modify_run {σ : Type} (f : σ → σ) (s : σ) :
    (modify f : EStateM Stop σ PUnit) s = .ok ⟨⟩ (f s) := rfl

@[simp] theorem raise_run {σ α : Type} (e : Err) (s : σ) :
    (raise e : EStateM Stop σ α) s = .error (.err e) s := rfl

@[simp] theorem overrun_run {σ α : Type} (s : σ) : (overrun : EStateM Stop σ α) s = .error .overrun s := rfl

/-- From a completed sequence, the completed parts. -/
theorem bind_ok {σ α β : Type} {m : EStateM Stop σ α} {f : α → EStateM Stop σ β} {s s' : σ} {b : β}
    (h : (m >>= f) s = .ok b s') : ∃ a s1, m s = .ok a s1 ∧ f a s1 = .ok b s' := by
  rw [bind_run] at h
  split at h
  · exact ⟨_, _, ‹_›, h⟩
  · cases h

/-! ### Ports -/

theorem pull_failed {p : SrcPort} {ps : Ports} (h : (ps.source p).fail = true) :
    pull p ps = .ok .fail (ps.record (.fail p)) := by simp [pull, h]

theorem pull_empty {p : SrcPort} {ps : Ports} (hf : (ps.source p).fail = false) (hq : (ps.source p).q = []) :
    pull p ps = .ok .endOf (ps.record (.endOf p)) := by simp [pull, hf, hq]

theorem pull_byte {p : SrcPort} {ps : Ports} {b : Byte} {rest : List Byte} (hf : (ps.source p).fail = false)
    (hq : (ps.source p).q = b :: rest) :
    pull p ps = .ok (.byte b) ((ps.setSource p ⟨rest, false⟩).record (.pull p b)) := by simp [pull, hf, hq]

/-- A pull ends in one of its three answers and never stops the command (20_memory.md R52). -/
theorem pull_cases (p : SrcPort) (ps : Ports) :
    ((ps.source p).fail = true ∧ pull p ps = .ok .fail (ps.record (.fail p))) ∨
    ((ps.source p).fail = false ∧ (ps.source p).q = [] ∧ pull p ps = .ok .endOf (ps.record (.endOf p))) ∨
    ∃ b rest, (ps.source p).fail = false ∧ (ps.source p).q = b :: rest ∧
      pull p ps = .ok (.byte b) ((ps.setSource p ⟨rest, false⟩).record (.pull p b)) := by
  cases hf : (ps.source p).fail with
  | true => exact .inl ⟨rfl, pull_failed hf⟩
  | false =>
    cases hq : (ps.source p).q with
    | nil => exact .inr (.inl ⟨rfl, rfl, pull_empty hf hq⟩)
    | cons b rest => exact .inr (.inr ⟨b, rest, rfl, rfl, pull_byte hf hq⟩)

theorem push_run (p : SinkPort) (b : Byte) (ps : Ports) :
    push p b ps = .ok () ((ps.setLog p (ps.log p ++ [b])).record (.push p b)) := rfl

theorem release_run (p : Port) (ps : Ports) : release p ps = .ok () (ps.record (.rel p)) := rfl

theorem pushAll_run (p : SinkPort) (bs : List Byte) (ps : Ports) :
    pushAll p bs ps = .ok () { ps.setLog p (ps.log p ++ bs) with hist := ps.hist ++ bs.map (Event.push p) } := rfl

theorem pushAll_nil (p : SinkPort) : pushAll p [] = pure () := by
  funext ps; cases p <;> simp [pushAll_run, Ports.setLog, Ports.log]

/-- Pushing a list is pushing its bytes one after the other (20_memory.md R53). -/
theorem pushAll_cons (p : SinkPort) (b : Byte) (bs : List Byte) :
    pushAll p (b :: bs) = (push p b >>= fun _ => pushAll p bs) := by
  funext ps
  cases p <;> simp [bind_run, push_run, pushAll_run, Ports.record, Ports.setLog, Ports.log]

/-! ### Bit channels -/

/-- Fewer than seven bits buffered: the bit goes into the accumulator (40_bitchannel.md R111). -/
theorem writeBit_buffers {w : WriterChan} (b : Bool) (h : w.nb.val + 1 < 8) (ps : Ports) :
    writeBit w b ps = .ok ⟨w.acc * 2#8 + bitByte b, ⟨w.nb.val + 1, h⟩⟩ ps := by simp [writeBit, h]

/-- The eighth bit: the byte is pushed and the channel is empty (40_bitchannel.md R111). -/
theorem writeBit_pushes {w : WriterChan} (b : Bool) (h : ¬ w.nb.val + 1 < 8) (ps : Ports) :
    writeBit w b ps = .ok .fresh
      ((ps.setLog .out (ps.log .out ++ [w.acc * 2#8 + bitByte b])).record
        (.push .out (w.acc * 2#8 + bitByte b))) := by
  simp [writeBit, h, map_run, push_run]

/-- Nothing buffered: CloseWriter only releases OUT (40_bitchannel.md R112). -/
theorem closeWriter_empty {w : WriterChan} (h : w.nb.val = 0) (ps : Ports) :
    closeWriter w ps = .ok w (ps.record (.rel (.sink .out))) := by
  simp [closeWriter, h, map_run, release_run]

/-- Bits buffered: CloseWriter pushes the padded byte, then releases OUT (40_bitchannel.md R112). -/
theorem closeWriter_pads {w : WriterChan} (h : 0 < w.nb.val) (ps : Ports) :
    closeWriter w ps = .ok .fresh
      (((ps.setLog .out (ps.log .out ++ [w.acc <<< (8 - w.nb.val)])).record
        (.push .out (w.acc <<< (8 - w.nb.val)))).record (.rel (.sink .out))) := by
  simp [closeWriter, h, bind_run, map_run, push_run, release_run]

/-- A buffered bit is returned without a pull (40_bitchannel.md R113). -/
theorem readBit_buffered {r : ReaderChan} (h : r.nb.val ≠ 0) (ps : Ports) :
    readBit r ps = .ok (takeBit r) ps := by simp [readBit, h]

/-- An empty buffer takes the answer of one pull (40_bitchannel.md R113). -/
theorem readBit_pulls {r : ReaderChan} (h : r.nb.val = 0) (ps : Ports) :
    readBit r ps = match pull .inp ps with
      | .ok (.byte b) ps' => .ok (takeBit ⟨b, 8⟩) ps'
      | .ok .endOf ps' => .ok (.endOf, r) ps'
      | .ok .fail ps' => .ok (.fail, r) ps'
      | .error e ps' => .error e ps' := by
  obtain ⟨_, hp⟩ | ⟨_, _, hp⟩ | ⟨b, rest, _, _, hp⟩ := pull_cases .inp ps <;>
    simp [readBit, h, bind_run, hp]

/-! ### ReadAll -/

/-- A failed IN: EmptyInput at the first pull (20_memory.md R64). -/
theorem readAll_failed {ps : Ports} (inMax : Option Nat) (h : ps.inp.fail = true) :
    readAll inMax ps = .error (.err .emptyInput) (ps.record (.fail .inp)) := by
  have hp : pull .inp ps = .ok .fail (ps.record (.fail .inp)) := pull_failed (p := .inp) h
  simp [readAll, readAllLoop, bind_run, hp]

theorem readAllLoop_fits {inMax : Option Nat} {q : List Byte} :
    ∀ {n : Nat} {buf : List Byte} {ps : Ports}, ps.inp = ⟨q, false⟩ → q.length < n →
      (∀ m, inMax = some m → buf.length + q.length ≤ m) →
      readAllLoop inMax n buf ps = .ok (buf ++ q)
        { ps with inp := ⟨[], false⟩, hist := ps.hist ++ q.map (Event.pull .inp) ++ [.endOf .inp] } := by
  induction q with
  | nil =>
    intro n buf ps hin hn _
    obtain ⟨k, rfl⟩ : ∃ k, n = k + 1 := ⟨n - 1, by omega⟩
    have hp : pull .inp ps = .ok .endOf (ps.record (.endOf .inp)) :=
      pull_empty (p := .inp) (by simp [Ports.source, hin]) (by simp [Ports.source, hin])
    simp [readAllLoop, bind_run, hp, Ports.record, ← hin]
  | cons b q ih =>
    intro n buf ps hin hn hcap
    obtain ⟨k, rfl⟩ : ∃ k, n = k + 1 := ⟨n - 1, by omega⟩
    have hp : pull .inp ps = .ok (.byte b) ((ps.setSource .inp ⟨q, false⟩).record (.pull .inp b)) :=
      pull_byte (p := .inp) (by simp [Ports.source, hin]) (by simp [Ports.source, hin])
    have hne : ¬ inMax = some buf.length := fun h => by have := hcap _ h; simp at this
    have := ih (n := k) (buf := buf ++ [b]) (ps := (ps.setSource .inp ⟨q, false⟩).record (.pull .inp b)) rfl
      (by simpa using hn) (fun m h => by have := hcap m h; simp at this ⊢; omega)
    simpa [readAllLoop, bind_run, hp, hne, Ports.record, Ports.setSource] using this

/-- A source that fits is read to its end (20_memory.md R64). -/
theorem readAll_fits {ps : Ports} {inMax : Option Nat} (hf : ps.inp.fail = false)
    (h : ∀ m, inMax = some m → ps.inp.q.length ≤ m) :
    readAll inMax ps = .ok ps.inp.q
      { ps with inp := ⟨[], false⟩, hist := ps.hist ++ ps.inp.q.map (Event.pull .inp) ++ [.endOf .inp] } := by
  have := readAllLoop_fits (inMax := inMax) (q := ps.inp.q) (n := ps.inp.q.length + 1) (buf := []) (ps := ps)
    (by rw [← hf]) (by omega) (by simpa using h)
  simpa [readAll] using this

theorem readAllLoop_exceeds {m : Nat} {q : List Byte} :
    ∀ {n : Nat} {buf : List Byte} {ps : Ports}, ps.inp = ⟨q, false⟩ → q.length < n → buf.length ≤ m →
      m < buf.length + q.length →
      readAllLoop (some m) n buf ps = .error (.err .capacityExceeded)
        { ps with
          inp := ⟨q.drop (m - buf.length + 1), false⟩
          hist := ps.hist ++ (q.take (m - buf.length + 1)).map (Event.pull .inp) } := by
  induction q with
  | nil => intro n buf ps _ _ h1 h2; simp at h2; omega
  | cons b q ih =>
    intro n buf ps hin hn h1 h2
    obtain ⟨k, rfl⟩ : ∃ k, n = k + 1 := ⟨n - 1, by omega⟩
    have hp : pull .inp ps = .ok (.byte b) ((ps.setSource .inp ⟨q, false⟩).record (.pull .inp b)) :=
      pull_byte (p := .inp) (by simp [Ports.source, hin]) (by simp [Ports.source, hin])
    by_cases he : m = buf.length
    · simp [readAllLoop, bind_run, hp, he, Ports.record, Ports.setSource]
    · have := ih (n := k) (buf := buf ++ [b]) (ps := (ps.setSource .inp ⟨q, false⟩).record (.pull .inp b)) rfl
        (by simpa using hn) (by simp; omega) (by simp at h2 ⊢; omega)
      have hd : m - buf.length = m - (buf.length + 1) + 1 := by omega
      simpa [readAllLoop, bind_run, hp, he, Ports.record, Ports.setSource, hd] using this

/-- A source with more than `m = IN_MAX` bytes: CapacityExceeded, with `m + 1` bytes consumed (20_memory.md R64). -/
theorem readAll_exceeds {ps : Ports} {m : Nat} (hf : ps.inp.fail = false) (h : m < ps.inp.q.length) :
    readAll (some m) ps = .error (.err .capacityExceeded)
      { ps with
        inp := ⟨ps.inp.q.drop (m + 1), false⟩
        hist := ps.hist ++ (ps.inp.q.take (m + 1)).map (Event.pull .inp) } := by
  have := readAllLoop_exceeds (m := m) (q := ps.inp.q) (n := ps.inp.q.length + 1) (buf := []) (ps := ps)
    (by rw [← hf]) (by omega) (by simp) (by simpa using h)
  simpa [readAll] using this

/-! ### A command -/

/-- What a command can do: it completes, it ends in an error, or a bound of the model ran out (10_state.md R24,
60_exceptions.md R233). -/
theorem runCommand_cases (body : Cmd Unit) (s : State) :
    (∃ s', body s.start = .ok () s' ∧ runCommand body s = .next s'.complete) ∨
    (∃ e s', body s.start = .error (.err e) s' ∧ runCommand body s = .next (s'.fail e)) ∨
    (∃ s', body s.start = .error .overrun s' ∧ runCommand body s = .fault .loopBound) := by
  unfold runCommand
  cases hb : body s.start with
  | ok a s' => exact .inl ⟨s', rfl, rfl⟩
  | error st s' =>
    cases st with
    | err e => exact .inr (.inl ⟨e, s', rfl, rfl⟩)
    | overrun => exact .inr (.inr ⟨s', rfl, rfl⟩)

/-- The start of a command depends on nothing STATUS held (10_state.md R36). -/
theorem runCommand_ignores_status (body : Cmd Unit) (s : State) (st : Status) :
    runCommand body { s with status := st } = runCommand body s := rfl

/-- A body over the ports changes nothing else of the state. -/
theorem onPorts_run {α : Type} (m : PortM α) (s : State) :
    onPorts m s = match m s.ports with
      | .ok a p => .ok a { s with ports := p }
      | .error e p => .error e { s with ports := p } := rfl

/-- An open host channel: SequenceError, nothing else (60_exceptions.md R236). -/
theorem codec_refuses {body : Config → PortM Unit} {s : State} (h : s.wOpen = true ∨ s.rOpen = true) :
    codec body s = .error (.err .sequenceError) s := by
  rcases h with h | h <;> simp [codec, h]

/-- Both host channels closed: the body runs on the ports (40_bitchannel.md R122). -/
theorem codec_runs {body : Config → PortM Unit} {s : State} (hw : s.wOpen = false) (hr : s.rOpen = false) :
    codec body s = onPorts (body s.config) s := by simp [codec, hw, hr]

/-! ### A command stopped by reset -/

/-- What is kept is a prefix of the command's events (70_reset_and_hazards.md R261). -/
theorem keptEvents_prefix (k : Nat) (s s' : State) : keptEvents k s s' <+: newEvents s s' :=
  (List.takeWhile_prefix _).trans (List.take_prefix _ _)

/-- No release is kept (70_reset_and_hazards.md R261). -/
theorem keptEvents_noRelease {k : Nat} {s s' : State} {e : Event} (h : e ∈ keptEvents k s s') :
    e.isRelease = false := by simpa using List.mem_takeWhile_imp h

end Sys2Proof.Machine
end

