-- ==== Sys2Proof/Laws/PerInstr.lean ====
section
/-! SUPPORT. What is said of every command as syntax, one lemma per constructor: the family FieldsWellFormed. -/

namespace Sys2Proof.Laws.FieldsWellFormed

/-- The fields of a command's word pass the three checks of 30_encoding.md R83. -/
def Statement (i : Instr) : Prop := i.fields.wellFormed = true

theorem bwOpen : Statement .bwOpen := by unfold Statement; decide
theorem bwWrite (opa : Byte) : Statement (.bwWrite opa) := by
  simp [Statement, Instr.fields, CmdFields.wellFormed, CmdFields.opcAssigned, CmdFields.rsvZero, CmdFields.opaAllowed]
theorem bwClose : Statement .bwClose := by unfold Statement; decide
theorem brOpen : Statement .brOpen := by unfold Statement; decide
theorem brRead : Statement .brRead := by unfold Statement; decide
theorem brReadReq : Statement .brReadReq := by unfold Statement; decide
theorem brClose : Statement .brClose := by unfold Statement; decide
theorem hufEnc : Statement .hufEnc := by unfold Statement; decide
theorem hufDec : Statement .hufDec := by unfold Statement; decide
theorem lzEnc : Statement .lzEnc := by unfold Statement; decide
theorem lzDec : Statement .lzDec := by unfold Statement; decide

end Sys2Proof.Laws.FieldsWellFormed
end

