-- ==== Sys2Proof/Tests/Slice0.lean ====
section
/-! SUPPORT. The model's own tests, their expected values from 95_test_vectors.md and the rules' examples, and for
each statement with hypotheses a witness that meets them, clause by clause. -/

namespace Sys2Proof.Tests

open Sys2Proof.Machine

-- One proof at a time: a module build under the 22 GiB limit has no room for many proof threads at once.
set_option Elab.async false

/-! ### Helpers -/

/-- The next state of an outcome, if it is one. -/
def nextOf (o : Host.Outcome State Fault Refusal) : Option State :=
  match o with
  | .next s => some s
  | .fault _ => none
  | .refused _ => none

/-- The state after reset with bytes queued on IN. -/
def onIn (bytes : List Byte) : State :=
  { State.reset with ports := { State.reset.ports with inp := ⟨bytes, false⟩ } }

/-- The state after reset with bytes queued on TBLI and on IN. -/
def onTable (table bytes : List Byte) : State :=
  { State.reset with ports := { State.reset.ports with inp := ⟨bytes, false⟩, tbli := ⟨table, false⟩ } }

/-- What `onIn` and `onTable` put on the ports, for the hypotheses of that form. -/
theorem onIn_ports (bytes : List Byte) : (onIn bytes).ports.inp = ⟨bytes, false⟩ := rfl
theorem onTable_ports (table bytes : List Byte) :
    (onTable table bytes).ports.tbli = ⟨table, false⟩ ∧ (onTable table bytes).ports.inp = ⟨bytes, false⟩ := ⟨rfl, rfl⟩

/-- The state with IN failed. -/
def failedIn (s : State) : State := { s with ports := { s.ports with inp := { s.ports.inp with fail := true } } }

/-- The state with an open reader. -/
def withReader (s : State) : State := { s with rOpen := true }

/-- The state with an open writer that holds `nb` bits. -/
def withWriter (acc : Byte) (nb : Fin 8) : State := { State.reset with wOpen := true, wChan := ⟨acc, nb⟩ }

/-- The state while a command runs. -/
def busyState : State := { State.reset with status := Status.started }

/-- The state whose host does one thing next. -/
def doing (a : HostAction) : State := { State.reset with pending := [a] }

/-- The table of "AB" (95_test_vectors.md 2.4). -/
def abTable : CodeTable :=
  ((CodeTable.empty.set 0x41 (some [true])).set 0x42 (some [false, false])).set 256 (some [false, true])

/-- The table `010`, `100`, `0`, whose two longest codes are no siblings (95_test_vectors.md section 1). -/
def strangers : CodeTable :=
  ((CodeTable.empty.set 0x41 (some [false, true, false])).set 0x42 (some [true, false, false])).set 256 (some [false])

/-- A table whose one slot is a byte's. -/
def byteSlot : CodeTable := CodeTable.empty.set 0x41 (some [true, true])

/-- The table with the one code `11` for Symbol 256 (95_test_vectors.md 2.4). -/
def oneSlot : CodeTable := CodeTable.empty.set 256 (some [true, true])

/-- The tree of "AB". -/
def abRoot : Root := ⟨.leaf 0x41, .branch (.leaf 0x42) (.leaf 256) 0 [false]⟩

/-- The tree HUF_DEC rebuilds from the table of "AB". -/
def abRebuilt : Root := ⟨.branch (.leaf 0x42) (.leaf 256) 0 [false], .leaf 0x41⟩

/-- The codes of the table of "AB". -/
def abCode (k : Symbol) : BitSeq := abTable.codeBits k

/-! ### WellFormed: an ill-formed word for each check -/

theorem test_wellFormed_refuses_unassigned_opc : (fieldsOf 0x00000008#32).wellFormed = false := by decide
theorem test_wellFormed_refuses_nonzero_rsv : (fieldsOf 0x10000005#32).wellFormed = false := by decide
theorem test_wellFormed_refuses_opa_of_hufEnc : (fieldsOf 0x00000110#32).wellFormed = false := by decide
theorem test_wellFormed_accepts_bwWrite_255 : (fieldsOf 0x0000FF02#32).wellFormed = true := by decide

/-! ### Decode: a word written out for each constructor (30_encoding.md R81, 95_test_vectors.md 2.1) -/

theorem test_decode_bwOpen : decode 0b00000000000000000000000000000001#32 = .ok .bwOpen := by decide
theorem test_decode_bwWrite : decode 0b00000000000000000000011100000010#32 = .ok (.bwWrite 7#8) := by decide
theorem test_decode_bwClose : decode 0b00000000000000000000000000000011#32 = .ok .bwClose := by decide
theorem test_decode_brOpen : decode 0b00000000000000000000000000000100#32 = .ok .brOpen := by decide
theorem test_decode_brRead : decode 0b00000000000000000000000000000101#32 = .ok .brRead := by decide
theorem test_decode_brReadReq : decode 0b00000000000000000000000000000110#32 = .ok .brReadReq := by decide
theorem test_decode_brClose : decode 0b00000000000000000000000000000111#32 = .ok .brClose := by decide
theorem test_decode_hufEnc : decode 0b00000000000000000000000000010000#32 = .ok .hufEnc := by decide
theorem test_decode_hufDec : decode 0b00000000000000000000000000010001#32 = .ok .hufDec := by decide
theorem test_decode_lzEnc : decode 0b00000000000000000000000000100000#32 = .ok .lzEnc := by decide
theorem test_decode_lzDec : decode 0b00000000000000000000000000100001#32 = .ok .lzDec := by decide
theorem test_decode_rsv_of_bwWrite : decode 0x00010002#32 = .error .rsvNonzero := by decide
theorem test_decodeTableWord_bwWrite : decodeTableWord 32 0xFF02 = some (.bwWrite 255#8) := by decide

/-! ### One step of each command (95_test_vectors.md section 2) -/

theorem test_bwOpen : (nextOf (exec .bwOpen State.reset)).map (fun s => (s.status.toWord, s.wOpen, s.ports.hist)) =
    some (0x2#32, true, []) := by decide
theorem test_bwWrite_eighth_bit :
    (nextOf (exec (.bwWrite 1#8) (withWriter 0x50#8 7))).map (fun s => (s.ports.out, s.wChan)) =
      some ([0xA1#8], ⟨0#8, 0⟩) := by decide
theorem test_bwWrite_invalid :
    (nextOf (exec (.bwWrite 255#8) (withWriter 0#8 0))).map (·.status.toWord) = some 0x206#32 := by decide
theorem test_bwClose_pads :
    (nextOf (exec .bwClose (withWriter 0b101#8 3))).map (fun s => (s.ports.hist, s.wOpen)) =
      some ([.push .out 0xA0#8, .rel (.sink .out)], false) := by decide
theorem test_brOpen : (nextOf (exec .brOpen (onIn [0xA0#8]))).map (fun s => (s.rOpen, s.ports.inp.q)) =
    some (true, [0xA0#8]) := by decide
theorem test_brRead_first_bit :
    (nextOf (exec .brRead (withReader (onIn [0xA0#8])))).map (fun s => (s.result.toWord, s.ports.hist)) =
      some (0x1#32, [.pull .inp 0xA0#8]) := by decide
theorem test_brRead_failed :
    (nextOf (exec .brRead (withReader (failedIn (onIn []))))).map (fun s => (s.status.toWord, s.result.toWord)) =
      some (0x106#32, 0x0#32) := by decide
theorem test_brReadReq_end :
    (nextOf (exec .brReadReq (withReader (onIn [])))).map (fun s => (s.status.toWord, s.result.toWord, s.rOpen)) =
      some (0x306#32, 0x100#32, true) := by decide
theorem test_brClose : (nextOf (exec .brClose { withReader (onIn [0x55#8]) with rChan := ⟨0xA0#8, 7⟩ })).map
    (fun s => (s.ports.hist, s.rChan, s.ports.inp.q)) = some ([.rel (.src .inp)], ⟨0#8, 0⟩, [0x55#8]) := by decide
theorem test_hufEnc_AB : (nextOf (exec .hufEnc (onIn [0x41#8, 0x42#8]))).map
    (fun s => (s.status.toWord, s.ports.out, s.ports.tblo.length, s.ports.hist.length)) =
      some (0x2#32, [0x88#8], 516, 521) := by decide +kernel
theorem test_hufEnc_AAB : (nextOf (exec .hufEnc (onIn [0x41#8, 0x41#8, 0x42#8]))).map (·.ports.out) =
    some [0x2C#8] := by decide +kernel
theorem test_hufDec_AB : (nextOf (exec .hufDec (onTable (tableText abTable) [0x88#8, 0x12#8, 0x34#8]))).map
    (fun s => (s.status.toWord, s.ports.out, s.ports.inp.q)) =
      some (0x2#32, [0x41#8, 0x42#8], [0x12#8, 0x34#8]) := by decide +kernel
/-- The byte that shows the error is consumed and nothing after it (42_huffman_decoder.md R171). -/
theorem test_hufDec_bad_table_byte : (nextOf (exec .hufDec (onTable [0x2D#8, 0x0A#8, 0x31#8, 0x2D#8, 0x0A#8] []))).map
    (fun s => (s.status.toWord, s.ports.tbli.q, s.ports.hist)) =
      some (0x606#32, [0x0A#8], [0x2D#8, 0x0A#8, 0x31#8, 0x2D#8].map (Event.pull .tbli)) := by decide +kernel
theorem test_hufDec_truncated : (nextOf (exec .hufDec (onTable (tableText abTable) [0x80#8]))).map
    (fun s => (s.status.toWord, s.ports.out)) =
      some (0x406#32, [0x41#8, 0x42#8, 0x42#8, 0x42#8]) := by decide +kernel
theorem test_lzEnc_ABABAB :
    (nextOf (exec .lzEnc (onIn [0x41#8, 0x42#8, 0x41#8, 0x42#8, 0x41#8, 0x42#8]))).map (·.ports.out) =
      some [0x30#8, 0x41#8, 0x30#8, 0x42#8, 0x31#8, 0x42#8, 0x33#8] := by decide +kernel
theorem test_lzEnc_capacity :
    (nextOf (exec .lzEnc { onIn [0x41#8, 0x42#8, 0x43#8, 0x44#8] with config := ⟨some 3⟩ })).map
      (fun s => (s.status.toWord, s.ports.inp.q, s.ports.out)) = some (0x906#32, [], []) := by decide +kernel
theorem test_lzDec_longest_existing_index :
    (nextOf (exec .lzDec (onIn [0x30#8, 0x41#8, 0x31#8, 0x30#8]))).map (·.ports.out) =
      some [0x41#8, 0x41#8, 0x30#8] := by decide +kernel
theorem test_lzDec_missing_index :
    (nextOf (exec .lzDec (onIn [0x30#8, 0x41#8, 0x32#8]))).map (fun s => (s.status.toWord, s.ports.out)) =
      some (0x806#32, [0x41#8]) := by decide +kernel
theorem test_step_runs_the_fetched_word :
    nextOf (step (State.reset.withFetchWord 32 0x10)) = nextOf (exec .hufEnc State.reset) := by rfl
theorem test_step_reads_status :
    (nextOf (step { doing (.read 4 4) with status := errStatus 8#4 })).map (·.readData) =
      some (some 0x806#32) := by decide

/-! ### Witnesses: encoding and the step -/

theorem witness_IllegalWordChangesOnlyStatus :
    (fieldsOf 0x00000110#32).wellFormed = false ∧ (fieldsOf 0x00010002#32).wellFormed = false ∧
      (fieldsOf 0x00000022#32).wellFormed = false := by decide
theorem witness_StepRunsDecodedCommandOrIdles :
    (doing (.write 0 4 0x00000702#32)).pending = .write 0 4 0x00000702#32 :: [] ∧
      (doing (.write 0 4 0x00000702#32)).status.busy = false ∧ decode 0x00000702#32 = .ok (.bwWrite 7#8) ∧
      (doing (.write 0 4 0x00000110#32)).pending = .write 0 4 0x00000110#32 :: [] ∧
      (doing (.write 0 4 0x00000110#32)).status.busy = false ∧ decode 0x00000110#32 = .error .opaNonzero ∧
      State.reset.pending = [] := by decide
theorem witness_ErrorCodesByCommand :
    (∃ s', exec (.bwWrite 0#8) State.reset = .next s' ∧ s'.status.err = true) ∧
      11#4 ∈ reportableCodes (.bwWrite 0#8) ∧ decode 0x00000000#32 = .error .opcUnassigned :=
  ⟨⟨_, rfl, rfl⟩, by decide, by decide⟩

/-! ### Witnesses: BitChannel -/

theorem witness_BwOpenEffect : (withWriter 0#8 0).wOpen = true ∧ State.reset.wOpen = false := by decide
theorem witness_BwWriteEffect :
    State.reset.wOpen = false ∧ ((withWriter 0#8 0).wOpen = true ∧ 2 ≤ (2#8 : Byte).toNat) ∧
      ((withWriter 0x2A#8 6).wChan.nb.val + 1 < 8 ∧ (withWriter 0x2A#8 6).wOpen = true ∧ (1#8 : Byte).toNat ≤ 1) ∧
      ((withWriter 0x50#8 7).wOpen = true ∧ (1#8 : Byte).toNat ≤ 1 ∧ (withWriter 0x50#8 7).wChan.nb.val = 7) := by
  decide
theorem witness_BwCloseEffect :
    State.reset.wOpen = false ∧ ((withWriter 0#8 0).wOpen = true ∧ (withWriter 0#8 0).wChan.nb.val = 0) ∧
      ((withWriter 1#8 1).wOpen = true ∧ 0 < (withWriter 1#8 1).wChan.nb.val) := by decide
theorem witness_BrOpenEffect : (withReader State.reset).rOpen = true ∧ State.reset.rOpen = false := by decide
/-- One witness per clause, for the two statements with the same hypotheses. -/
theorem witness_BrReadEffect_BrReadReqEffect :
    State.reset.rOpen = false ∧
      ({ withReader State.reset with rChan := ⟨0x80#8, 8⟩ }.rOpen = true ∧
        { withReader State.reset with rChan := ⟨0x80#8, 8⟩ }.rChan.nb = ⟨7 + 1, by decide⟩) ∧
      ({ withReader State.reset with rChan := ⟨0x80#8, 1⟩ }.rOpen = true ∧
        { withReader State.reset with rChan := ⟨0x80#8, 1⟩ }.rChan.nb = ⟨0 + 1, by decide⟩) ∧
      ((withReader (failedIn State.reset)).rOpen = true ∧ (withReader (failedIn State.reset)).rChan.nb = 0 ∧
        (withReader (failedIn State.reset)).ports.inp.fail = true) ∧
      ((withReader State.reset).rOpen = true ∧ (withReader State.reset).rChan.nb = 0 ∧
        (withReader State.reset).ports.inp = ⟨[], false⟩) ∧
      ((withReader (onIn [0xA0#8])).rOpen = true ∧ (withReader (onIn [0xA0#8])).rChan.nb = 0 ∧
        (withReader (onIn [0xA0#8])).ports.inp = ⟨0xA0#8 :: [], false⟩) := by decide
theorem witness_BrCloseEffect : State.reset.rOpen = false ∧ (withReader State.reset).rOpen = true := by decide
theorem witness_WriterSessionEmitsPackedBits :
    State.reset.wOpen = false ∧ packBits [true, false, true, true, false, false, true, true, true] = [0xB3#8, 0x80#8] := by
  decide
theorem witness_ReaderSessionReturnsPackedBits :
    (onIn [0xA0#8, 0x55#8]).rOpen = false ∧
      (onIn [0xA0#8, 0x55#8]).ports.inp = ⟨packBits [true, false, true] ++ [0x55#8], false⟩ := by decide
theorem witness_OpenReaderReadsOnAfterEnd :
    ((withReader State.reset).rOpen = true ∧ (withReader State.reset).rChan.nb = 0 ∧
      (withReader State.reset).ports.inp = ⟨[], false⟩) ∧
      (withReader (doing .reset)).rOpen = true ∧
      (∃ s', step (withReader (doing .reset)) = .next s' ∧ s'.rOpen = false) ∧
      (∃ s', step (withReader (doing (.write 0 4 (encode .brClose)))) = .next s' ∧ s'.rOpen = false) ∧
      (∃ s', step (withReader (doing (.resetDuring 0x00000005#32 1))) = .next s' ∧ s'.rOpen = false) ∧
      ∃ s1, exec .brClose (withReader State.reset) = .next s1 :=
  ⟨by decide, rfl, ⟨_, rfl, rfl⟩, ⟨_, rfl, rfl⟩, ⟨_, rfl, rfl⟩, _, rfl⟩

/-! ### Witnesses: HUF_ENC -/

theorem witness_EncoderTreeDegenerateOnlyForEmptyInput :
    ([0x41#8, 0x41#8] : List Byte) ≠ [] ∧ ∀ b ∈ ([0x41#8, 0x41#8] : List Byte), ∀ c ∈ ([0x41#8, 0x41#8] : List Byte), b = c := by
  decide
/-- An input with a table, for the statements about every table HUF_ENC makes: two present slots, a nonempty and an
empty input. -/
theorem witness_EncoderTable :
    (encoderTable [0x41#8]).toOption.bind (fun t => t.slot 0x41) = some [false] ∧
      (encoderTable [0x41#8]).toOption.bind (fun t => t.slot eos) = some [true] ∧
      (∃ t, encoderTable [0x41#8] = .ok t) ∧ (∃ t, encoderTable [] = .ok t) :=
  ⟨by decide +kernel, by decide +kernel, ⟨_, rfl⟩, ⟨_, rfl⟩⟩
theorem witness_HufEncCompletes :
    (onIn [0x41#8]).channelsClosed ∧ (onIn [0x41#8]).ports.inp.fail = false ∧
      fitsInput (some 1) ([0x41#8] : List Byte).length ∧ fitsInput (onIn [0x41#8]).config.inMax 1 := by
  refine ⟨by decide, rfl, fun m h => ?_, fun m h => ?_⟩ <;> simp_all [onIn, State.reset]
theorem witness_HufEncErrors_LzReadErrors :
    ¬ (withReader State.reset).channelsClosed ∧
      ((failedIn State.reset).channelsClosed ∧ (failedIn State.reset).ports.inp.fail = true) ∧
      ({ onIn [1#8] with config := ⟨some 0⟩ }.channelsClosed ∧
        { onIn [1#8] with config := ⟨some 0⟩ }.ports.inp.fail = false ∧
        { onIn [1#8] with config := ⟨some 0⟩ }.config.inMax = some 0 ∧
        0 < { onIn [1#8] with config := ⟨some 0⟩ }.ports.inp.q.length) := by decide
theorem witness_HufEncEmptyInput : (onIn []).channelsClosed ∧ (onIn []).ports.inp = ⟨[], false⟩ := by decide

/-! ### Witnesses: HUF_DEC -/

theorem abTable_valid : abTable.valid := by decide +kernel
theorem strangers_valid : strangers.valid := by decide +kernel
theorem oneSlot_valid : oneSlot.valid := by decide +kernel
theorem byteSlot_valid : byteSlot.valid := by decide +kernel

/-- An empty TBLI holds no table. -/
theorem no_table_in_nothing (rest : List Byte) (t : CodeTable) (h : t.valid) : [] ≠ tableText t ++ rest := by
  intro he
  obtain ⟨o, t', rfl⟩ : ∃ o t', t = o :: t' := by
    cases t with
    | nil => exact absurd h.1 (by decide)
    | cons o t' => exact ⟨o, t', rfl⟩
  cases o <;> simp [tableText, recordText] at he

theorem witness_DeserializerAcceptsExactlyTableTexts :
    (onTable (tableText abTable ++ [1#8]) []).ports.tbli.fail = false ∧ abTable.valid ∧
      (onTable (tableText abTable ++ [1#8]) []).ports.tbli.q = tableText abTable ++ [1#8] ∧
      State.reset.ports.tbli.fail = false ∧
      ¬ ∃ t rest, CodeTable.valid t ∧ State.reset.ports.tbli.q = tableText t ++ rest :=
  ⟨rfl, abTable_valid, rfl, rfl, fun ⟨t, rest, h, he⟩ => no_table_in_nothing rest t h he⟩
theorem witness_LeavesOrderedByLengthValueSlot : abTable.length = 257 ∧ abTable.slot 0x42 = some [false, false] := by
  decide +kernel
theorem witness_RebuildInvertsAssignCodes :
    abRoot.proper ∧ (∃ t, assignCodes abRoot = .ok t) ∧ (∃ t, encoderTable [0x41#8, 0x42#8] = .ok t) ∧
      (⟨.leaf eos, .empty⟩ : Root).proper ∧ (∃ t, assignCodes ⟨.leaf eos, .empty⟩ = .ok t) :=
  ⟨.inl (by decide), ⟨_, rfl⟩, ⟨_, rfl⟩, .inr ⟨eos, rfl⟩, ⟨_, rfl⟩⟩
theorem abTable_rebuilds : rebuildTree abTable = .ok abRebuilt := by decide +kernel
theorem abCode_reaches (k : Symbol) (h : k = eos ∨ ∃ b ∈ ([0x41#8, 0x42#8] : List Byte), k = Symbol.ofByte b) :
    abRebuilt.follow (abCode k) = some (.leaf k) := by
  rcases h with rfl | ⟨b, hb, rfl⟩
  · decide +kernel
  · simp only [List.mem_cons, List.not_mem_nil, or_false] at hb
    rcases hb with rfl | rfl <;> decide +kernel
/-- The payload of "AB" with a padding bit set, its code bits in the first seven places. -/
theorem witness_HufDecDecodesCodes :
    (onTable (tableText abTable ++ [7#8]) ([0x89#8] ++ [9#8])).channelsClosed ∧
      abTable.valid ∧ rebuildTree abTable = .ok abRebuilt ∧
      (∀ k, (k = eos ∨ ∃ b ∈ ([0x41#8, 0x42#8] : List Byte), k = Symbol.ofByte b) →
        abRebuilt.follow (abCode k) = some (.leaf k)) ∧
      [0x41#8, 0x42#8].flatMap (fun b => abCode (Symbol.ofByte b)) ++ abCode eos <+: [0x89#8].flatMap byteBits ∧
      [0x89#8].length = (([0x41#8, 0x42#8].flatMap (fun b => abCode (Symbol.ofByte b)) ++ abCode eos).length + 7) / 8 :=
  ⟨⟨rfl, rfl⟩, abTable_valid, abTable_rebuilds, abCode_reaches, by decide +kernel, by decide +kernel⟩
/-- The Leaves of `strangers` merge to no Root: the two longest paths have no common prefix but for the last bit. -/
theorem strangers_merge_to_none : ¬ ∃ r, Rebuilds (orderByCode (leavesFrom 0 strangers)) r := by
  rintro ⟨r, h⟩
  have hl : orderByCode (leavesFrom 0 strangers) =
      [⟨.leaf 256, [false]⟩] ++ [⟨.leaf 0x41, [false, true, false]⟩, ⟨.leaf 0x42, [true, false, false]⟩] := by
    decide +kernel
  generalize orderByCode (leavesFrom 0 strangers) = ns at h hl
  cases h with
  | one x => simp at hl
  | two x y => simp at hl
  | merge l r p b c pre post root _ _ _ _ =>
    have hlast := (List.append_inj' hl rfl).2
    simp only [List.cons.injEq, Pathed.mk.injEq] at hlast
    have h1 := congrArg List.dropLast hlast.1.2
    have h2 := congrArg List.dropLast hlast.2.1.2
    simp at h1 h2
    simp [h1] at h2
theorem witness_HufDecTableErrors :
    ¬ (withWriter 0#8 0).channelsClosed ∧
      ({ State.reset with ports := { State.reset.ports with tbli := ⟨[], true⟩ } }.channelsClosed ∧
        { State.reset with ports := { State.reset.ports with tbli := ⟨[], true⟩ } }.ports.tbli.fail = true) ∧
      (State.reset.channelsClosed ∧ State.reset.ports.tbli.fail = false ∧
        ¬ ∃ t rest, CodeTable.valid t ∧ State.reset.ports.tbli.q = tableText t ++ rest) ∧
      ((onTable (tableText strangers ++ []) []).channelsClosed ∧ strangers.valid ∧
        ¬ ∃ r, Rebuilds (orderByCode (leavesFrom 0 strangers)) r) :=
  ⟨by decide, by decide, ⟨by decide, rfl, fun ⟨t, rest, h, he⟩ => no_table_in_nothing rest t h he⟩, by decide,
    strangers_valid, strangers_merge_to_none⟩
theorem witness_RebuildOfIncompleteCode : strangers.length = 257 ∧
    (¬ ∃ r, Rebuilds (orderByCode (leavesFrom 0 strangers)) r) ∧
    CodeTable.empty.length = 257 ∧ ∀ k, CodeTable.empty.slot k = none :=
  ⟨strangers_valid.1, strangers_merge_to_none, by decide +kernel, by decide +kernel⟩
/-- The bits after Symbol 256's code are not examined (42_huffman_decoder.md R178). -/
theorem test_hufDec_padding_not_examined : (nextOf (exec .hufDec (onTable (tableText abTable) [0x89#8, 9#8]))).map
    (fun s => (s.status.toWord, s.ports.out, s.ports.inp.q)) = some (0x2#32, [0x41#8, 0x42#8], [9#8]) := by
  decide +kernel
theorem witness_HufDecPayloadErrors :
    ((failedIn (onTable (tableText abTable ++ []) [])).channelsClosed ∧ abTable.valid ∧
      rebuildTree abTable = .ok abRebuilt ∧
      (failedIn (onTable (tableText abTable ++ []) [])).ports.inp.fail = true) ∧
      ((∀ b ∈ ([0x41#8, 0x42#8, 0x42#8, 0x42#8] : List Byte),
        abRebuilt.follow (abCode (Symbol.ofByte b)) = some (.leaf (Symbol.ofByte b))) ∧
        abRebuilt.follow [false] = some (.branch (.leaf 0x42) (.leaf 256) 0 [false]) ∧
        ([0x80#8] : List Byte).flatMap byteBits =
          ([0x41#8, 0x42#8, 0x42#8, 0x42#8] : List Byte).flatMap (fun b => abCode (Symbol.ofByte b)) ++ [false]) ∧
      ([] : List Byte).flatMap byteBits = ([] : List Byte).flatMap (fun b => abCode (Symbol.ofByte b)) ++ [] :=
  ⟨⟨⟨rfl, rfl⟩, abTable_valid, abTable_rebuilds, rfl⟩, by decide +kernel, rfl⟩
theorem witness_OneSlotTableDecoding :
    (onTable (tableText oneSlot ++ []) [0x80#8]).channelsClosed ∧ oneSlot.valid ∧
      (∀ k, (oneSlot.slot k).isSome = true ↔ k = eos) ∧ (0x80#8 : Byte).getLsbD 7 = true ∧
      (0x7F#8 : Byte).getLsbD 7 = false ∧
      (onTable (tableText byteSlot ++ []) ([0x1F#8] ++ [7#8])).channelsClosed ∧ byteSlot.valid ∧
      (∀ k, (byteSlot.slot k).isSome = true ↔ k = Symbol.ofByte 0x41#8) ∧
      ([0x1F#8] : List Byte).length = 3 / 8 + 1 ∧
      List.replicate 3 false ++ [true] <+: ([0x1F#8] : List Byte).flatMap byteBits ∧
      ([0x00#8, 0xFF#8] : List Byte).length = 8 / 8 + 1 ∧
      List.replicate 8 false ++ [true] <+: ([0x00#8, 0xFF#8] : List Byte).flatMap byteBits :=
  ⟨⟨rfl, rfl⟩, oneSlot_valid, by decide +kernel, by decide, by decide, ⟨rfl, rfl⟩, byteSlot_valid, by decide +kernel,
    by decide⟩
/-- A table whose one slot is a byte's never reaches Symbol 256: the bits before the first 1 put that byte on OUT, the
1 is CorruptTree (42_huffman_decoder.md R174, R177, R180). -/
theorem test_hufDec_byteSlot_corruptTree :
    (nextOf (exec .hufDec (onTable (tableText byteSlot) [0x1F#8, 7#8]))).map
      (fun s => (s.status.toWord, s.ports.out, s.ports.inp.q, s.ports.hist.getLast?)) =
      some (0x706#32, [0x41#8, 0x41#8, 0x41#8], [7#8], some (.rel (.src .inp))) := by decide +kernel
theorem witness_HuffmanRoundTrip :
    (onIn [0x41#8, 0x42#8]).channelsClosed ∧ (onIn [0x41#8, 0x42#8]).ports.inp.fail = false ∧
      fitsInput (onIn [0x41#8, 0x42#8]).config.inMax 2 ∧
      (nextOf (exec .hufEnc (onIn [0x41#8, 0x42#8]))).map (fun s => (s.ports.tblo == tableText abTable, s.ports.out)) =
        some (true, [0x88#8]) ∧
      (onTable (tableText abTable) [0x88#8]).channelsClosed :=
  ⟨by decide, rfl, fun m h => by simp [onIn, State.reset] at h, by decide +kernel, ⟨rfl, rfl⟩⟩

/-! ### Witnesses: LZ78 -/

theorem witness_ParseIndexTakesLongestExistingIndex :
    parseIndex [0x31#8, 0x30#8] 10 = some (2, 10) ∧ parseIndex [0x31#8, 0x30#8] 9 = some (1, 1) ∧
      parseIndex [0x35#8, 0x58#8] 3 = none := by decide
/-- The stream `0A101B`, whose second token has a digit literal, then the final index 3. -/
def digitTokens : List Token := [⟨0, some 0x41#8⟩, ⟨1, some 0x30#8⟩, ⟨1, some 0x42#8⟩]
theorem witness_LzDecExpandsTokens :
    (onIn (digitTokens.flatMap tokenText ++ dec 3)).channelsClosed ∧
      tokensReadable 0 digitTokens (((some 3).map dec).getD []) ∧ tokensReadable 0 digitTokens [] ∧
      (∀ i ∈ some 3, i ≤ digitTokens.length) ∧
      digitTokens.flatMap tokenText ++ dec 3 = [0x30#8, 0x41#8, 0x31#8, 0x30#8, 0x31#8, 0x42#8, 0x33#8] ∧
      fitsInput none 7 := by
  refine ⟨⟨rfl, rfl⟩, ?_, ?_, by simp [digitTokens], by decide, fun m h => by simp at h⟩ <;>
    simp only [digitTokens, tokensReadable] <;> decide +kernel
/-- The misparse of R209: the text of its last token is read as the final index 10, so index 1 with literal `0` is no
token there (43_lz78.md R206, R209). -/
theorem test_tokensReadable_refuses_misparse :
    ¬ tokensReadable 9 [⟨0, some 0x6A#8⟩, ⟨1, some 0x30#8⟩] [] ∧ tokensReadable 9 [⟨0, some 0x6A#8⟩] (dec 10) := by
  simp only [tokensReadable]; decide +kernel
theorem witness_LzDecCorruptStream :
    (onIn (digitTokens.flatMap tokenText ++ [0x35#8, 0x58#8])).channelsClosed ∧
      tokensReadable 0 digitTokens [0x35#8, 0x58#8] ∧ noIndexAt 3 [0x35#8, 0x58#8] ∧
      tokensReadable 0 [⟨0, some 0x41#8⟩] [0x41#8] ∧ noIndexAt 1 [0x41#8] ∧
      tokensReadable 0 [⟨0, some 0x41#8⟩] [0x32#8] ∧ noIndexAt 1 [0x32#8] ∧ fitsInput none 8 := by
  refine ⟨⟨rfl, rfl⟩, ?_, .inr (by decide), ?_, .inl (by decide), ?_, .inr (by decide), fun m h => by simp at h⟩ <;>
    simp only [digitTokens, tokensReadable] <;> decide +kernel
theorem witness_LzRoundTripWithoutDigitLiterals :
    (onIn [0x41#8]).channelsClosed ∧ (onIn [0x41#8]).ports.inp.fail = false ∧
      fitsInput (onIn [0x41#8]).config.inMax 1 ∧ (∀ b ∈ (onIn [0x41#8]).ports.inp.q, isDigit b = false) ∧
      (∀ tok ∈ encodeTokens [] [] [0x31#8], 1 ≤ tok.index → ∀ c ∈ tok.literal, isDigit c = false) ∧
      ∃ s', exec .lzEnc (onIn [0x41#8]) = .next s' ∧ s'.ports.out.drop 0 = [0x30#8, 0x41#8] :=
  ⟨by decide, rfl, fun m h => by simp [onIn, State.reset] at h, by decide, by decide, _, rfl, by decide⟩
theorem witness_LzDigitAmbiguityIsKept :
    (onIn (lzText [0x61#8, 0x62#8, 0x63#8, 0x64#8, 0x65#8, 0x66#8, 0x67#8, 0x68#8, 0x69#8, 0x6A#8, 0x61#8,
        0x30#8])).channelsClosed ∧ fitsInput (some 22) 22 ∧
      (lzText [0x61#8, 0x62#8, 0x63#8, 0x64#8, 0x65#8, 0x66#8, 0x67#8, 0x68#8, 0x69#8, 0x6A#8, 0x61#8,
        0x30#8]).length = 22 :=
  ⟨⟨rfl, rfl⟩, fun m h => by simp at h; omega, by decide +kernel⟩

/-- R209's bound on the input does not bound the token stream: with IN_MAX = 1 the stream of a one-byte input is too
long for LZ_DEC (log entry 12). -/
theorem test_lz_stream_can_exceed_inMax :
    (nextOf (exec .lzDec { onIn (lzText [0x41#8]) with config := ⟨some 1⟩ })).map (·.status.toWord) =
      some 0x906#32 := by decide +kernel

/-! ### Witnesses: the whole machine -/

/-- A command with a next state, for the statements about every command, and a port not listed for it. -/
theorem witness_every_command :
    (∃ s', exec .brClose (withReader State.reset) = .next s' ∧ newEvents (withReader State.reset) s' = [.rel (.src .inp)]) ∧
      Port.src .inp ∉ portsUsed .brClose ∧ isCodec .lzEnc = true ∧ State.reset.channelsClosed ∧
      ¬ (withReader State.reset).channelsClosed := ⟨⟨_, rfl, rfl⟩, by decide⟩
theorem witness_StepKeepsInv :
    (doing (writeCmd 0x00000004#32)).Inv ∧ ∃ s', step (doing (writeCmd 0x00000004#32)) = .next s' ∧ s'.rOpen = true :=
  ⟨by decide, _, rfl, rfl⟩
theorem witness_ResetPutsEveryRegisterToItsResetValue :
    { doing .reset with wOpen := true }.pending = .reset :: [] := rfl
theorem witness_ResetDuringCommandKeepsAPrefixOfEvents :
    (doing (.resetDuring 0x00000010#32 1)).pending = .resetDuring 0x00000010#32 1 :: [] ∧
      (doing (.resetDuring 0x00000010#32 1)).status.busy = false := by decide
/-- A reset that comes as late as it can still comes before the command's release (70_reset_and_hazards.md R261). -/
theorem test_resetDuring_keeps_no_release :
    (nextOf (step { withWriter 0b101#8 3 with pending := [.resetDuring 0x00000003#32 9] })).map
      (fun s => (s.ports.hist, s.wOpen)) = some ([.push .out 0xA0#8], false) := by decide
theorem witness_HostPortActions :
    State.reset.status.busy = false ∧ (doing (.load .inp [1#8])).pending = .load .inp [1#8] :: [] ∧
      (doing (.load .tbli [1#8])).pending = .load .tbli [1#8] :: [] ∧
      (doing (.setFail .inp true)).pending = .setFail .inp true :: [] ∧
      (doing (.setFail .tbli false)).pending = .setFail .tbli false :: [] ∧
      (doing (.drain .out)).pending = .drain .out :: [] ∧ (doing (.drain .tblo)).pending = .drain .tblo :: [] ∧
      (doing .copyTable).pending = .copyTable :: [] := by decide
theorem witness_RefusedHostActions :
    busyState.status.busy = true ∧ ¬ (4 = 4 ∧ 16 ∈ [0, 4, 8, 12]) ∧ ¬ (2 = 4 ∧ 0 ∈ [0, 4, 8, 12]) ∧
      ¬ (4 = 4 ∧ 3 ∈ [0, 4, 8, 12]) ∧ (doing (.write 16 4 0#32)).pending = .write 16 4 0#32 :: [] ∧
      (doing (.read 0 2)).pending = .read 0 2 :: [] ∧
      { busyState with pending := [.write 0 4 5#32] }.status.busy = true ∧
      { busyState with pending := [.resetDuring 5#32 0] }.status.busy = true ∧
      { busyState with pending := [.drain .out] }.status.busy = true ∧
      (doing (.editSource .inp [])).pending = .editSource .inp [] :: [] := by decide
theorem witness_RegisterWindowAccess :
    (doing (.read 0 4)).pending = .read 0 4 :: [] ∧ (doing (.read 4 4)).pending = .read 4 4 :: [] ∧
      (doing (.read 8 4)).pending = .read 8 4 :: [] ∧ (doing (.read 12 4)).pending = .read 12 4 :: [] ∧
      (doing (.write 4 4 1#32)).pending = .write 4 4 1#32 :: [] ∧ 4 ∈ [4, 8, 12] ∧ 12 ∈ [4, 8, 12] := by decide

end Sys2Proof.Tests
end

section
/-! PROOF. Every command ends in a next state: what a body must satisfy for that (`NoOverrun` over the ports,
`Concludes` over the state), closed under the ways bodies are put together, and the loops whose bounds suffice
(00_scope.md R8, log entry 9). -/

namespace Sys2Proof.Machine

/-! ### Pure computations that keep within their bound -/

/-- The computation is not stopped by a bound of the model. -/
abbrev Within {α : Type} (x : Except Stop α) : Prop := x ≠ .error .overrun

theorem within_bind {α β : Type} {x : Except Stop α} {f : α → Except Stop β} (hx : Within x)
    (hf : ∀ a, x = .ok a → Within (f a)) : Within (x >>= f) := by
  cases x with
  | ok a => exact hf a rfl
  | error e => exact fun h => hx (congrArg Except.error (Except.error.inj h))

theorem exists_eq_append_pair {α : Type} {l : List α} (h : 2 ≤ l.length) : ∃ pre a b, l = pre ++ [a, b] := by
  rw [← List.length_reverse] at h
  match hr : l.reverse, h with
  | b :: a :: rest, _ => exact ⟨rest.reverse, a, b, by simpa using congrArg List.reverse hr⟩

theorem mergeOnce_append (pre : List Weighted) (a b : Weighted) :
    mergeOnce (pre ++ [a, b]) = orderByWeight (pre ++ [mergeWeighted a b]) := by
  simp [mergeOnce]

/-- A merge of two or more entries leaves one entry fewer (41_huffman_encoder.md R143). -/
theorem mergeOnce_length {ns : List Weighted} (h : 2 ≤ ns.length) : (mergeOnce ns).length + 1 = ns.length := by
  obtain ⟨pre, a, b, rfl⟩ := exists_eq_append_pair h
  simp [mergeOnce_append, orderByWeight]

theorem buildLoop_within {n : Nat} {ns : List Weighted} (h : ns.length ≤ n + 2) : Within (buildLoop n ns) := by
  induction n generalizing ns with
  | zero =>
    match ns, h with
    | [], _ | [_], _ | [_, _], _ => simp [buildLoop]
  | succ n ih =>
    match ns, h with
    | [], _ | [_], _ | [_, _], _ => simp [buildLoop]
    | x :: y :: z :: rest, h =>
      have hlen : (mergeOnce (x :: y :: z :: rest)).length + 1 = _ := mergeOnce_length (by simp)
      exact ih (ns := mergeOnce (x :: y :: z :: rest)) (by omega)

theorem treeBuild_within (fl : List Freq) : Within (treeBuild fl) :=
  buildLoop_within (by simp)

theorem walk_within (n : Node) (p : BitSeq) (t : CodeTable) : Within (walk n p t) := by
  induction n generalizing p t with
  | leaf k =>
    unfold walk
    split <;> simp
  | branch l r _ _ ihl ihr => exact within_bind (ihl _ _) fun _ _ => ihr _ _
  | empty => simp [walk]

theorem encoderTable_within (s : List Byte) : Within (encoderTable s) :=
  within_bind (treeBuild_within _) fun _ _ => within_bind (walk_within _ _ _) fun _ _ => walk_within _ _ _

theorem mergePathed_within (a b : Pathed) : Within (mergePathed a b) := by
  unfold mergePathed
  split_ifs <;> simp

@[simp] theorem orderByCode_length (ns : List Pathed) : (orderByCode ns).length = ns.length := by
  simp [orderByCode]

theorem rebuildOnce_append (pre : List Pathed) (a b : Pathed) :
    rebuildOnce (pre ++ [a, b]) = (mergePathed a b >>= fun m => pure (orderByCode (pre ++ [m]))) := by
  simp [rebuildOnce]

theorem rebuildOnce_within {ns : List Pathed} (h : 2 ≤ ns.length) : Within (rebuildOnce ns) := by
  obtain ⟨pre, a, b, rfl⟩ := exists_eq_append_pair h
  rw [rebuildOnce_append]
  exact within_bind (mergePathed_within a b) fun _ _ => nofun

/-- A merge of two or more nodes leaves one node fewer (42_huffman_decoder.md R173). -/
theorem rebuildOnce_length {ns ns' : List Pathed} (h : 2 ≤ ns.length) (hm : rebuildOnce ns = .ok ns') :
    ns'.length + 1 = ns.length := by
  obtain ⟨pre, a, b, rfl⟩ := exists_eq_append_pair h
  rw [rebuildOnce_append] at hm
  cases hab : mergePathed a b with
  | error e => rw [hab] at hm; cases hm
  | ok m =>
    rw [hab] at hm
    cases hm
    simp

theorem rebuildLoop_within {n : Nat} {ns : List Pathed} (h : ns.length ≤ n + 2) : Within (rebuildLoop n ns) := by
  induction n generalizing ns with
  | zero =>
    match ns, h with
    | [], _ | [_], _ | [_, _], _ => simp [rebuildLoop]
  | succ n ih =>
    match ns, h with
    | [], _ | [_], _ | [_, _], _ => simp [rebuildLoop]
    | x :: y :: z :: rest, h =>
      refine within_bind (rebuildOnce_within (by simp)) fun ns' hm => ih ?_
      have hlen := rebuildOnce_length (by simp) hm
      omega

theorem leavesFrom_length_le (k : Nat) (t : CodeTable) : (leavesFrom k t).length ≤ t.length := by
  induction t generalizing k with
  | nil => simp [leavesFrom]
  | cons o t ih =>
    have := ih (k + 1)
    cases o <;> simp [leavesFrom] <;> omega

theorem rebuildTree_within (t : CodeTable) : Within (rebuildTree t) := by
  have := leavesFrom_length_le 0 t
  exact rebuildLoop_within (by simp; omega)

theorem longestIndexText_pos {size : Nat} {run : List Byte} {k j : Nat} (h : longestIndexText size run k = some j) :
    0 < j := by
  induction k with
  | zero => cases h
  | succ k ih =>
    unfold longestIndexText at h
    split at h
    · cases h; omega
    · exact ih h

/-- An index text has at least one byte (43_lz78.md R206). -/
theorem parseIndex_pos {t : List Byte} {size j i : Nat} (h : parseIndex t size = some (j, i)) : 0 < j := by
  obtain ⟨j', hj, he⟩ := Option.map_eq_some_iff.mp h
  cases he
  exact longestIndexText_pos hj

theorem decodeTokens_within {n : Nat} {d : Dict} {t : List Byte} (h : t.length ≤ n) :
    Within (decodeTokens n d t).2 := by
  induction n generalizing d t with
  | zero =>
    obtain rfl : t = [] := List.length_eq_zero_iff.mp (by omega)
    simp [decodeTokens]
  | succ n ih =>
    match t, h with
    | [], _ => simp [decodeTokens]
    | x :: xs, h =>
      unfold decodeTokens
      split
      · simp
      · next j i hp =>
        split
        · simp
        · next c rest hd =>
          have hpos := parseIndex_pos hp
          have hlen := congrArg List.length hd
          exact ih (by simp at hlen h; omega)

/-! ### Bodies over the ports that keep within their bound -/

/-- Run on `s`, the body is not stopped by a bound of the model. -/
def NoOverrun {σ α : Type} (m : EStateM Stop σ α) (s : σ) : Prop := ∀ s', m s ≠ .error .overrun s'

theorem noOverrun_of_ok {σ α : Type} {m : EStateM Stop σ α} {s s1 : σ} {a : α} (h : m s = .ok a s1) :
    NoOverrun m s := by
  intro s' h'
  cases h.symm.trans h'

theorem noOverrun_pure {σ α : Type} (a : α) (s : σ) : NoOverrun (pure a) s := noOverrun_of_ok (pure_run a s)

theorem noOverrun_raise {σ α : Type} (e : Err) (s : σ) : NoOverrun (raise e : EStateM Stop σ α) s := by
  intro s' h
  cases h

theorem noOverrun_bind {σ α β : Type} {m : EStateM Stop σ α} {f : α → EStateM Stop σ β} {s : σ}
    (hm : NoOverrun m s) (hf : ∀ a s1, m s = .ok a s1 → NoOverrun (f a) s1) : NoOverrun (m >>= f) s := by
  intro s' h
  rw [bind_run] at h
  split at h
  · next a s1 ha => exact hf a s1 ha s' h
  · next e s1 he =>
    cases h
    exact hm _ he

theorem noOverrun_liftPure {σ α : Type} {x : Except Stop α} (h : Within x) (s : σ) : NoOverrun (liftPure x) s := by
  cases x with
  | ok a => exact noOverrun_pure a s
  | error e =>
    intro s' h'
    cases h'
    exact h rfl

theorem noOverrun_pull (p : SrcPort) (ps : Ports) : NoOverrun (pull p) ps := by
  obtain ⟨_, h⟩ | ⟨_, _, h⟩ | ⟨_, _, _, _, h⟩ := pull_cases p ps <;> exact noOverrun_of_ok h

theorem noOverrun_release (p : Port) (ps : Ports) : NoOverrun (release p) ps := noOverrun_of_ok (release_run p ps)

theorem noOverrun_push (p : SinkPort) (b : Byte) (ps : Ports) : NoOverrun (push p b) ps :=
  noOverrun_of_ok (push_run p b ps)

theorem noOverrun_pushAll (p : SinkPort) (bs : List Byte) (ps : Ports) : NoOverrun (pushAll p bs) ps :=
  noOverrun_of_ok (pushAll_run p bs ps)

theorem noOverrun_writeBit (w : WriterChan) (b : Bool) (ps : Ports) : NoOverrun (writeBit w b) ps := by
  by_cases h : w.nb.val + 1 < 8
  · exact noOverrun_of_ok (writeBit_buffers b h ps)
  · exact noOverrun_of_ok (writeBit_pushes b h ps)

theorem noOverrun_writeBits (w : WriterChan) (bits : BitSeq) (ps : Ports) : NoOverrun (writeBits w bits) ps := by
  induction bits generalizing w ps with
  | nil => exact noOverrun_pure w ps
  | cons b bits ih => exact noOverrun_bind (noOverrun_writeBit w b ps) fun w' ps' _ => ih w' ps'

theorem noOverrun_closeWriter (w : WriterChan) (ps : Ports) : NoOverrun (closeWriter w) ps := by
  by_cases h : w.nb.val = 0
  · exact noOverrun_of_ok (closeWriter_empty h ps)
  · exact noOverrun_of_ok (closeWriter_pads (Nat.pos_of_ne_zero h) ps)

/-- How many bits a reader can still return: those buffered and those queued on IN (40_bitchannel.md R113). -/
def bitsLeft (r : ReaderChan) (ps : Ports) : Nat := r.nb.val + 8 * ps.inp.q.length

/-- ReadBit always answers, and a bit it returns is one fewer left (40_bitchannel.md R113). -/
theorem readBit_answers (r : ReaderChan) (ps : Ports) :
    ∃ x r' ps', readBit r ps = .ok (x, r') ps' ∧ ∀ b, x = .bit b → bitsLeft r' ps' + 1 = bitsLeft r ps := by
  by_cases h : r.nb.val = 0
  · obtain ⟨_, hp⟩ | ⟨_, _, hp⟩ | ⟨b, rest, _, hq, hp⟩ := pull_cases .inp ps
    · exact ⟨.fail, r, ps.record (.fail .inp), by simp [readBit_pulls h, hp], nofun⟩
    · exact ⟨.endOf, r, ps.record (.endOf .inp), by simp [readBit_pulls h, hp], nofun⟩
    · refine ⟨_, _, _, by simp only [readBit_pulls h, hp]; rfl, fun _ _ => ?_⟩
      have hlen : ps.inp.q.length = rest.length + 1 := congrArg List.length hq
      simp [bitsLeft, Ports.setSource, hlen, h]
      omega
  · refine ⟨_, _, _, readBit_buffered h ps, fun _ _ => ?_⟩
    simp only [bitsLeft]
    omega

theorem noOverrun_readBit (r : ReaderChan) (ps : Ports) : NoOverrun (readBit r) ps := by
  obtain ⟨_, _, _, h, _⟩ := readBit_answers r ps
  exact noOverrun_of_ok h

/-- One pull per queued byte and one that finds none are enough for ReadAll (20_memory.md R64). -/
theorem noOverrun_readAll (inMax : Option Nat) (ps : Ports) : NoOverrun (readAll inMax) ps := by
  cases hf : ps.inp.fail with
  | true => simp [NoOverrun, readAll_failed inMax hf]
  | false =>
    by_cases hfit : ∀ m, inMax = some m → ps.inp.q.length ≤ m
    · exact noOverrun_of_ok (readAll_fits hf hfit)
    · push Not at hfit
      obtain ⟨m, rfl, hm⟩ := hfit
      simp [NoOverrun, readAll_exceeds hf hm]

/-! ### The codecs' bodies -/

theorem noOverrun_hufEncBody (c : Config) (ps : Ports) : NoOverrun (hufEncBody c) ps :=
  noOverrun_bind (noOverrun_readAll _ _) fun s _ _ =>
  noOverrun_bind (noOverrun_liftPure (encoderTable_within s) _) fun _ _ _ =>
  noOverrun_bind (noOverrun_pushAll _ _ _) fun _ _ _ =>
  noOverrun_bind (noOverrun_writeBits _ _ _) fun _ _ _ =>
  noOverrun_bind (noOverrun_closeWriter _ _) fun _ _ _ => noOverrun_pure _ _

theorem noOverrun_lzEncBody (c : Config) (ps : Ports) : NoOverrun (lzEncBody c) ps :=
  noOverrun_bind (noOverrun_readAll _ _) fun _ _ _ => noOverrun_pushAll _ _ _

theorem noOverrun_lzDecBody (c : Config) (ps : Ports) : NoOverrun (lzDecBody c) ps :=
  noOverrun_bind (noOverrun_readAll _ _) fun _ _ _ =>
  noOverrun_bind (noOverrun_pushAll _ _ _) fun _ _ _ => noOverrun_liftPure (decodeTokens_within le_rfl) _

theorem noOverrun_pullT (ps : Ports) : NoOverrun pullT ps := by
  refine noOverrun_bind (noOverrun_pull _ _) fun x ps' _ => ?_
  cases x with
  | byte b => exact noOverrun_pure b ps'
  | endOf => exact noOverrun_raise _ ps'
  | fail => exact noOverrun_raise _ ps'

/-- With `p` read, the pulls left for CODE_MAX digits and the LF are enough (42_huffman_decoder.md R171). -/
theorem noOverrun_readDigits {n : Nat} {p : BitSeq} (hp : p.length ≤ codeMax) (hn : codeMax < p.length + n)
    (ps : Ports) : NoOverrun (readDigits n p) ps := by
  induction n generalizing p ps with
  | zero => omega
  | succ n ih =>
    refine noOverrun_bind (noOverrun_pullT ps) fun y ps' _ => ?_
    split_ifs with _ _ hmax
    · exact noOverrun_pure p ps'
    · exact noOverrun_raise _ ps'
    · exact ih (by simp; omega) (by simp; omega) ps'
    · exact noOverrun_raise _ ps'

theorem noOverrun_readRecord (ps : Ports) : NoOverrun readRecord ps := by
  refine noOverrun_bind (noOverrun_pullT ps) fun x ps' _ => ?_
  split_ifs
  · refine noOverrun_bind (noOverrun_pullT ps') fun y ps'' _ => ?_
    split_ifs
    · exact noOverrun_pure _ ps''
    · exact noOverrun_raise _ ps''
  · exact noOverrun_bind (noOverrun_readDigits (by simp [codeMax]) (by simp) ps') fun _ _ _ => noOverrun_pure _ _
  · exact noOverrun_raise _ ps'

theorem noOverrun_readRecords (n : Nat) (ps : Ports) : NoOverrun (readRecords n) ps := by
  induction n generalizing ps with
  | zero => exact noOverrun_pure _ ps
  | succ n ih =>
    exact noOverrun_bind (noOverrun_readRecord ps) fun _ ps' _ =>
      noOverrun_bind (ih ps') fun _ _ _ => noOverrun_pure _ _

theorem noOverrun_releaseAndRaise (e : Err) (ps : Ports) : NoOverrun (releaseAndRaise e) ps :=
  noOverrun_bind (noOverrun_release _ _) fun _ _ _ => noOverrun_raise _ _

/-- A turn for each bit left and one that finds none are enough for HUF_DEC's loops (42_huffman_decoder.md R177). -/
theorem noOverrun_decodeLoop {root at_ : Root} {k : Nat} {r : ReaderChan} {ps : Ports} (h : bitsLeft r ps < k) :
    NoOverrun (decodeLoop root k at_ r) ps := by
  induction k generalizing at_ r ps with
  | zero => omega
  | succ k ih =>
    obtain ⟨x, r', ps', hread, hleft⟩ := readBit_answers r ps
    refine noOverrun_bind (noOverrun_readBit r ps) fun a ps1 ha => ?_
    cases hread.symm.trans ha
    cases x with
    | fail => exact noOverrun_releaseAndRaise _ ps'
    | endOf => exact noOverrun_releaseAndRaise _ ps'
    | bit b =>
      have hk : bitsLeft r' ps' < k := by have := hleft b rfl; omega
      cases hc : at_.child b with
      | empty => simpa only [hc] using noOverrun_releaseAndRaise _ ps'
      | branch l rt _ _ => simpa only [hc] using ih hk
      | leaf sym =>
        simp only [hc]
        split_ifs
        · exact noOverrun_release _ ps'
        · refine noOverrun_bind (noOverrun_push _ _ ps') fun _ _ hpush => ?_
          cases hpush
          exact ih (by simpa [bitsLeft] using hk)

theorem noOverrun_hufDecBody (c : Config) (ps : Ports) : NoOverrun (hufDecBody c) ps :=
  noOverrun_bind (noOverrun_readRecords nsym ps) fun t _ _ =>
  noOverrun_bind (noOverrun_liftPure (rebuildTree_within t) _) fun _ ps' _ =>
  noOverrun_decodeLoop (ps := ps') (by simp [bitsLeft, ReaderChan.fresh])

/-! ### Bodies over the state -/

/-- The fields no command writes keep their values: the host's coming actions, the last word read, the parameters
(log entries 1, 4, 8). -/
def HostFieldsKept (s s' : State) : Prop :=
  s'.pending = s.pending ∧ s'.readData = s.readData ∧ s'.config = s.config

theorem HostFieldsKept.refl (s : State) : HostFieldsKept s s := ⟨rfl, rfl, rfl⟩

theorem HostFieldsKept.trans {s s1 s2 : State} (h : HostFieldsKept s s1) (h' : HostFieldsKept s1 s2) :
    HostFieldsKept s s2 := by
  obtain ⟨hp, hr, hc⟩ := h
  obtain ⟨hp', hr', hc'⟩ := h'
  exact ⟨hp'.trans hp, hr'.trans hr, hc'.trans hc⟩

/-- From every state the body completes or raises an error of the block, and it keeps the host's fields. -/
def Concludes {α : Type} (m : Cmd α) : Prop :=
  ∀ s, ∃ s', ((∃ a, m s = .ok a s') ∨ ∃ e, m s = .error (.err e) s') ∧ HostFieldsKept s s'

theorem concludes_pure {α : Type} (a : α) : Concludes (pure a) := fun s => ⟨s, .inl ⟨a, rfl⟩, .refl s⟩

theorem concludes_raise {α : Type} (e : Err) : Concludes (raise e : Cmd α) := fun s => ⟨s, .inr ⟨e, rfl⟩, .refl s⟩

theorem concludes_get : Concludes (get : Cmd State) := fun s => ⟨s, .inl ⟨s, rfl⟩, .refl s⟩

theorem concludes_modify {f : State → State} (hf : ∀ s, HostFieldsKept s (f s)) : Concludes (modify f : Cmd Unit) :=
  fun s => ⟨f s, .inl ⟨(), rfl⟩, hf s⟩

theorem concludes_bind {α β : Type} {m : Cmd α} {f : α → Cmd β} (hm : Concludes m) (hf : ∀ a, Concludes (f a)) :
    Concludes (m >>= f) := by
  intro s
  obtain ⟨s1, ⟨a, ha⟩ | ⟨e, he⟩, hk⟩ := hm s
  · obtain ⟨s2, hend, hk'⟩ := hf a s1
    exact ⟨s2, by simpa only [bind_run, ha] using hend, hk.trans hk'⟩
  · exact ⟨s1, .inr ⟨e, by simp only [bind_run, he]⟩, hk⟩

theorem concludes_onPorts {α : Type} {m : PortM α} (hm : ∀ ps, NoOverrun m ps) : Concludes (onPorts m) := by
  intro s
  cases h : m s.ports with
  | ok a ps => exact ⟨{ s with ports := ps }, .inl ⟨a, by simp only [onPorts_run, h]⟩, rfl, rfl, rfl⟩
  | error e ps =>
    cases e with
    | err e => exact ⟨{ s with ports := ps }, .inr ⟨e, by simp only [onPorts_run, h]⟩, rfl, rfl, rfl⟩
    | overrun => exact absurd h (hm s.ports ps)

theorem concludes_codec {body : Config → PortM Unit} (hb : ∀ c ps, NoOverrun (body c) ps) :
    Concludes (codec body) := by
  intro s
  unfold codec
  split_ifs
  · exact concludes_raise _ s
  · exact concludes_onPorts (hb s.config) s

theorem concludes_bwOpen : Concludes bwOpen := by
  intro s
  unfold bwOpen
  split_ifs
  · exact concludes_raise _ s
  · exact ⟨_, .inl ⟨(), rfl⟩, rfl, rfl, rfl⟩

theorem concludes_brOpen : Concludes brOpen := by
  intro s
  unfold brOpen
  split_ifs
  · exact concludes_raise _ s
  · exact ⟨_, .inl ⟨(), rfl⟩, rfl, rfl, rfl⟩

theorem concludes_onWriter {m : WriterChan → PortM WriterChan} (hm : ∀ w ps, NoOverrun (m w) ps) :
    Concludes (onWriter m) :=
  concludes_bind concludes_get fun s => concludes_bind (concludes_onPorts (hm s.wChan)) fun _ =>
    concludes_modify fun _ => ⟨rfl, rfl, rfl⟩

theorem concludes_bwWrite (opa : Byte) : Concludes (bwWrite opa) := by
  refine concludes_bind concludes_get fun s => ?_
  split_ifs
  · cases bitOperand opa with
    | none => exact concludes_raise _
    | some b => exact concludes_onWriter fun w => noOverrun_writeBit w b
  · exact concludes_raise _

theorem concludes_bwClose : Concludes bwClose := by
  refine concludes_bind concludes_get fun s => ?_
  split_ifs
  · exact concludes_bind (concludes_onWriter noOverrun_closeWriter) fun _ => concludes_modify fun _ => ⟨rfl, rfl, rfl⟩
  · exact concludes_pure _

theorem concludes_setResult (r : Result) : Concludes (setResult r) := concludes_modify fun _ => ⟨rfl, rfl, rfl⟩

theorem concludes_hostReadBit : Concludes hostReadBit :=
  concludes_bind concludes_get fun s => concludes_bind (concludes_onPorts (noOverrun_readBit s.rChan)) fun _ =>
    concludes_bind (concludes_modify fun _ => ⟨rfl, rfl, rfl⟩) fun _ => concludes_pure _

theorem concludes_brRead : Concludes brRead := by
  refine concludes_bind concludes_get fun s => ?_
  split_ifs
  · refine concludes_bind concludes_hostReadBit fun x => ?_
    cases x with
    | bit b => exact concludes_setResult _
    | endOf => exact concludes_setResult _
    | fail => exact concludes_raise _
  · exact concludes_setResult _

theorem concludes_requiredAtEnd : Concludes requiredAtEnd :=
  concludes_bind (concludes_setResult _) fun _ => concludes_raise _

theorem concludes_brReadReq : Concludes brReadReq := by
  refine concludes_bind concludes_get fun s => ?_
  split_ifs
  · refine concludes_bind concludes_hostReadBit fun x => ?_
    cases x with
    | bit b => exact concludes_setResult _
    | endOf => exact concludes_requiredAtEnd
    | fail => exact concludes_raise _
  · exact concludes_requiredAtEnd

theorem concludes_brClose : Concludes brClose := by
  refine concludes_bind concludes_get fun s => ?_
  split_ifs
  · exact concludes_bind (concludes_onPorts (noOverrun_release _)) fun _ => concludes_modify fun _ => ⟨rfl, rfl, rfl⟩
  · exact concludes_pure _

/-! ### Every command -/

/-- The body a command runs inside the STATUS protocol of 10_state.md R24. -/
def bodyOf : Instr → Cmd Unit
  | .bwOpen => bwOpen
  | .bwWrite opa => bwWrite opa
  | .bwClose => bwClose
  | .brOpen => brOpen
  | .brRead => brRead
  | .brReadReq => brReadReq
  | .brClose => brClose
  | .hufEnc => codec hufEncBody
  | .hufDec => codec hufDecBody
  | .lzEnc => codec lzEncBody
  | .lzDec => codec lzDecBody

theorem exec_eq_runCommand (i : Instr) (s : State) : exec i s = runCommand (bodyOf i) s := by
  cases i <;> rfl

theorem concludes_bodyOf (i : Instr) : Concludes (bodyOf i) := by
  cases i with
  | bwOpen => exact concludes_bwOpen
  | bwWrite opa => exact concludes_bwWrite opa
  | bwClose => exact concludes_bwClose
  | brOpen => exact concludes_brOpen
  | brRead => exact concludes_brRead
  | brReadReq => exact concludes_brReadReq
  | brClose => exact concludes_brClose
  | hufEnc => exact concludes_codec noOverrun_hufEncBody
  | hufDec => exact concludes_codec noOverrun_hufDecBody
  | lzEnc => exact concludes_codec noOverrun_lzEncBody
  | lzDec => exact concludes_codec noOverrun_lzDecBody

/-- The codes of 60_exceptions.md R230 are 1 to 11. -/
theorem errCode_range (e : Err) : 1 ≤ e.code.toNat ∧ e.code.toNat ≤ 11 := by
  cases e <;> decide

/-- A body that concludes, inside the STATUS protocol: *completed* or *error*, with the host's fields kept
(10_state.md R24, 60_exceptions.md R233). -/
theorem runCommand_of_concludes {body : Cmd Unit} (hb : Concludes body) (s : State) :
    ∃ s', runCommand body s = .next s' ∧ (s'.status = .completed ∨ ∃ e, s'.status = .failed e) ∧
      HostFieldsKept s s' := by
  obtain ⟨s1, hend, hk⟩ := hb s.start
  obtain ⟨s2, hok, hrun⟩ | ⟨e, s2, herr, hrun⟩ | ⟨s2, hover, -⟩ := runCommand_cases body s
  · obtain rfl : s2 = s1 := by simpa [hok] using hend
    exact ⟨_, hrun, .inl rfl, hk⟩
  · obtain rfl : s2 = s1 := by simpa [herr] using hend
    exact ⟨_, hrun, .inr ⟨e, rfl⟩, hk⟩
  · simp [hover] at hend

/-- Settles O7: every command's body concludes, because each bound is taken from the data (log entry 9). -/
theorem everyCommandCompletesOrReportsAnError : Obligations.EveryCommandCompletesOrReportsAnError := by
  intro i s
  obtain ⟨s', hrun, hstatus, hkept⟩ := runCommand_of_concludes (concludes_bodyOf i) s
  refine ⟨s', (exec_eq_runCommand i s).trans hrun, ?_, hkept⟩
  rcases hstatus with hdone | ⟨e, herr⟩
  · exact .inl hdone
  · obtain ⟨hlo, hhi⟩ := errCode_range e
    exact .inr ⟨e.code, hlo, hhi, herr⟩

end Sys2Proof.Machine
end

section
/-! PROOF. A step by what is pending: the host's next action, or nothing (00_scope.md R7, 60_exceptions.md R246). -/

namespace Sys2Proof.Machine

theorem step_idle {s : State} (h : s.pending = []) : step s = .next s := by
  simp [step, h]

theorem step_performs {s : State} {a : HostAction} {rest : List HostAction} (h : s.pending = a :: rest) :
    step s = perform a { s with pending := rest } := by
  simp [step, h]

theorem perform_writeCmd {s : State} (v : Word) (h : s.status.busy = false) :
    perform (.write 0 4 v) s = commandWrite v s := by
  simp [perform, validAccess, h]

theorem commandWrite_legal {v : Word} {i : Instr} (h : decode v = .ok i) (s : State) :
    commandWrite v s = exec i s := by
  simp [commandWrite, h]

/-- An illegal word changes STATUS alone (30_encoding.md R83). -/
theorem commandWrite_illegal {v : Word} {e : Illegal} (h : decode v = .error e) (s : State) :
    commandWrite v s = .next { s with status := errStatus 10#4 } := by
  simp only [commandWrite, h]
  rfl

/-- A step whose next action writes to CMD, with no command running, is that write (10_state.md R22, R27). -/
theorem step_writeCmd {s : State} {v : Word} {rest : List HostAction} (hp : s.pending = .write 0 4 v :: rest)
    (hb : s.status.busy = false) : step s = commandWrite v { s with pending := rest } :=
  (step_performs hp).trans (perform_writeCmd v hb)

/-- Settles O5, by what is pending and what the word decodes to. -/
theorem stepRunsDecodedCommandOrIdles : Obligations.StepRunsDecodedCommandOrIdles := by
  refine ⟨fun s v rest i hp hb hd => ?_, fun s v rest e hp hb hd => ?_, fun s hp => step_idle hp⟩
  · exact (step_writeCmd hp hb).trans (commandWrite_legal hd _)
  · exact (step_writeCmd hp hb).trans (commandWrite_illegal hd _)

end Sys2Proof.Machine
end

section
/-! PROOF. The registers of 10_state.md: every step keeps the invariant, by what a command's body leaves in RESULT and
the bit channels and by what a host action can do; reset; the words of STATUS and RESULT and the register window. -/

namespace Sys2Proof.Machine

/-! ### The invariant apart from STATUS -/

/-- `State.Inv` apart from STATUS: what a command's body keeps, while BUSY is 1. -/
structure State.ChannelInv (s : State) : Prop where
  /-- RESULT is legal (10_state.md R25). -/
  result : s.result.legal = true
  /-- `W_ACC < 2^W_NB` (10_state.md R28). -/
  fits : s.wChan.fits = true
  /-- A closed writer is empty (10_state.md R28). -/
  writer : s.wOpen = false → s.wChan = ⟨0#8, 0⟩
  /-- A closed reader is empty (10_state.md R29). -/
  reader : s.rOpen = false → s.rChan = ⟨0#8, 0⟩

theorem inv_iff (s : State) : s.Inv ↔ s.status.legal = true ∧ s.ChannelInv :=
  ⟨fun ⟨hst, hres, hfits, hw, hr⟩ => ⟨hst, hres, hfits, hw, hr⟩,
    fun ⟨hst, hres, hfits, hw, hr⟩ => ⟨hst, hres, hfits, hw, hr⟩⟩

theorem channelInv_status {s : State} (h : s.ChannelInv) (st : Status) : { s with status := st }.ChannelInv :=
  { h with }

theorem channelInv_ports {s : State} (h : s.ChannelInv) (ps : Ports) : { s with ports := ps }.ChannelInv :=
  { h with }

theorem channelInv_result {s : State} (h : s.ChannelInv) {r : Result} (hr : r.legal = true) :
    { s with result := r }.ChannelInv :=
  { h with result := hr }

/-- An open writer may hold any bits that fit (10_state.md R28). -/
theorem channelInv_writer {s : State} (h : s.ChannelInv) (ho : s.wOpen = true) {w : WriterChan}
    (hw : w.fits = true) : { s with wChan := w }.ChannelInv :=
  { h with fits := hw, writer := fun hc => absurd (ho.symm.trans hc) nofun }

/-- An open reader may hold any bits (10_state.md R29). -/
theorem channelInv_reader {s : State} (h : s.ChannelInv) (ho : s.rOpen = true) (r : ReaderChan) :
    { s with rChan := r }.ChannelInv :=
  { h with reader := fun hc => absurd (ho.symm.trans hc) nofun }

/-- An empty writer may be open or closed (10_state.md R28). -/
theorem channelInv_freshWriter {s : State} (h : s.ChannelInv) (o : Bool) :
    { s with wOpen := o, wChan := .fresh }.ChannelInv :=
  { h with fits := rfl, writer := fun _ => rfl }

/-- An empty reader may be open or closed (10_state.md R29). -/
theorem channelInv_freshReader {s : State} (h : s.ChannelInv) (o : Bool) :
    { s with rOpen := o, rChan := .fresh }.ChannelInv :=
  { h with reader := fun _ => rfl }

/-! ### The bit-level functions on a channel that fits -/

theorem bitByte_toNat_le (b : Bool) : (bitByte b).toNat ≤ 1 := by
  cases b <;> decide

/-- One more bit buffered: the accumulator stays below the next power of two (40_bitchannel.md R111). -/
theorem fits_appendBit {w : WriterChan} (hw : w.fits = true) (b : Bool) (h : w.nb.val + 1 < 8) :
    WriterChan.fits ⟨w.acc * 2#8 + bitByte b, ⟨w.nb.val + 1, h⟩⟩ = true := by
  have hacc : w.acc.toNat < 2 ^ w.nb.val := of_decide_eq_true hw
  have hbit := bitByte_toNat_le b
  have hsum : (w.acc * 2#8 + bitByte b).toNat ≤ w.acc.toNat * 2 + (bitByte b).toNat := by bv_omega
  exact decide_eq_true (by simp only [pow_succ]; omega)

theorem writeBit_keeps_fits {w : WriterChan} (hw : w.fits = true) (b : Bool) (ps : Ports) :
    ∃ w' ps', writeBit w b ps = .ok w' ps' ∧ w'.fits = true := by
  by_cases h : w.nb.val + 1 < 8
  · exact ⟨_, _, writeBit_buffers b h ps, fits_appendBit hw b h⟩
  · exact ⟨_, _, writeBit_pushes b h ps, rfl⟩

/-- With no bit buffered nothing but 0 fits (10_state.md R28). -/
theorem eq_fresh_of_fits {w : WriterChan} (hw : w.fits = true) (h : w.nb.val = 0) : w = .fresh := by
  obtain ⟨acc, nb⟩ := w
  obtain rfl : nb = 0 := Fin.ext h
  have hacc : acc.toNat < 2 ^ 0 := of_decide_eq_true hw
  obtain rfl : acc = 0#8 := BitVec.eq_of_toNat_eq (by simpa using hacc)
  rfl

/-- CloseWriter leaves a channel that fits empty (40_bitchannel.md R112). -/
theorem closeWriter_leaves_fresh {w : WriterChan} (hw : w.fits = true) (ps : Ports) :
    ∃ ps', closeWriter w ps = .ok .fresh ps' := by
  by_cases h : w.nb.val = 0
  · obtain rfl := eq_fresh_of_fits hw h
    exact ⟨_, closeWriter_empty h ps⟩
  · exact ⟨_, closeWriter_pads (Nat.pos_of_ne_zero h) ps⟩

/-! ### What a body leaves -/

/-- Where `m`, run on `s`, stops, completed or not, `P` holds. -/
def Leaves (P : State → Prop) {α : Type} (m : Cmd α) (s : State) : Prop :=
  match m s with
  | .ok _ s' => P s'
  | .error _ s' => P s'

section Leaves
variable {P : State → Prop} {α β : Type} {m : Cmd α} {s s1 : State}

theorem leaves_of_ok {a : α} (h : m s = .ok a s1) (hP : P s1) : Leaves P m s := by
  simpa only [Leaves, h] using hP

theorem leaves_pure (a : α) (hP : P s) : Leaves P (pure a) s := hP

theorem leaves_raise (e : Err) (hP : P s) : Leaves P (raise e : Cmd α) s := hP

theorem leaves_get_bind {f : State → Cmd β} (h : Leaves P (f s) s) : Leaves P (get >>= f) s := h

/-- After a part that completes, what the rest leaves is what the whole leaves. -/
theorem leaves_bind_of_ok {f : α → Cmd β} {a : α} (h : m s = .ok a s1) (hf : Leaves P (f a) s1) :
    Leaves P (m >>= f) s := by
  simpa only [Leaves, bind_run, h] using hf

/-- STATUS aside, a command leaves what its body leaves (10_state.md R24, 60_exceptions.md R233). -/
theorem runCommand_next_of_leaves {body : Cmd Unit} (hb : Leaves P body s.start)
    (hP : ∀ s1 st, P s1 → P { s1 with status := st }) {s' : State} (h : runCommand body s = .next s') :
    P s' ∧ (s'.status = .completed ∨ ∃ e, s'.status = .failed e) := by
  obtain ⟨s2, hok, hrun⟩ | ⟨e, s2, herr, hrun⟩ | ⟨s2, -, hrun⟩ := runCommand_cases body s
  · cases hrun.symm.trans h
    exact ⟨hP _ _ (by simpa only [Leaves, hok] using hb), .inl rfl⟩
  · cases hrun.symm.trans h
    exact ⟨hP _ _ (by simpa only [Leaves, herr] using hb), .inr ⟨e, rfl⟩⟩
  · cases hrun.symm.trans h

end Leaves

theorem onWriter_of_ok {m : WriterChan → PortM WriterChan} {s : State} {w : WriterChan} {ps : Ports}
    (h : m s.wChan s.ports = .ok w ps) : onWriter m s = .ok () { s with ports := ps, wChan := w } := by
  simp only [onWriter, bind_run, get_run, onPorts_run, h]
  rfl

theorem hostReadBit_of_ok {s : State} {x : BitRead} {r : ReaderChan} {ps : Ports}
    (h : readBit s.rChan s.ports = .ok (x, r) ps) : hostReadBit s = .ok x { s with ports := ps, rChan := r } := by
  simp only [hostReadBit, bind_run, get_run, onPorts_run, h]
  rfl

/-! ### Every body keeps the invariant of RESULT and the channels -/

section Bodies
variable {s : State} (h : s.ChannelInv)
include h

theorem bwOpen_leaves_channelInv : Leaves State.ChannelInv bwOpen s := by
  unfold Leaves bwOpen
  split_ifs
  · exact h
  · exact channelInv_freshWriter h true

theorem bwWrite_leaves_channelInv (opa : Byte) : Leaves State.ChannelInv (bwWrite opa) s := by
  refine leaves_get_bind ?_
  split_ifs with ho
  · cases bitOperand opa with
    | none => exact leaves_raise _ h
    | some b =>
      obtain ⟨w, ps, hrun, hw⟩ := writeBit_keeps_fits h.fits b s.ports
      exact leaves_of_ok (onWriter_of_ok hrun) (channelInv_writer (channelInv_ports h ps) ho hw)
  · exact leaves_raise _ h

theorem bwClose_leaves_channelInv : Leaves State.ChannelInv bwClose s := by
  refine leaves_get_bind ?_
  split_ifs
  · obtain ⟨-, hfits, -⟩ := id h
    obtain ⟨ps, hrun⟩ := closeWriter_leaves_fresh h.fits s.ports
    exact leaves_bind_of_ok (onWriter_of_ok hrun)
      (leaves_of_ok (modify_run _ _) (channelInv_freshWriter (channelInv_ports h ps) false))
  · exact leaves_pure _ h

theorem brOpen_leaves_channelInv : Leaves State.ChannelInv brOpen s := by
  unfold Leaves brOpen
  split_ifs
  · exact h
  · exact channelInv_freshReader h true

theorem setResult_leaves_channelInv {r : Result} (hr : r.legal = true) :
    Leaves State.ChannelInv (setResult r) s :=
  leaves_of_ok rfl (channelInv_result h hr)

theorem setResult_atEnd_leaves_channelInv : Leaves State.ChannelInv (setResult .atEnd) s :=
  setResult_leaves_channelInv h rfl

theorem setResult_ofBit_leaves_channelInv (b : Bool) : Leaves State.ChannelInv (setResult (.ofBit b)) s :=
  setResult_leaves_channelInv h (by simp [Result.legal, Result.ofBit])

theorem requiredAtEnd_leaves_channelInv : Leaves State.ChannelInv requiredAtEnd s :=
  leaves_bind_of_ok rfl (leaves_raise _ (channelInv_result h rfl))

/-- A body that goes on after a bit is read from an open reader (40_bitchannel.md R118, R119). -/
theorem hostReadBit_bind_leaves_channelInv {f : BitRead → Cmd Unit} (ho : s.rOpen = true)
    (hf : ∀ x s1, s1.ChannelInv → Leaves State.ChannelInv (f x) s1) :
    Leaves State.ChannelInv (hostReadBit >>= f) s := by
  obtain ⟨x, r, ps, hrun, -⟩ := readBit_answers s.rChan s.ports
  exact leaves_bind_of_ok (hostReadBit_of_ok hrun) (hf x _ (channelInv_reader (channelInv_ports h ps) ho r))

theorem brRead_leaves_channelInv : Leaves State.ChannelInv brRead s := by
  refine leaves_get_bind ?_
  split_ifs with ho
  · refine hostReadBit_bind_leaves_channelInv h ho fun x s1 h1 => ?_
    cases x with
    | bit b => exact setResult_ofBit_leaves_channelInv h1 b
    | endOf => exact setResult_atEnd_leaves_channelInv h1
    | fail => exact leaves_raise _ h1
  · exact setResult_atEnd_leaves_channelInv h

theorem brReadReq_leaves_channelInv : Leaves State.ChannelInv brReadReq s := by
  refine leaves_get_bind ?_
  split_ifs with ho
  · refine hostReadBit_bind_leaves_channelInv h ho fun x s1 h1 => ?_
    cases x with
    | bit b => exact setResult_ofBit_leaves_channelInv h1 b
    | endOf => exact requiredAtEnd_leaves_channelInv h1
    | fail => exact leaves_raise _ h1
  · exact requiredAtEnd_leaves_channelInv h

theorem brClose_leaves_channelInv : Leaves State.ChannelInv brClose s := by
  refine leaves_get_bind ?_
  split_ifs
  · exact leaves_bind_of_ok rfl
      (leaves_of_ok (modify_run _ _) (channelInv_freshReader (channelInv_ports h _) false))
  · exact leaves_pure _ h

/-- A codec changes no register (40_bitchannel.md R122). -/
theorem codec_leaves_channelInv (body : Config → PortM Unit) : Leaves State.ChannelInv (codec body) s := by
  unfold Leaves codec
  split_ifs
  · exact h
  · rw [onPorts_run]
    cases body s.config s.ports <;> exact channelInv_ports h _

theorem bodyOf_leaves_channelInv (i : Instr) : Leaves State.ChannelInv (bodyOf i) s := by
  cases i with
  | bwOpen => exact bwOpen_leaves_channelInv h
  | bwWrite opa => exact bwWrite_leaves_channelInv h opa
  | bwClose => exact bwClose_leaves_channelInv h
  | brOpen => exact brOpen_leaves_channelInv h
  | brRead => exact brRead_leaves_channelInv h
  | brReadReq => exact brReadReq_leaves_channelInv h
  | brClose => exact brClose_leaves_channelInv h
  | hufEnc | hufDec | lzEnc | lzDec => exact codec_leaves_channelInv h _

end Bodies

/-! ### Every step keeps the invariant -/

theorem completed_legal : Status.completed.legal = true := rfl

theorem failed_legal (e : Err) : (Status.failed e).legal = true := by
  obtain ⟨hlo, hhi⟩ := errCode_range e
  simp [Status.legal, Status.failed, hlo, hhi]

theorem exec_keeps_inv {i : Instr} {s s' : State} (h : s.Inv) (he : exec i s = .next s') : s'.Inv := by
  obtain ⟨-, hchan⟩ := (inv_iff s).mp h
  rw [exec_eq_runCommand] at he
  obtain ⟨hchan', hst⟩ := runCommand_next_of_leaves
    (bodyOf_leaves_channelInv (channelInv_status hchan _) i) (fun _ st h1 => channelInv_status h1 st) he
  refine (inv_iff s').mpr ⟨?_, hchan'⟩
  obtain hst | ⟨e, hst⟩ := hst
  · exact hst ▸ completed_legal
  · exact hst ▸ failed_legal e

theorem commandWrite_keeps_inv {v : Word} {s s' : State} (h : s.Inv) (hc : commandWrite v s = .next s') : s'.Inv := by
  cases hd : decode v with
  | ok i => exact exec_keeps_inv h ((commandWrite_legal hd s).symm.trans hc)
  | error e =>
    cases (commandWrite_illegal hd s).symm.trans hc
    obtain ⟨-, hchan⟩ := (inv_iff s).mp h
    exact (inv_iff _).mpr ⟨rfl, channelInv_status hchan _⟩

/-- After reset of the block the invariant holds, whatever held before (10_state.md R38). -/
theorem resetBlock_inv (s : State) : s.resetBlock.Inv := ⟨rfl, rfl, rfl, fun _ => rfl, fun _ => rfl⟩

theorem portAction_next {f : Ports → Ports} {s s' : State} (h : portAction f s = .next s') :
    s' = { s with ports := f s.ports } := by
  unfold portAction at h
  split_ifs at h
  cases h
  rfl

/-- What a host action can do when it is not refused: run a command; touch only the ports and the model's record of the
last word read; or reset the block, the ports changed by a command that was stopped (70_reset_and_hazards.md R262). -/
theorem perform_next_cases {a : HostAction} {s s' : State} (h : perform a s = .next s') :
    (∃ v, commandWrite v s = .next s') ∨
    (∃ ps rd, s' = { s with ports := ps, readData := rd }) ∨
    (∃ ps, s' = { s with ports := ps }.resetBlock) := by
  cases a with
  | write off size v =>
    simp only [perform] at h
    split_ifs at h
    · exact .inl ⟨v, h⟩
    · cases h
      exact .inr (.inl ⟨s.ports, s.readData, rfl⟩)
  | read off size =>
    simp only [perform] at h
    split_ifs at h
    cases h
    exact .inr (.inl ⟨s.ports, _, rfl⟩)
  | load | setFail | drain | copyTable =>
    simp only [perform] at h
    exact .inr (.inl ⟨_, s.readData, portAction_next h⟩)
  | reset =>
    cases h
    exact .inr (.inr ⟨s.ports, rfl⟩)
  | resetDuring v n =>
    simp only [perform] at h
    split_ifs at h
    split at h <;> cases h
    exact .inr (.inr ⟨_, rfl⟩)
  | editSource | editSink => cases h

theorem perform_keeps_inv {a : HostAction} {s s' : State} (h : s.Inv) (hp : perform a s = .next s') : s'.Inv := by
  obtain ⟨v, hc⟩ | ⟨ps, rd, rfl⟩ | ⟨ps, rfl⟩ := perform_next_cases hp
  · exact commandWrite_keeps_inv h hc
  · exact h
  · exact resetBlock_inv _

/-- Settles O54, by what the host's next action can do and what each command's body leaves. -/
theorem stepKeepsInv : Obligations.StepKeepsInv := by
  intro s s' h hstep
  cases hp : s.pending with
  | nil =>
    cases (step_idle hp).symm.trans hstep
    exact h
  | cons a rest =>
    have hrest : { s with pending := rest }.Inv := h
    exact perform_keeps_inv hrest ((step_performs hp).symm.trans hstep)

/-! ### Reset -/

/-- Settles O53: the reset state is what reset of the block makes of it. -/
theorem invHoldsAtReset : Obligations.InvHoldsAtReset := resetBlock_inv State.reset

/-- Settles O55: the step is `State.resetBlock`. -/
theorem resetPutsEveryRegisterToItsResetValue : Obligations.ResetPutsEveryRegisterToItsResetValue :=
  fun _ _ hp => ⟨step_performs hp, by decide, by decide⟩

/-! ### STATUS is not read -/

/-- Settles O9: STATUS is overwritten before the body runs. -/
theorem statusNeverInfluencesCommands : Obligations.StatusNeverInfluencesCommands := by
  intro i s st
  simp only [exec_eq_runCommand, runCommand_ignores_status]

/-! ### The words of STATUS and RESULT -/

theorem bitWord_getLsbD (b : Bool) (i : Nat) : (bitWord b).getLsbD i = (decide (i = 0) && b) := by
  cases b <;> simp [bitWord, BitVec.getLsbD_one]

theorem bitWord_shiftLeft_getLsbD {n : Nat} (hn : n < 32) (b : Bool) (i : Nat) :
    (bitWord b <<< n).getLsbD i = (decide (i = n) && b) := by
  have hpos : (i < 32 ∧ ¬ i < n) ∧ i - n = 0 ↔ i = n := by omega
  simp only [BitVec.getLsbD_shiftLeft, bitWord_getLsbD, ← Bool.and_assoc, ← decide_not, ← Bool.decide_and, hpos]

theorem errCode_field_getLsbD (c : BitVec 4) (i : Nat) :
    (c.zeroExtend 32 <<< 8).getLsbD i = (decide (8 ≤ i) && c.getLsbD (i - 8)) := by
  rw [BitVec.getLsbD_shiftLeft, BitVec.getLsbD_setWidth]
  by_cases h8 : 8 ≤ i
  · by_cases h32 : i < 32
    · have hi : i - 8 < 32 := by omega
      simp [h8, h32, hi, Nat.not_lt.mpr h8]
    · simp [h32, BitVec.getLsbD_of_ge c (i - 8) (by omega)]
  · simp [h8, Nat.lt_of_not_le h8]

/-- Bit `i` of the STATUS word (10_state.md R23). -/
theorem status_toWord_getLsbD (st : Status) (i : Nat) : st.toWord.getLsbD i =
    (decide (i = 0) && st.busy || decide (i = 1) && st.done || decide (i = 2) && st.err ||
      decide (8 ≤ i) && st.errCode.getLsbD (i - 8)) := by
  rw [Status.toWord, BitVec.getLsbD_or, BitVec.getLsbD_or, BitVec.getLsbD_or, bitWord_getLsbD,
    bitWord_shiftLeft_getLsbD (by decide), bitWord_shiftLeft_getLsbD (by decide), errCode_field_getLsbD]

/-- Above its three flags the STATUS word holds ERRCODE alone (10_state.md R23). -/
theorem status_toWord_getLsbD_of_ge {i : Nat} (h : 3 ≤ i) (st : Status) :
    st.toWord.getLsbD i = (decide (8 ≤ i) && st.errCode.getLsbD (i - 8)) := by
  have h0 : i ≠ 0 := by omega
  have h1 : i ≠ 1 := by omega
  have h2 : i ≠ 2 := by omega
  simp [status_toWord_getLsbD, h0, h1, h2]

/-- Bit `i` of the RESULT word (10_state.md R25). -/
theorem result_toWord_getLsbD (r : Result) (i : Nat) : r.toWord.getLsbD i =
    (decide (i = 0) && r.bit || decide (i = 8) && r.endMark) := by
  rw [Result.toWord, BitVec.getLsbD_or, bitWord_getLsbD, bitWord_shiftLeft_getLsbD (by decide)]

/-- A field of a word reads as `x` when each of its bits does. -/
theorem extractLsb'_eq_of_getLsbD {w lo n : Nat} {v : BitVec w} {x : BitVec n}
    (h : ∀ k < n, v.getLsbD (lo + k) = x.getLsbD k) : v.extractLsb' lo n = x := by
  refine BitVec.eq_of_getLsbD_eq fun k hk => ?_
  rw [BitVec.getLsbD_extractLsb', h k hk]
  simp [hk]

/-- Settles O6, bit by bit. -/
theorem statusAndResultWordLayout : Obligations.StatusAndResultWordLayout := by
  refine ⟨fun st => ⟨?busy, ?done, ?err, ?low, ?code, ?high⟩, fun r => ⟨?bit, ?mid, ?endMark, ?top⟩⟩
  case busy => exact (status_toWord_getLsbD st 0).trans (by simp)
  case done => exact (status_toWord_getLsbD st 1).trans (by simp)
  case err => exact (status_toWord_getLsbD st 2).trans (by simp)
  case low =>
    refine extractLsb'_eq_of_getLsbD fun k hk => ?_
    have h8 : ¬ 8 ≤ 3 + k := by omega
    simp [status_toWord_getLsbD_of_ge, h8]
  case code =>
    refine extractLsb'_eq_of_getLsbD fun k hk => ?_
    rw [status_toWord_getLsbD_of_ge (by omega)]
    simp
  case high =>
    refine extractLsb'_eq_of_getLsbD fun k hk => ?_
    rw [status_toWord_getLsbD_of_ge (by omega), BitVec.getLsbD_of_ge st.errCode (12 + k - 8) (by omega)]
    simp
  case bit => exact (result_toWord_getLsbD r 0).trans (by simp)
  case mid =>
    refine extractLsb'_eq_of_getLsbD fun k hk => ?_
    have h8 : 1 + k ≠ 8 := by omega
    simp [result_toWord_getLsbD, h8]
  case endMark => exact (result_toWord_getLsbD r 8).trans (by simp)
  case top =>
    refine extractLsb'_eq_of_getLsbD fun k hk => ?_
    have h8 : 9 + k ≠ 8 := by omega
    simp [result_toWord_getLsbD, h8]

/-! ### The register window -/

theorem validAccess_of_mem {off : Nat} (h : off ∈ [0, 4, 8, 12]) : validAccess off 4 = true := by
  fin_cases h <;> rfl

theorem perform_read {off : Nat} (h : off ∈ [0, 4, 8, 12]) (s : State) :
    perform (.read off 4) s = .next { s with readData := some (s.readWindow off) } := by
  simp [perform, validAccess_of_mem h]

/-- A write to STATUS, RESULT or 0xC is ignored (20_memory.md R63). -/
theorem perform_write_ignored {off : Nat} (h : off ∈ [4, 8, 12]) (v : Word) (s : State) :
    perform (.write off 4 v) s = .next s := by
  have hoff : off ≠ 0 := by rintro rfl; simp at h
  simp [perform, validAccess_of_mem (List.mem_cons_of_mem 0 h), hoff]

theorem step_read {s : State} {off : Nat} {rest : List HostAction} (hp : s.pending = .read off 4 :: rest)
    (h : off ∈ [0, 4, 8, 12]) :
    step s = .next { s with pending := rest, readData := some (s.readWindow off) } :=
  (step_performs hp).trans (perform_read h _)

/-- Settles O59, by the offset read or written. -/
theorem registerWindowAccess : Obligations.RegisterWindowAccess := by
  refine ⟨fun s rest hp => ?_, fun s rest hp => ?_, fun s rest hp => ?_, fun s rest hp => ?_,
    fun s off v rest hp h => ?_⟩
  · exact step_read hp (by decide)
  · exact step_read hp (by decide)
  · exact step_read hp (by decide)
  · exact step_read hp (by decide)
  · exact (step_performs hp).trans (perform_write_ignored h v _)

end Sys2Proof.Machine
end

section
/-! PROOF. HUF_DEC from its table to the end of its payload: how a codec's body shows in its command, the reader's place
in a payload, the two loops on codes that stand there, the table text read back (42_huffman_decoder.md R171 to R181,
20_memory.md R57, R65). -/

namespace Sys2Proof.Machine

/-! ### A codec's body in its command -/

section Codec
variable {body : Config → PortM Unit} {s : State} {ps : Ports}

theorem runCommand_of_ok {b : Cmd Unit} {s' : State} (h : b s.start = .ok () s') :
    runCommand b s = .next s'.complete := by
  simp only [runCommand, h]

theorem runCommand_of_error {b : Cmd Unit} {e : Err} {s' : State} (h : b s.start = .error (.err e) s') :
    runCommand b s = .next (s'.fail e) := by
  simp only [runCommand, h]

/-- An open host channel: code 11, nothing else (60_exceptions.md R236). -/
theorem runCommand_codec_open (h : ¬ s.channelsClosed) :
    runCommand (codec body) s = .next { s with status := errStatus 11#4 } := by
  have ho : s.wOpen = true ∨ s.rOpen = true := by
    rw [← Bool.not_eq_false, ← Bool.not_eq_false, ← not_and_or]
    exact h
  exact runCommand_of_error (codec_refuses (s := s.start) ho)

theorem codec_start (h : s.channelsClosed) : codec body s.start = onPorts (body s.config) s.start := by
  obtain ⟨hw, hr⟩ := h
  exact codec_runs (s := s.start) hw hr

theorem runCommand_codec_ok (h : s.channelsClosed) (hb : body s.config s.ports = .ok () ps) :
    runCommand (codec body) s = .next { s with status := doneStatus, ports := ps } :=
  runCommand_of_ok (s' := { s.start with ports := ps }) (by
    rw [codec_start h, onPorts_run, start_ports, hb])

theorem runCommand_codec_error {e : Err} (h : s.channelsClosed) (hb : body s.config s.ports = .error (.err e) ps) :
    runCommand (codec body) s = .next { s with status := errStatus e.code, ports := ps } :=
  runCommand_of_error (s' := { s.start with ports := ps }) (by
    rw [codec_start h, onPorts_run, start_ports, hb])

end Codec

/-! ### The bits of a byte stream -/

@[simp] theorem byteBits_length (b : Byte) : (byteBits b).length = 8 := by simp [byteBits]

theorem byteBits_getElem? (b : Byte) {i : Nat} (h : i < 8) : (byteBits b)[i]? = some (b.getLsbD (7 - i)) := by
  simp [byteBits, h]

theorem flatMap_byteBits_length (bs : List Byte) : (bs.flatMap byteBits).length = 8 * bs.length := by
  induction bs with
  | nil => rfl
  | cons b bs ih =>
    simp [ih]
    omega

/-- Bit `k` of a byte stream is bit `7 - k % 8` of byte `k / 8` (20_memory.md R57). -/
theorem flatMap_byteBits_getElem? (bs : List Byte) {k : Nat} (h : k < 8 * bs.length) :
    (bs.flatMap byteBits)[k]? = some ((bs.getD (k / 8) 0#8).getLsbD (7 - k % 8)) := by
  induction bs generalizing k with
  | nil => simp at h
  | cons b bs ih =>
    rw [List.flatMap_cons]
    by_cases hk : k < 8
    · rw [List.getElem?_append_left (by simpa using hk), byteBits_getElem? b hk, Nat.div_eq_of_lt hk,
        Nat.mod_eq_of_lt hk]
      rfl
    · obtain ⟨j, rfl⟩ : ∃ j, k = j + 8 := ⟨k - 8, by omega⟩
      rw [List.getElem?_append_right (by simp), byteBits_length, Nat.add_sub_cancel,
        ih (by simp at h; omega), Nat.add_div_right j (by decide), Nat.add_mod_right]
      rfl

/-! ### The reader's place in a payload -/

/-- The reader with `k` bits of the payload read, the byte with the last one of them being the last byte pulled; the
empty reader for `k = 0` (40_bitchannel.md R113). -/
def readerAt (payload : List Byte) (k : Nat) : ReaderChan :=
  ⟨(0#8 :: payload).getD ((k + 7) / 8) 0#8, ⟨8 * ((k + 7) / 8) - k, by omega⟩⟩

/-- The bytes a reader pulls when it goes from bit `j` of the payload to bit `k`. -/
def pulledFrom (payload : List Byte) (j k : Nat) : List Byte :=
  (payload.drop ((j + 7) / 8)).take ((k + 7) / 8 - (j + 7) / 8)

@[simp] theorem pulledFrom_self (payload : List Byte) (k : Nat) : pulledFrom payload k k = [] := by
  simp [pulledFrom]

theorem pulledFrom_append (payload : List Byte) {i j k : Nat} (hij : i ≤ j) (hjk : j ≤ k) :
    pulledFrom payload i j ++ pulledFrom payload j k = pulledFrom payload i k := by
  have hi : (j + 7) / 8 = (i + 7) / 8 + ((j + 7) / 8 - (i + 7) / 8) := by omega
  have hk : (k + 7) / 8 - (i + 7) / 8 = (j + 7) / 8 - (i + 7) / 8 + ((k + 7) / 8 - (j + 7) / 8) := by omega
  unfold pulledFrom
  rw [hk, List.take_add, List.drop_drop, ← hi]

/-- To the end of the payload's last byte, everything left is pulled. -/
theorem pulledFrom_end {payload : List Byte} {j k : Nat} (h : (k + 7) / 8 = payload.length) :
    pulledFrom payload j k = payload.drop ((j + 7) / 8) := by
  simp [pulledFrom, h]

/-- The ports after a reader went from bit `j` of the payload to bit `k`, `tail` following the payload on IN
(20_memory.md R52, 40_bitchannel.md R113). -/
def Ports.readTo (ps : Ports) (payload tail : List Byte) (j k : Nat) : Ports :=
  { ps with
    inp := ⟨payload.drop ((k + 7) / 8) ++ tail, false⟩
    hist := ps.hist ++ (pulledFrom payload j k).map (Event.pull .inp) }

/-- IN holds what a reader at bit `k` of the payload has not pulled, and `tail`. -/
def Ports.atBit (ps : Ports) (payload tail : List Byte) (k : Nat) : Prop :=
  ps.inp = ⟨payload.drop ((k + 7) / 8) ++ tail, false⟩

theorem readTo_atBit (ps : Ports) (payload tail : List Byte) (j k : Nat) :
    (ps.readTo payload tail j k).atBit payload tail k := rfl

theorem readTo_self {ps : Ports} {payload tail : List Byte} {k : Nat} (h : ps.atBit payload tail k) :
    ps.readTo payload tail k k = ps := by
  simp only [Ports.readTo, pulledFrom_self, List.map_nil, List.append_nil]
  rw [← h]

theorem readTo_readTo (ps : Ports) (payload tail : List Byte) {i j k : Nat} (hij : i ≤ j) (hjk : j ≤ k) :
    (ps.readTo payload tail i j).readTo payload tail j k = ps.readTo payload tail i k := by
  simp only [Ports.readTo, List.append_assoc, ← List.map_append, pulledFrom_append payload hij hjk]

/-- Inside a byte no bit read pulls (40_bitchannel.md R113). -/
theorem readTo_inside {ps : Ports} {payload tail : List Byte} {j k : Nat} (h : ps.atBit payload tail j)
    (hjk : (k + 7) / 8 = (j + 7) / 8) : ps.readTo payload tail j k = ps := by
  have hself := readTo_self h
  simpa only [Ports.readTo, pulledFrom, hjk] using hself

/-- At a byte's first bit the next byte is pulled (20_memory.md R52). -/
theorem pull_at {ps : Ports} {payload tail : List Byte} {k : Nat} (h : ps.atBit payload tail k)
    (hk : k < 8 * payload.length) (h8 : k % 8 = 0) :
    pull .inp ps = .ok (.byte (payload.getD (k / 8) 0#8)) (ps.readTo payload tail k (k + 1)) := by
  have hj : (k + 7) / 8 = k / 8 := by omega
  have hj' : (k + 1 + 7) / 8 = k / 8 + 1 := by omega
  have hlen : k / 8 < payload.length := by omega
  have hdrop : payload.drop (k / 8) = payload.getD (k / 8) 0#8 :: payload.drop (k / 8 + 1) := by
    rw [List.drop_eq_getElem_cons hlen, List.getD_eq_getElem _ _ hlen]
  rw [Ports.atBit, hj, hdrop] at h
  rw [pull_byte (p := .inp) (by simp only [Ports.source, h]) (by simp only [Ports.source, h]; rfl)]
  simp [Ports.readTo, pulledFrom, hj, hj', hdrop, Ports.setSource, Ports.record]

/-- A reader at bit `k` of the payload returns that bit and is at the next one (40_bitchannel.md R113). -/
theorem readBit_at {ps : Ports} {payload tail : List Byte} {k : Nat} (h : ps.atBit payload tail k)
    (hk : k < 8 * payload.length) :
    readBit (readerAt payload k) ps =
      .ok (.bit ((payload.getD (k / 8) 0#8).getLsbD (7 - k % 8)), readerAt payload (k + 1))
        (ps.readTo payload tail k (k + 1)) := by
  have hnext : (k + 1 + 7) / 8 = k / 8 + 1 := by omega
  by_cases h8 : k % 8 = 0
  · have hnb : (readerAt payload k).nb.val = 0 := by simp only [readerAt]; omega
    have hnb' : 8 * (k / 8 + 1) - (k + 1) = 7 := by omega
    rw [readBit_pulls hnb, pull_at h hk h8]
    simp [takeBit, readerAt, hnext, h8, hnb']
  · have hj : (k + 7) / 8 = k / 8 + 1 := by omega
    have hnb : (readerAt payload k).nb.val ≠ 0 := by simp only [readerAt]; omega
    have hbit : 8 * (k / 8 + 1) - k - 1 = 7 - k % 8 := by omega
    have hnb' : 8 * (k / 8 + 1) - (k + 1) = 7 - k % 8 := by omega
    rw [readBit_buffered hnb, readTo_inside h (hnext.trans hj.symm)]
    simp [takeBit, readerAt, hj, hnext, hbit, hnb']

/-- The bits `x :: p` stand at bit `k` of the payload: `x` is the bit read there, `p` stands at the next one. -/
theorem prefix_drop_cons {payload : List Byte} {k : Nat} {x : Bool} {p : BitSeq}
    (h : x :: p <+: (payload.flatMap byteBits).drop k) :
    k < 8 * payload.length ∧ (payload.getD (k / 8) 0#8).getLsbD (7 - k % 8) = x ∧
      p <+: (payload.flatMap byteBits).drop (k + 1) := by
  obtain ⟨more, hmore⟩ := h
  have hx : (payload.flatMap byteBits)[k]? = some x := by
    rw [← List.head?_drop, ← hmore]
    rfl
  have hk : k < 8 * payload.length := by
    rw [← flatMap_byteBits_length]
    exact (List.getElem?_eq_some_iff.mp hx).1
  refine ⟨hk, Option.some.inj ((flatMap_byteBits_getElem? payload hk).symm.trans hx), more, ?_⟩
  rw [← List.tail_drop, ← hmore]
  rfl

/-! ### HUF_DEC on a payload -/

/-- HUF_DEC's loops from a node reached so far, the bound of log entry 9 taken from the bits left. -/
def decodeRest (root at_ : Root) (r : ReaderChan) : PortM Unit := fun ps =>
  decodeLoop root (bitsLeft r ps + 1) at_ r ps

/-- HUF_DEC's loops when the last bit read led to the node `n` (42_huffman_decoder.md R177). -/
def decodeArrive (root : Root) (n : Node) (r : ReaderChan) : PortM Unit :=
  match n with
  | .empty => releaseAndRaise .corruptTree
  | .branch l rt _ _ => decodeRest root ⟨l, rt⟩ r
  | .leaf sym =>
    if sym = eos then release (.src .inp)
    else do
      push .out (BitVec.ofNat 8 sym.val)
      decodeRest root root r

theorem decodePayload_eq (root : Root) : decodePayload root = decodeRest root root .fresh := by
  funext ps
  simp [decodePayload, decodeRest, bitsLeft, ReaderChan.fresh]

/-- A bit read leads to a child (42_huffman_decoder.md R177). -/
theorem decodeRest_bit {root at_ : Root} {r r' : ReaderChan} {ps ps' : Ports} {x : Bool}
    (h : readBit r ps = .ok (.bit x, r') ps') :
    decodeRest root at_ r ps = decodeArrive root (at_.child x) r' ps' := by
  have hleft : bitsLeft r ps = bitsLeft r' ps' + 1 := by
    obtain ⟨y, s, qs, hread, hleft⟩ := readBit_answers r ps
    cases hread.symm.trans h
    exact (hleft x rfl).symm
  unfold decodeRest decodeArrive
  rw [hleft, decodeLoop, bind_run, h]
  cases hc : at_.child x with
  | empty => simp [hc]
  | branch l rt n q => simp [hc, decodeRest]
  | leaf sym =>
    by_cases he : sym = eos
    · simp [hc, he]
    · simp [hc, he, bind_run, push_run, decodeRest, bitsLeft]

theorem ofByte_ne_eos (b : Byte) : Symbol.ofByte b ≠ eos := by
  intro h
  have hval : b.toNat = 256 := congrArg Fin.val h
  omega

@[simp] theorem decodeArrive_eos (root : Root) (r : ReaderChan) :
    decodeArrive root (.leaf eos) r = release (.src .inp) := by
  simp [decodeArrive]

/-- A byte's Leaf: the byte is pushed and the next code starts at the Root (42_huffman_decoder.md R177). -/
theorem decodeArrive_byte (root : Root) (b : Byte) (r : ReaderChan) (ps : Ports) :
    decodeArrive root (.leaf (Symbol.ofByte b)) r ps =
      decodeRest root root r ((ps.setLog .out (ps.out ++ [b])).record (.push .out b)) := by
  have hb : BitVec.ofNat 8 (Symbol.ofByte b).val = b := by simp [Symbol.ofByte]
  rw [decodeArrive, if_neg (ofByte_ne_eos b), bind_run, push_run, hb]
  rfl

/-- No bit left: TruncatedStream, IN released (42_huffman_decoder.md R177, R179). -/
theorem decodeRest_end {root at_ : Root} {r : ReaderChan} {ps : Ports} (hr : r.nb.val = 0)
    (hp : ps.inp = ⟨[], false⟩) :
    decodeRest root at_ r ps = releaseAndRaise .truncatedStream (ps.record (.endOf .inp)) := by
  have hpull : pull .inp ps = .ok .endOf (ps.record (.endOf .inp)) :=
    pull_empty (by simp [Ports.source, hp]) (by simp [Ports.source, hp])
  simp [decodeRest, decodeLoop, bind_run, readBit_pulls hr, hpull]

/-- IN failed: EmptyInput, IN released (42_huffman_decoder.md R177, R179). -/
theorem decodeRest_failed {root at_ : Root} {r : ReaderChan} {ps : Ports} (hr : r.nb.val = 0)
    (hp : ps.inp.fail = true) :
    decodeRest root at_ r ps = releaseAndRaise .emptyInput (ps.record (.fail .inp)) := by
  have hpull : pull .inp ps = .ok .fail (ps.record (.fail .inp)) := pull_failed hp
  simp [decodeRest, decodeLoop, bind_run, readBit_pulls hr, hpull]

section Payload
variable {payload tail : List Byte} {root : Root}

theorem decodeRest_at {at_ : Root} {ps : Ports} {k : Nat} {x : Bool} {p : BitSeq} (h : ps.atBit payload tail k)
    (hx : x :: p <+: (payload.flatMap byteBits).drop k) :
    decodeRest root at_ (readerAt payload k) ps =
      decodeArrive root (at_.child x) (readerAt payload (k + 1)) (ps.readTo payload tail k (k + 1)) := by
  obtain ⟨hk, hbit, -⟩ := prefix_drop_cons hx
  exact decodeRest_bit (hbit ▸ readBit_at h hk)

/-- Bits that lead to a node are read up to it (42_huffman_decoder.md R177). -/
theorem decodeRest_follow {at_ : Root} {n : Node} {p : BitSeq} {ps : Ports} {k : Nat}
    (hn : at_.follow p = some n) (h : ps.atBit payload tail k) (hp : p <+: (payload.flatMap byteBits).drop k) :
    decodeRest root at_ (readerAt payload k) ps =
      decodeArrive root n (readerAt payload (k + p.length)) (ps.readTo payload tail k (k + p.length)) := by
  induction p generalizing at_ ps k with
  | nil => cases hn
  | cons b p ih =>
    rw [decodeRest_at h hp]
    obtain ⟨-, -, hp'⟩ := prefix_drop_cons hp
    match p, hn with
    | [], hn => cases hn; rfl
    | c :: p, hn =>
      cases hc : at_.child b with
      | leaf sym => simp [Root.follow, hc] at hn
      | empty => simp [Root.follow, hc] at hn
      | branch l rt m q =>
        have hn' : Root.follow ⟨l, rt⟩ (c :: p) = some n := by simpa only [Root.follow, hc] using hn
        rw [decodeArrive, ih hn' (readTo_atBit ..) hp', readTo_readTo _ _ _ (by omega) (by omega)]
        simp only [List.length_cons, Nat.add_assoc, Nat.add_comm 1]

/-- The ports after HUF_DEC, with `k` bits of the payload read, has decoded the Symbols of the bytes `bs` and pulled the
payload's last byte (42_huffman_decoder.md R177, R178). -/
def Ports.decoded (ps : Ports) (payload tail : List Byte) (code : Symbol → BitSeq) (k : Nat) (bs : List Byte) : Ports :=
  { ps with
    inp := ⟨tail, false⟩
    out := ps.out ++ bs
    hist := ps.hist ++ decodeEvents code k (payload.drop ((k + 7) / 8)) bs }

/-- A reader that went to the payload's last byte has decoded no byte since. -/
theorem readTo_end (ps : Ports) (code : Symbol → BitSeq) {j k : Nat} (h : (k + 7) / 8 = payload.length) :
    ps.readTo payload tail j k = ps.decoded payload tail code j [] := by
  simp [Ports.readTo, Ports.decoded, decodeEvents, pulledFrom_end h, h]

/-- One Symbol's pulls and its push, then what comes after (20_memory.md R65). -/
theorem decoded_cons (ps : Ports) (code : Symbol → BitSeq) (k : Nat) (b : Byte) (bs : List Byte) :
    ps.decoded payload tail code k (b :: bs) =
      (((ps.readTo payload tail k (k + (code (Symbol.ofByte b)).length)).setLog .out (ps.out ++ [b])).record
        (.push .out b)).decoded payload tail code (k + (code (Symbol.ofByte b)).length) bs := by
  have hdrop : (k + 7) / 8 + ((k + (code (Symbol.ofByte b)).length + 7) / 8 - (k + 7) / 8) =
      (k + (code (Symbol.ofByte b)).length + 7) / 8 := by omega
  simp [Ports.decoded, Ports.readTo, Ports.setLog, Ports.record, decodeEvents, pulledFrom, hdrop]

/-- HUF_DEC's loops on the codes of the bytes `bs`, followed by what ends the command as `fin` says
(42_huffman_decoder.md R177, R178). -/
theorem decodeRest_symbols {code : Symbol → BitSeq} {bs : List Byte} {fin : PortM Unit} {ps : Ports} {k : Nat}
    (hcode : ∀ b ∈ bs, root.follow (code (Symbol.ofByte b)) = some (.leaf (Symbol.ofByte b)))
    (h : ps.atBit payload tail k)
    (hbits : bs.flatMap (fun b => code (Symbol.ofByte b)) <+: (payload.flatMap byteBits).drop k)
    (hfin : ∀ ps' : Ports, ps'.atBit payload tail (k + (bs.flatMap fun b => code (Symbol.ofByte b)).length) →
      decodeRest root root (readerAt payload (k + (bs.flatMap fun b => code (Symbol.ofByte b)).length)) ps' =
        fin (ps'.decoded payload tail code (k + (bs.flatMap fun b => code (Symbol.ofByte b)).length) [])) :
    decodeRest root root (readerAt payload k) ps = fin (ps.decoded payload tail code k bs) := by
  induction bs generalizing ps k with
  | nil => exact hfin ps h
  | cons b bs ih =>
    simp only [List.flatMap_cons, List.length_append, ← Nat.add_assoc] at hbits hfin
    have hnext : bs.flatMap (fun b => code (Symbol.ofByte b)) <+:
        (payload.flatMap byteBits).drop (k + (code (Symbol.ofByte b)).length) := by
      obtain ⟨more, hmore⟩ := hbits
      rw [← List.drop_drop, ← hmore, List.append_assoc, List.drop_left]
      exact List.prefix_append _ _
    rw [decodeRest_follow (hcode b List.mem_cons_self) h ((List.prefix_append _ _).trans hbits), decodeArrive_byte,
      decoded_cons]
    exact ih (fun b' hb' => hcode b' (List.mem_cons_of_mem _ hb')) rfl hnext hfin

end Payload

/-! ### The table text read back -/

/-- The ports after the bytes `text` were pulled from TBLI, `rest` being what is left there. -/
def Ports.tableRead (ps : Ports) (text rest : List Byte) : Ports :=
  { ps with tbli := ⟨rest, false⟩, hist := ps.hist ++ text.map (Event.pull .tbli) }

theorem tableRead_tableRead (ps : Ports) (a b q rest : List Byte) :
    (ps.tableRead a q).tableRead b rest = ps.tableRead (a ++ b) rest := by
  simp [Ports.tableRead]

theorem pullT_run {ps : Ports} {b : Byte} {rest : List Byte} (h : ps.tbli = ⟨b :: rest, false⟩) :
    pullT ps = .ok b (ps.tableRead [b] rest) := by
  have hp : pull .tbli ps = .ok (.byte b) (ps.tableRead [b] rest) :=
    pull_byte (p := .tbli) (by simp [Ports.source, h]) (by simp [Ports.source, h])
  simp [pullT, bind_run, hp]

theorem bitDigit_ne_LF (b : Bool) : bitDigit b ≠ asciiLF := by cases b <;> decide

theorem bitDigit_ne_dash (b : Bool) : bitDigit b ≠ asciiDash := by cases b <;> decide

theorem bitDigit_is_digit (b : Bool) : bitDigit b = asciiZero ∨ bitDigit b = asciiOne := by cases b <;> decide

@[simp] theorem decide_bitDigit_eq_one (b : Bool) : decide (bitDigit b = asciiOne) = b := by cases b <;> decide

/-- The digits of a code and its LF are read as the code (42_huffman_decoder.md R171). -/
theorem readDigits_run {n : Nat} {p ds : BitSeq} {ps : Ports} {rest : List Byte}
    (h : ps.tbli = ⟨ds.map bitDigit ++ asciiLF :: rest, false⟩) (hmax : p.length + ds.length ≤ codeMax)
    (hn : ds.length < n) :
    readDigits n p ps = .ok (p ++ ds) (ps.tableRead (ds.map bitDigit ++ [asciiLF]) rest) := by
  induction ds generalizing n p ps with
  | nil =>
    obtain ⟨n, rfl⟩ := Nat.exists_eq_add_one.mpr hn
    simp [readDigits, bind_run, pullT_run h]
  | cons d ds ih =>
    obtain ⟨n, rfl⟩ := Nat.exists_eq_add_one.mpr (Nat.zero_lt_of_lt hn)
    simp only [List.length_cons] at hmax hn
    have hlen : p.length ≠ codeMax := by omega
    rw [readDigits, bind_run, pullT_run h]
    simp only [bitDigit_ne_LF, bitDigit_is_digit, hlen, if_true, if_false, decide_bitDigit_eq_one]
    rw [ih rfl (by simp; omega) (by omega), tableRead_tableRead]
    simp

/-- A record's text is read as the slot it is of (30_encoding.md R92, 42_huffman_decoder.md R171). -/
theorem readRecord_run {o : Option BitSeq} {ps : Ports} {rest : List Byte}
    (h : ps.tbli = ⟨recordText o ++ rest, false⟩) (ho : ∀ p ∈ o, 1 ≤ p.length ∧ p.length ≤ 256) :
    readRecord ps = .ok o (ps.tableRead (recordText o) rest) := by
  match o, ho with
  | none, _ =>
    simp [readRecord, bind_run, pullT_run h, pullT_run (ps := ps.tableRead [asciiDash] (asciiLF :: rest)) rfl,
      tableRead_tableRead, recordText]
  | some (d :: ds), ho =>
    obtain ⟨-, hmax⟩ := ho _ rfl
    simp only [List.length_cons] at hmax
    have h' : ps.tbli = ⟨bitDigit d :: (ds.map bitDigit ++ asciiLF :: rest), false⟩ := by simpa [recordText] using h
    rw [readRecord, bind_run, pullT_run h']
    simp only [bitDigit_ne_dash, bitDigit_is_digit, if_true, if_false, decide_bitDigit_eq_one]
    rw [bind_run, readDigits_run rfl (by simp [codeMax]; omega) (by simp [codeMax]; omega)]
    simp [tableRead_tableRead, recordText]

theorem readRecords_run {t : CodeTable} {ps : Ports} {rest : List Byte}
    (h : ps.tbli = ⟨tableText t ++ rest, false⟩) (ht : ∀ o ∈ t, ∀ p ∈ o, 1 ≤ p.length ∧ p.length ≤ 256) :
    readRecords t.length ps = .ok t (ps.tableRead (tableText t) rest) := by
  induction t generalizing ps with
  | nil =>
    have hps : ps.tableRead [] rest = ps := by simp [Ports.tableRead, ← show ps.tbli = ⟨rest, false⟩ from h]
    simp [readRecords, tableText, hps]
  | cons o t ih =>
    have h' : ps.tbli = ⟨recordText o ++ (tableText t ++ rest), false⟩ := by simpa [tableText] using h
    rw [List.length_cons, readRecords, bind_run, readRecord_run h' (ht o List.mem_cons_self)]
    simp only
    rw [bind_run, ih rfl fun o' ho' => ht o' (List.mem_cons_of_mem o ho')]
    simp [tableRead_tableRead, tableText]

/-- A table's text is read back to the table, and nothing after it is pulled (42_huffman_decoder.md R171). -/
theorem deserializeTable_run {t : CodeTable} {ps : Ports} {rest : List Byte} (ht : t.valid)
    (h : ps.tbli = ⟨tableText t ++ rest, false⟩) :
    deserializeTable ps = .ok t (ps.tableRead (tableText t) rest) := by
  obtain ⟨hlen, hcodes⟩ := ht
  have hrun := readRecords_run h hcodes
  rwa [hlen] at hrun

/-- After the table, HUF_DEC goes on with the payload (42_huffman_decoder.md R177). -/
theorem hufDecBody_run {t : CodeTable} {r : Root} {ps : Ports} {rest : List Byte} (ht : t.valid)
    (hr : rebuildTree t = .ok r) (h : ps.tbli = ⟨tableText t ++ rest, false⟩) (c : Config) :
    hufDecBody c ps = decodeRest r r .fresh (ps.tableRead (tableText t) rest) := by
  simp [hufDecBody, bind_run, deserializeTable_run ht h, hr, liftPure, decodePayload_eq]

/-! ### HUF_DEC from the table to the end of the payload -/

/-- HUF_DEC on a table's text and a payload that starts with the codes of the bytes `bs`, and then ends the command as
`fin` says (42_huffman_decoder.md R177, R178). -/
theorem hufDecBody_symbols {t : CodeTable} {r : Root} {code : Symbol → BitSeq} {bs rest payload tail : List Byte}
    {fin : PortM Unit} {ps : Ports} (ht : t.valid) (hr : rebuildTree t = .ok r)
    (htbli : ps.tbli = ⟨tableText t ++ rest, false⟩) (hinp : ps.inp = ⟨payload ++ tail, false⟩)
    (hcode : ∀ b ∈ bs, r.follow (code (Symbol.ofByte b)) = some (.leaf (Symbol.ofByte b)))
    (hbits : bs.flatMap (fun b => code (Symbol.ofByte b)) <+: payload.flatMap byteBits)
    (hfin : ∀ (ps' : Ports) (k : Nat), k = (bs.flatMap fun b => code (Symbol.ofByte b)).length →
      ps'.atBit payload tail k →
      decodeRest r r (readerAt payload k) ps' = fin (ps'.decoded payload tail code k [])) (c : Config) :
    hufDecBody c ps = fin ((ps.tableRead (tableText t) rest).decoded payload tail code 0 bs) :=
  have hat : (ps.tableRead (tableText t) rest).atBit payload tail 0 := hinp
  (hufDecBody_run ht hr htbli c).trans
    (decodeRest_symbols hcode hat hbits fun ps' hat' => hfin ps' _ (Nat.zero_add _) hat')

/-- What follows the first bits of a payload stands there. -/
theorem prefix_drop_of_append {p q bits : BitSeq} (h : p ++ q <+: bits) : q <+: bits.drop p.length := by
  obtain ⟨more, rfl⟩ := h
  rw [List.append_assoc, List.drop_left]
  exact List.prefix_append q more

/-- Settles O33: the codes are read one after the other, and Symbol 256's ends the payload. -/
theorem hufDecDecodesCodes : Obligations.HufDecDecodesCodes := by
  intro s t r code bits out rest payload tail hclosed ht hr hcode hbits hpre hlen htbli hinp
  subst hbits
  have heos : r.follow (code eos) = some (.leaf eos) := hcode eos (.inl rfl)
  refine runCommand_codec_ok hclosed ?_
  rw [hufDecBody_symbols (fin := release (.src .inp)) ht hr htbli hinp (fun b hb => hcode _ (.inr ⟨b, hb, rfl⟩))
    ((List.prefix_append _ _).trans hpre) ?fin]
  case fin =>
    rintro ps' _ rfl hat
    rw [decodeRest_follow heos hat (prefix_drop_of_append hpre), decodeArrive_eos,
      readTo_end ps' code (by rw [hlen, List.length_append])]
  simp [release_run, Ports.decoded, Ports.tableRead, Ports.record]

theorem releaseAndRaise_run (e : Err) (ps : Ports) :
    releaseAndRaise e ps = .error (.err e) (ps.record (.rel (.src .inp))) := rfl

/-- Bits that lead to no Leaf and no placeholder leave HUF_DEC inside a code (42_huffman_decoder.md R177). -/
theorem decodeRest_inside {payload tail : List Byte} {root : Root} {p : BitSeq} {ps : Ports} {k : Nat}
    (hp : p = [] ∨ ∃ l rt n q, root.follow p = some (.branch l rt n q)) (h : ps.atBit payload tail k)
    (hbits : p <+: (payload.flatMap byteBits).drop k) :
    ∃ at_, decodeRest root root (readerAt payload k) ps =
      decodeRest root at_ (readerAt payload (k + p.length)) (ps.readTo payload tail k (k + p.length)) := by
  obtain rfl | ⟨l, rt, n, q, hfollow⟩ := hp
  · exact ⟨root, by rw [List.length_nil, Nat.add_zero, readTo_self h]⟩
  · exact ⟨⟨l, rt⟩, by rw [decodeRest_follow hfollow h hbits, decodeArrive]⟩

/-- Settles O35: the failed IN is seen by the first pull, the payload's end inside a code by the pull after its last
byte. -/
theorem hufDecPayloadErrors : Obligations.HufDecPayloadErrors := by
  refine ⟨fun s t r rest hclosed ht hr htbli hfail => ?failed, ?truncated⟩
  case failed =>
    have hfail' : (s.ports.tableRead (tableText t) rest).inp.fail = true := hfail
    refine runCommand_codec_error (e := .emptyInput) hclosed ?_
    rw [hufDecBody_run ht hr htbli, decodeRest_failed (r := .fresh) rfl hfail', releaseAndRaise_run]
    simp [Ports.tableRead, Ports.record]
  case truncated =>
    intro s t r code out rest payload p hclosed ht hr hcode hp htbli hinp hbits
    refine runCommand_codec_error (e := .truncatedStream) hclosed ?_
    rw [hufDecBody_symbols (tail := []) (fin := fun ps => releaseAndRaise .truncatedStream (ps.record (.endOf .inp)))
      ht hr htbli (by simpa using hinp) hcode (hbits ▸ List.prefix_append _ _) ?fin]
    case fin =>
      rintro ps' k rfl hat
      have hlen := congrArg List.length hbits
      rw [flatMap_byteBits_length, List.length_append] at hlen
      obtain ⟨at_, hrun⟩ := decodeRest_inside hp hat (prefix_drop_of_append (hbits ▸ List.prefix_rfl))
      rw [hrun, ← hlen, decodeRest_end (by simp only [readerAt]; omega)
        (by simp [Ports.readTo, show (8 * payload.length + 7) / 8 = payload.length by omega]),
        readTo_end ps' code (by omega)]
    simp [releaseAndRaise_run, Ports.decoded, Ports.tableRead, Ports.record]

/-! ### A table with one present slot -/

theorem leavesFrom_nil {t : CodeTable} {j : Nat} (h : ∀ i : Nat, (t[i]?).join = none) : leavesFrom j t = [] := by
  induction t generalizing j with
  | nil => rfl
  | cons o t ih =>
    obtain rfl : o = none := h 0
    exact ih fun i => h (i + 1)

theorem leavesFrom_single {t : CodeTable} {j m : Nat} (h : ∀ i : Nat, (t[i]?).join.isSome = true ↔ i = m) :
    ∃ p, leavesFrom j t = [⟨.leaf (Fin.ofNat 257 (j + m)), p⟩] := by
  induction t generalizing j m with
  | nil => simpa using h m
  | cons o t ih =>
    cases o with
    | none =>
      have hm : m ≠ 0 := fun h0 => nomatch (h 0).mpr h0.symm
      obtain ⟨m, rfl⟩ := Nat.exists_eq_succ_of_ne_zero hm
      obtain ⟨p, hp⟩ := ih (j := j + 1) (m := m) fun i => by simpa using h (i + 1)
      exact ⟨p, by rw [leavesFrom, hp, Nat.add_right_comm, Nat.add_assoc]⟩
    | some p =>
      obtain rfl : 0 = m := (h 0).mp rfl
      have hrest : leavesFrom (j + 1) t = [] := leavesFrom_nil fun i => by simpa using h (i + 1)
      exact ⟨p, by rw [leavesFrom, hrest, Nat.add_zero]⟩

/-- One present slot, whatever its code: the degenerate Root (42_huffman_decoder.md R174). -/
theorem rebuildTree_single {t : CodeTable} {k : Symbol} (ht : t.valid) (h : ∀ i, (t.slot i).isSome = true ↔ i = k) :
    rebuildTree t = .ok ⟨.leaf k, .empty⟩ := by
  obtain ⟨hlen, -⟩ := ht
  have hslot (i : Nat) : (t[i]?).join.isSome = true ↔ i = k.val := by
    by_cases hi : i < 257
    · simpa [CodeTable.slot, Fin.ext_iff] using h ⟨i, hi⟩
    · have hnone : t[i]? = none := List.getElem?_eq_none (by omega)
      have hne : i ≠ k.val := by omega
      simp [hnone, hne]
  obtain ⟨p, hp⟩ := leavesFrom_single (j := 0) hslot
  simp [rebuildTree, hp, orderByCode, rebuildLoop]

/-- Settles O36: a bit 0 leads to the Leaf, a bit 1 to the placeholder. -/
theorem oneSlotTableDecoding : Obligations.OneSlotTableDecoding := by
  refine ⟨?eosSlot, ?byteSlot⟩
  case eosSlot =>
    intro s t b rest tail hclosed ht hslot htbli hinp
    have hroot := rebuildTree_single ht hslot
    refine ⟨hroot, ?_⟩
    have hat : (s.ports.tableRead (tableText t) rest).atBit [b] tail 0 := hinp
    have hread : readBit .fresh (s.ports.tableRead (tableText t) rest) = .ok (.bit (b.getLsbD 7), readerAt [b] 1)
        ((s.ports.tableRead (tableText t) rest).readTo [b] tail 0 1) := readBit_at hat (by simp)
    have hbody := (hufDecBody_run ht hroot htbli s.config).trans (decodeRest_bit hread)
    cases hb : b.getLsbD 7 with
    | false =>
      rw [hb] at hbody
      refine runCommand_codec_ok hclosed (hbody.trans ?_)
      simp [Root.child, release_run, Ports.readTo, Ports.tableRead, Ports.record, pulledFrom]
    | true =>
      rw [hb] at hbody
      refine runCommand_codec_error (e := .corruptTree) hclosed (hbody.trans ?_)
      simp [Root.child, decodeArrive, releaseAndRaise_run, Ports.readTo, Ports.tableRead, Ports.record, pulledFrom]
  case byteSlot =>
    intro s t c n rest payload tail hclosed ht hslot htbli hinp hlen hbits
    have hroot := rebuildTree_single ht hslot
    refine ⟨hroot, runCommand_codec_error (e := .corruptTree) hclosed ?_⟩
    have hcodes : (List.replicate n c).flatMap (fun _ => [false]) = List.replicate n false := by
      simp [List.flatMap_replicate]
    rw [hufDecBody_symbols (fin := releaseAndRaise .corruptTree) (code := fun _ => [false]) (bs := List.replicate n c)
      ht hroot htbli hinp (fun b hb => by rw [List.eq_of_mem_replicate hb]; rfl)
      (hcodes ▸ (List.prefix_append _ _).trans hbits) ?fin]
    case fin =>
      rintro ps' k hk hat
      rw [hcodes, List.length_replicate] at hk
      subst hk
      rw [decodeRest_at (p := []) hat (List.length_replicate ▸ prefix_drop_of_append hbits),
        readTo_end ps' (fun _ => [false]) (by omega)]
      rfl
    simp [releaseAndRaise_run, Ports.decoded, Ports.tableRead, Ports.record]

end Sys2Proof.Machine
end

section
/-! PROOF. What a command does to the ports: its events, in order, are accesses of the ports listed for it and then the
releases of 20_memory.md R55, and they explain the ports it leaves (20_memory.md R51 to R56). -/

namespace Sys2Proof.Machine

/-! ### One event -/

theorem applyEvent_hist {ps ps' : Ports} {e : Event} (h : applyEvent ps e = some ps') : ps'.hist = ps.hist ++ [e] := by
  cases e <;> simp only [applyEvent, Option.ite_none_right_eq_some, Option.some.injEq] at h
  case push | rel => subst h; simp
  case pull | endOf | fail =>
    obtain ⟨-, rfl⟩ := h
    simp

/-- No event changes a failure flag (20_memory.md R52). -/
theorem applyEvent_fail {ps ps' : Ports} {e : Event} (h : applyEvent ps e = some ps') (q : SrcPort) :
    (ps'.source q).fail = (ps.source q).fail := by
  cases e <;> simp only [applyEvent, Option.ite_none_right_eq_some, Option.some.injEq] at h
  case push | rel => subst h; simp
  case endOf | fail =>
    obtain ⟨-, rfl⟩ := h
    simp
  case pull p b =>
    obtain ⟨-, rfl⟩ := h
    cases p <;> cases q <;> rfl

/-- An event on another port, or a release, leaves a source as it is (20_memory.md R52 to R54). -/
theorem applyEvent_source {ps ps' : Ports} {e : Event} {q : SrcPort} (h : applyEvent ps e = some ps')
    (he : e.port = .src q → e.isRelease = true) : ps'.source q = ps.source q := by
  cases e <;> simp only [applyEvent, Option.ite_none_right_eq_some, Option.some.injEq] at h
  case push | rel => subst h; simp
  case endOf | fail =>
    obtain ⟨-, rfl⟩ := h
    simp
  case pull p b =>
    obtain ⟨-, rfl⟩ := h
    have hne : q ≠ p := by
      rintro rfl
      exact nomatch he rfl
    rw [record_source, setSource_source_other _ _ hne]

/-- An event on another port, or a release, leaves a log as it is (20_memory.md R52 to R54). -/
theorem applyEvent_log {ps ps' : Ports} {e : Event} {q : SinkPort} (h : applyEvent ps e = some ps')
    (he : e.port = .sink q → e.isRelease = true) : ps'.log q = ps.log q := by
  cases e <;> simp only [applyEvent, Option.ite_none_right_eq_some, Option.some.injEq] at h
  case rel => subst h; simp
  case pull | endOf | fail =>
    obtain ⟨-, rfl⟩ := h
    simp
  case push p b =>
    subst h
    have hne : q ≠ p := by
      rintro rfl
      exact nomatch he rfl
    rw [record_log, setLog_log_other _ _ hne]

/-! ### A list of events -/

theorem applyEvents_append (es es' : List Event) (ps : Ports) :
    applyEvents (es ++ es') ps = (applyEvents es ps).bind (applyEvents es') := by
  induction es generalizing ps with
  | nil => rfl
  | cons e es ih => simp [applyEvents, ih, Option.bind_assoc]

/-- What every event of a list keeps, the list keeps. -/
theorem applyEvents_keeps {α : Type} {f : Ports → α} {es : List Event} {ps ps' : Ports}
    (hf : ∀ e ∈ es, ∀ a b, applyEvent a e = some b → f b = f a) (h : applyEvents es ps = some ps') : f ps' = f ps := by
  induction es generalizing ps with
  | nil => cases h; rfl
  | cons e es ih =>
    obtain ⟨ps1, h1, h2⟩ := Option.bind_eq_some_iff.mp h
    exact (ih (fun e' he' => hf e' (List.mem_cons_of_mem e he')) h2).trans (hf e List.mem_cons_self _ _ h1)

/-- The events lead from the one state of the ports to the other, and `hist` grows by them. -/
def Ports.Runs (evs : List Event) (ps ps' : Ports) : Prop :=
  ps'.hist = ps.hist ++ evs ∧ applyEvents evs ps = some ps'

theorem runs_append {es es' : List Event} {a b c : Ports} (h : Ports.Runs es a b) (h' : Ports.Runs es' b c) :
    Ports.Runs (es ++ es') a c := by
  obtain ⟨hist, happly⟩ := h
  obtain ⟨hist', happly'⟩ := h'
  refine ⟨by rw [hist', hist, List.append_assoc], ?_⟩
  rw [applyEvents_append, happly]
  exact happly'

theorem runs_event {e : Event} {ps ps' : Ports} (h : applyEvent ps e = some ps') : Ports.Runs [e] ps ps' :=
  ⟨applyEvent_hist h, by rw [applyEvents, h]; rfl⟩

/-! ### Accesses and releases -/

/-- Accesses of the ports `l` (20_memory.md R51) and then the events `rels` lead from the one state of the ports to the
other. -/
def Ports.Accesses (l : List Port) (rels : List Event) (ps ps' : Ports) : Prop :=
  ∃ evs, (∀ e ∈ evs, e.isRelease = false ∧ e.port ∈ l) ∧ Ports.Runs (evs ++ rels) ps ps'

section Accesses
variable {l : List Port} {rels : List Event} {a b c : Ports}

theorem accesses_refl (l : List Port) (ps : Ports) : Ports.Accesses l [] ps ps :=
  ⟨[], nofun, by simp, rfl⟩

theorem accesses_trans (h : Ports.Accesses l [] a b) (h' : Ports.Accesses l rels b c) : Ports.Accesses l rels a c := by
  obtain ⟨evs, hevs, hrun⟩ := h
  obtain ⟨evs', hevs', hrun'⟩ := h'
  rw [List.append_nil] at hrun
  refine ⟨evs ++ evs', List.forall_mem_append.mpr ⟨hevs, hevs'⟩, ?_⟩
  rw [List.append_assoc]
  exact runs_append hrun hrun'

theorem accesses_event {e : Event} (hrel : e.isRelease = false) (hport : e.port ∈ l) (h : applyEvent a e = some b) :
    Ports.Accesses l [] a b :=
  ⟨[e], by simp [hrel, hport], runs_event h⟩

theorem accesses_release (l : List Port) (p : Port) (ps : Ports) :
    Ports.Accesses l [.rel p] ps (ps.record (.rel p)) :=
  ⟨[], nofun, runs_event rfl⟩

theorem accesses_push {p : SinkPort} (hp : .sink p ∈ l) (x : Byte) (ps : Ports) :
    Ports.Accesses l [] ps ((ps.setLog p (ps.log p ++ [x])).record (.push p x)) :=
  accesses_event (e := .push p x) rfl hp rfl

/-- The failure flags of the sources, which no command changes (20_memory.md R52). -/
def Ports.failed (ps : Ports) (p : SrcPort) : Bool := (ps.source p).fail

theorem accesses_failed (h : Ports.Accesses l rels a b) : b.failed = a.failed := by
  obtain ⟨evs, -, -, happly⟩ := h
  funext q
  exact applyEvents_keeps (f := fun ps => (ps.source q).fail) (fun _ _ _ _ he => applyEvent_fail he q) happly

/-- Whatever a pull answers, it is an access of its port (20_memory.md R52). -/
theorem pull_accesses {p : SrcPort} (hp : .src p ∈ l) (ps : Ports) :
    ∃ x ps', pull p ps = .ok x ps' ∧ Ports.Accesses l [] ps ps' ∧ (x = .fail → ps.failed p = true) := by
  obtain ⟨hf, h⟩ | ⟨hf, hq, h⟩ | ⟨b, rest, hf, hq, h⟩ := pull_cases p ps
  · exact ⟨_, _, h, accesses_event (e := .fail p) rfl hp (by simp [applyEvent, hf]), fun _ => hf⟩
  · exact ⟨_, _, h, accesses_event (e := .endOf p) rfl hp (by simp [applyEvent, hf, hq]), nofun⟩
  · exact ⟨_, _, h, accesses_event (e := .pull p b) rfl hp (by simp [applyEvent, hf, hq]), nofun⟩

end Accesses

/-! ### How a part of a command can end -/

/-- From the ports `ps`, a part of a command that ended so accessed the ports `l` alone and then did the releases that
`Q` allows for that end (`none` for *completed*, an error otherwise). -/
def EndsIn {α : Type} (l : List Port) (Q : Option Err → List Event → Prop) (ps : Ports) :
    EStateM.Result Stop Ports α → Prop
  | .ok _ ps' => ∃ rels, Q none rels ∧ Ports.Accesses l rels ps ps'
  | .error (.err e) ps' => ∃ rels, Q (some e) rels ∧ Ports.Accesses l rels ps ps'
  | .error .overrun _ => True

/-- On sources with the failure flags `F`, the part of a command ends so. -/
def Traces {α : Type} (F : SrcPort → Bool) (l : List Port) (Q : Option Err → List Event → Prop) (m : PortM α) : Prop :=
  ∀ ps : Ports, ps.failed = F → EndsIn l Q ps (m ps)

/-- Nothing is released, and an error is one of `E`. -/
def Quiet (E : Err → Prop) (o : Option Err) (rels : List Event) : Prop := rels = [] ∧ ∀ e, o = some e → E e

theorem quiet_none (E : Err → Prop) : Quiet E none [] := ⟨rfl, nofun⟩

theorem quiet_some {E : Err → Prop} {e : Err} (h : E e) : Quiet E (some e) [] :=
  ⟨rfl, fun _ he => Option.some.inj he ▸ h⟩

section Traces
variable {F : SrcPort → Bool} {l : List Port} {Q : Option Err → List Event → Prop} {E : Err → Prop} {α β : Type}

/-- What was accessed before belongs to the same command. -/
theorem endsIn_trans {a b : Ports} {r : EStateM.Result Stop Ports α} (h : Ports.Accesses l [] a b)
    (hr : EndsIn l Q b r) : EndsIn l Q a r := by
  match r, hr with
  | .ok _ _, ⟨rels, hQ, hacc⟩ => exact ⟨rels, hQ, accesses_trans h hacc⟩
  | .error (.err _) _, ⟨rels, hQ, hacc⟩ => exact ⟨rels, hQ, accesses_trans h hacc⟩
  | .error .overrun _, _ => trivial

theorem endsIn_of_ok {m : PortM α} {a : α} {rels : List Event} {ps ps' : Ports} (h : m ps = .ok a ps')
    (hQ : Q none rels) (hacc : Ports.Accesses l rels ps ps') : EndsIn l Q ps (m ps) := by
  rw [h]
  exact ⟨rels, hQ, hacc⟩

/-- After a part that completed and released nothing, the rest decides. -/
theorem endsIn_bind_of_ok {m : PortM α} {f : α → PortM β} {a : α} {ps ps' : Ports} (h : m ps = .ok a ps')
    (hacc : Ports.Accesses l [] ps ps') (hps : ps.failed = F) (hf : Traces F l Q (f a)) :
    EndsIn l Q ps ((m >>= f) ps) := by
  rw [bind_run, h]
  exact endsIn_trans hacc (hf ps' ((accesses_failed hacc).trans hps))

theorem traces_pure (a : α) (h : Q none []) : Traces F l Q (pure a) :=
  fun ps _ => ⟨[], h, accesses_refl l ps⟩

theorem traces_raise {e : Err} (h : Q (some e) []) : Traces F l Q (raise e : PortM α) :=
  fun ps _ => ⟨[], h, accesses_refl l ps⟩

/-- A part that releases nothing, and what comes after it. -/
theorem traces_bind {m : PortM α} {f : α → PortM β} (hm : Traces F l (Quiet E) m) (hE : ∀ e, E e → Q (some e) [])
    (hf : ∀ a, Traces F l Q (f a)) : Traces F l Q (m >>= f) := by
  intro ps hps
  have hm' := hm ps hps
  match hrun : m ps, hm' with
  | .ok a ps1, ⟨_, ⟨rfl, _⟩, hacc⟩ => exact endsIn_bind_of_ok hrun hacc hps (hf a)
  | .error (.err e) ps1, ⟨_, ⟨rfl, hE'⟩, hacc⟩ =>
    rw [bind_run, hrun]
    exact ⟨[], hE e (hE' e rfl), hacc⟩
  | .error .overrun ps1, _ =>
    rw [bind_run, hrun]
    trivial

theorem traces_quiet_bind {m : PortM α} {f : α → PortM β} (hm : Traces F l (Quiet E) m)
    (hf : ∀ a, Traces F l (Quiet E) (f a)) : Traces F l (Quiet E) (m >>= f) :=
  traces_bind hm (fun _ => quiet_some) hf

theorem traces_of_quiet {m : PortM α} (hm : Traces F l (Quiet E) m) (hok : Q none []) (hE : ∀ e, E e → Q (some e) []) :
    Traces F l Q m :=
  bind_pure m ▸ traces_bind hm hE fun a => traces_pure a hok

theorem traces_liftPure {x : Except Stop α} (hok : Q none []) (h : ∀ e, x = .error (.err e) → Q (some e) []) :
    Traces F l Q (liftPure x) := by
  cases x with
  | ok a => exact traces_pure a hok
  | error st =>
    cases st with
    | overrun => exact fun _ _ => trivial
    | err e => exact traces_raise (h e rfl)

/-- A pull answers that its source failed only if it has (20_memory.md R52). -/
theorem traces_pull_bind {p : SrcPort} {f : Pulled → PortM β} (hp : .src p ∈ l)
    (hfail : F p = true → Traces F l Q (f .fail)) (hend : Traces F l Q (f .endOf))
    (hbyte : ∀ b, Traces F l Q (f (.byte b))) : Traces F l Q (pull p >>= f) := by
  intro ps hps
  obtain ⟨x, ps', hrun, hacc, hx⟩ := pull_accesses hp ps
  refine endsIn_bind_of_ok hrun hacc hps ?_
  cases x with
  | byte b => exact hbyte b
  | endOf => exact hend
  | fail => exact hfail (hps ▸ hx rfl)

theorem traces_push {p : SinkPort} (hp : .sink p ∈ l) (b : Byte) : Traces F l (Quiet E) (push p b) :=
  fun ps _ => endsIn_of_ok (push_run p b ps) (quiet_none E) (accesses_push hp b ps)

theorem traces_pushAll {p : SinkPort} (hp : .sink p ∈ l) (bs : List Byte) : Traces F l (Quiet E) (pushAll p bs) := by
  induction bs with
  | nil => exact pushAll_nil p ▸ traces_pure () (quiet_none E)
  | cons b bs ih => exact pushAll_cons p b bs ▸ traces_quiet_bind (traces_push hp b) fun _ => ih

theorem traces_release (p : Port) (h : Q none [.rel p]) : Traces F l Q (release p) :=
  fun ps _ => endsIn_of_ok (release_run p ps) h (accesses_release l p ps)

/-! ### The bit channels -/

/-- WriteBit completes and at most pushes a byte on OUT (40_bitchannel.md R111). -/
theorem writeBit_accesses (hl : .sink .out ∈ l) (w : WriterChan) (b : Bool) (ps : Ports) :
    ∃ w' ps', writeBit w b ps = .ok w' ps' ∧ Ports.Accesses l [] ps ps' := by
  by_cases h : w.nb.val + 1 < 8
  · exact ⟨_, _, writeBit_buffers b h ps, accesses_refl l ps⟩
  · exact ⟨_, _, writeBit_pushes b h ps, accesses_push hl _ ps⟩

theorem traces_writeBits (hl : .sink .out ∈ l) (w : WriterChan) (bits : BitSeq) :
    Traces F l (Quiet E) (writeBits w bits) := by
  induction bits generalizing w with
  | nil => exact traces_pure w (quiet_none E)
  | cons b bits ih =>
    intro ps hps
    obtain ⟨w', ps', hrun, hacc⟩ := writeBit_accesses hl w b ps
    exact endsIn_bind_of_ok hrun hacc hps (ih w')

/-- CloseWriter completes, at most pushes a byte on OUT, and releases OUT (40_bitchannel.md R112). -/
theorem closeWriter_accesses (hl : .sink .out ∈ l) (w : WriterChan) (ps : Ports) :
    ∃ w' ps', closeWriter w ps = .ok w' ps' ∧ Ports.Accesses l [.rel (.sink .out)] ps ps' := by
  by_cases h : w.nb.val = 0
  · exact ⟨_, _, closeWriter_empty h ps, accesses_release l _ ps⟩
  · exact ⟨_, _, closeWriter_pads (Nat.pos_of_ne_zero h) ps,
      accesses_trans (accesses_push hl _ ps) (accesses_release l _ _)⟩

/-- ReadBit answers after at most one pull of IN (40_bitchannel.md R113). -/
theorem readBit_accesses (hl : .src .inp ∈ l) (r : ReaderChan) (ps : Ports) :
    ∃ x r' ps', readBit r ps = .ok (x, r') ps' ∧ Ports.Accesses l [] ps ps' := by
  by_cases h : r.nb.val = 0
  · obtain ⟨x, ps', hrun, hacc, -⟩ := pull_accesses hl ps
    rw [readBit_pulls h, hrun]
    cases x <;> exact ⟨_, _, _, rfl, hacc⟩
  · exact ⟨_, _, _, readBit_buffered h ps, accesses_refl l ps⟩

/-! ### The codecs' parts -/

theorem traces_readAll (hl : .src .inp ∈ l) (inMax : Option Nat) :
    Traces F l (Quiet fun e => e = .emptyInput ∨ e = .capacityExceeded) (readAll inMax) := by
  suffices hloop : ∀ n buf, Traces F l (Quiet fun e => e = .emptyInput ∨ e = .capacityExceeded)
      (readAllLoop inMax n buf) from fun ps hps => hloop _ [] ps hps
  intro n
  induction n with
  | zero => exact fun _ _ _ => trivial
  | succ n ih =>
    refine fun buf => traces_pull_bind hl (fun _ => ?_) ?_ fun b => ?_
    · exact traces_raise (quiet_some (.inl rfl))
    · exact traces_pure buf (quiet_none _)
    · split_ifs
      · exact traces_raise (quiet_some (.inr rfl))
      · exact ih _

section Table
variable (hl : .src .tbli ∈ l) (hF : F .tbli = false)
include hl hF

theorem traces_pullT : Traces F l (Quiet (· = .corruptTable)) pullT :=
  traces_pull_bind hl (fun hfail => nomatch hF.symm.trans hfail) (traces_raise (quiet_some rfl))
    fun b => traces_pure b (quiet_none _)

theorem traces_readDigits (n : Nat) (p : BitSeq) : Traces F l (Quiet (· = .corruptTable)) (readDigits n p) := by
  induction n generalizing p with
  | zero => exact fun _ _ => trivial
  | succ n ih =>
    refine traces_quiet_bind (traces_pullT hl hF) fun y => ?_
    split_ifs
    · exact traces_pure p (quiet_none _)
    · exact traces_raise (quiet_some rfl)
    · exact ih _
    · exact traces_raise (quiet_some rfl)

theorem traces_readRecord : Traces F l (Quiet (· = .corruptTable)) readRecord := by
  refine traces_quiet_bind (traces_pullT hl hF) fun x => ?_
  split_ifs
  · refine traces_quiet_bind (traces_pullT hl hF) fun y => ?_
    split_ifs
    · exact traces_pure _ (quiet_none _)
    · exact traces_raise (quiet_some rfl)
  · exact traces_quiet_bind (traces_readDigits hl hF _ _) fun p => traces_pure _ (quiet_none _)
  · exact traces_raise (quiet_some rfl)

/-- A TBLI that has not failed: the table is read or is CorruptTable (42_huffman_decoder.md R171). -/
theorem traces_readRecords (n : Nat) : Traces F l (Quiet (· = .corruptTable)) (readRecords n) := by
  induction n with
  | zero => exact traces_pure _ (quiet_none _)
  | succ n ih =>
    exact traces_quiet_bind (traces_readRecord hl hF) fun r =>
      traces_quiet_bind ih fun rs => traces_pure _ (quiet_none _)

end Table

theorem traces_releaseAndRaise {e : Err} (h : Q (some e) [.rel (.src .inp)]) : Traces F l Q (releaseAndRaise e) :=
  fun ps _ => ⟨_, h, accesses_release l _ ps⟩

/-- HUF_DEC's loops release IN on every exit (42_huffman_decoder.md R177, R179). -/
theorem traces_decodeLoop (hin : .src .inp ∈ l) (hout : .sink .out ∈ l) (hok : Q none [.rel (.src .inp)])
    (herr : ∀ e, e = .emptyInput ∨ e = .truncatedStream ∨ e = .corruptTree → Q (some e) [.rel (.src .inp)])
    (root at_ : Root) (k : Nat) (r : ReaderChan) : Traces F l Q (decodeLoop root k at_ r) := by
  induction k generalizing at_ r with
  | zero => exact fun _ _ => trivial
  | succ k ih =>
    intro ps hps
    obtain ⟨x, r', ps', hrun, hacc⟩ := readBit_accesses hin r ps
    refine endsIn_bind_of_ok hrun hacc hps ?_
    cases x with
    | fail => exact traces_releaseAndRaise (herr _ (.inl rfl))
    | endOf => exact traces_releaseAndRaise (herr _ (.inr (.inl rfl)))
    | bit b =>
      cases hc : at_.child b with
      | empty => simpa only [hc] using traces_releaseAndRaise (herr _ (.inr (.inr rfl)))
      | branch l rt _ _ => simpa only [hc] using ih _ r'
      | leaf sym =>
        simp only [hc]
        split_ifs
        · exact traces_release _ hok
        · exact traces_bind (E := fun _ => False) (traces_push hout _) (fun _ => False.elim) fun _ => ih _ r'

end Traces

/-! ### Which error the rebuild raises -/

/-- The computation raises no error but `e`. -/
def RaisesOnly {α : Type} (e : Err) (x : Except Stop α) : Prop := ∀ e', x = .error (.err e') → e' = e

theorem raisesOnly_bind {α β : Type} {e : Err} {x : Except Stop α} {f : α → Except Stop β} (hx : RaisesOnly e x)
    (hf : ∀ a, RaisesOnly e (f a)) : RaisesOnly e (x >>= f) := by
  intro e' h
  cases x with
  | ok a => exact hf a e' h
  | error st =>
    cases h
    exact hx e' rfl

theorem raisesOnly_rebuildOnce (ns : List Pathed) : RaisesOnly .corruptTable (rebuildOnce ns) := by
  have hmerge (a b : Pathed) : RaisesOnly .corruptTable (mergePathed a b) := by
    intro e h
    unfold mergePathed at h
    split_ifs at h <;> cases h <;> rfl
  unfold rebuildOnce
  split
  · exact raisesOnly_bind (hmerge _ _) fun _ => nofun
  · exact nofun

theorem raisesOnly_rebuildLoop (n : Nat) (ns : List Pathed) : RaisesOnly .corruptTable (rebuildLoop n ns) := by
  induction n generalizing ns with
  | zero =>
    intro e h
    match ns with
    | [] => cases h; rfl
    | [_] | [_, _] | _ :: _ :: _ :: _ => cases h
  | succ n ih =>
    intro e h
    match ns with
    | [] => cases h; rfl
    | [_] | [_, _] => cases h
    | _ :: _ :: _ :: _ => exact raisesOnly_bind (raisesOnly_rebuildOnce _) ih e h

/-- A table that does not rebuild is CorruptTable (42_huffman_decoder.md R173, R174). -/
theorem rebuildTree_raisesOnly (t : CodeTable) : RaisesOnly .corruptTable (rebuildTree t) := raisesOnly_rebuildLoop _ _

/-! ### Every command -/

/-- STATUS at the end of a command (10_state.md R24). -/
def endStatus : Option Err → Status
  | none => .completed
  | some e => .failed e

/-- The releases 20_memory.md R55 lists for the command `i` from `s` when it ends so. -/
def EndsAs (i : Instr) (s : State) (o : Option Err) (rels : List Event) : Prop :=
  releasesBy i s { s with status := endStatus o } = rels

theorem hufEncBody_traces (s : State) :
    Traces s.ports.failed (portsUsed .hufEnc) (EndsAs .hufEnc s) (hufEncBody s.config) := by
  refine traces_bind (traces_readAll (by decide) _) (fun _ _ => rfl) fun input => ?_
  have htable : Traces s.ports.failed (portsUsed .hufEnc) (Quiet fun _ => True) (liftPure (encoderTable input)) :=
    traces_liftPure (quiet_none _) fun _ _ => quiet_some trivial
  refine traces_bind htable (fun _ _ => rfl) fun t => ?_
  refine traces_bind (E := fun _ => False) (traces_pushAll (by decide) _) (fun _ => False.elim) fun _ => ?_
  refine traces_bind (E := fun _ => False) (traces_writeBits (by decide) _ _) (fun _ => False.elim) fun w ps _ => ?_
  obtain ⟨w', ps', hrun, hacc⟩ := closeWriter_accesses (l := portsUsed .hufEnc) (by decide) w ps
  rw [bind_run, hrun]
  exact ⟨_, rfl, hacc⟩

theorem bind_of_error {σ α β : Type} {m : EStateM Stop σ α} {f : α → EStateM Stop σ β} {s s' : σ} {e : Stop}
    (h : m s = .error e s') : (m >>= f) s = .error e s' := by
  rw [bind_run, h]

/-- A failed TBLI: EmptyInput at the first pull (42_huffman_decoder.md R171). -/
theorem hufDecBody_failed {ps : Ports} (h : ps.tbli.fail = true) (c : Config) :
    hufDecBody c ps = .error (.err .emptyInput) (ps.record (.fail .tbli)) := by
  have hpull : pullT ps = .error (.err .emptyInput) (ps.record (.fail .tbli)) := by
    rw [pullT, bind_run, pull_failed (p := .tbli) h]
    rfl
  have hrecord : readRecord ps = .error (.err .emptyInput) (ps.record (.fail .tbli)) := bind_of_error hpull
  have htable : deserializeTable ps = .error (.err .emptyInput) (ps.record (.fail .tbli)) := bind_of_error hrecord
  exact bind_of_error htable

theorem hufDecBody_traces (s : State) :
    Traces s.ports.failed (portsUsed .hufDec) (EndsAs .hufDec s) (hufDecBody s.config) := by
  cases hF : s.ports.tbli.fail with
  | true =>
    intro ps hps
    have hfail : ps.tbli.fail = true := (congrFun hps .tbli).trans hF
    rw [hufDecBody_failed hfail]
    refine ⟨[], ?_, accesses_event (e := .fail .tbli) rfl (by decide) (if_pos hfail)⟩
    simp [EndsAs, releasesBy, endStatus, Status.failed, Err.code, hF]
  | false =>
    have hcorrupt : EndsAs .hufDec s (some .corruptTable) [] := rfl
    have htable : Traces s.ports.failed (portsUsed .hufDec) (Quiet (· = .corruptTable)) deserializeTable :=
      traces_readRecords (by decide) hF nsym
    refine traces_bind htable (fun e he => he ▸ hcorrupt) fun t => ?_
    have htree : Traces s.ports.failed (portsUsed .hufDec) (Quiet (· = .corruptTable)) (liftPure (rebuildTree t)) :=
      traces_liftPure (quiet_none _) fun e he => quiet_some (rebuildTree_raisesOnly t e he)
    refine traces_bind htree (fun e he => he ▸ hcorrupt) fun root ps hps => ?_
    refine traces_decodeLoop (by decide) (by decide) rfl (fun e he => ?_) root root _ _ ps hps
    rcases he with rfl | rfl | rfl <;> simp [EndsAs, releasesBy, endStatus, Status.failed, Err.code, hF]

theorem lzEncBody_traces (s : State) :
    Traces s.ports.failed (portsUsed .lzEnc) (EndsAs .lzEnc s) (lzEncBody s.config) :=
  traces_bind (traces_readAll (by decide) _) (fun _ _ => rfl) fun _ =>
    traces_of_quiet (E := fun _ => False) (traces_pushAll (by decide) _) rfl fun _ => False.elim

theorem lzDecBody_traces (s : State) :
    Traces s.ports.failed (portsUsed .lzDec) (EndsAs .lzDec s) (lzDecBody s.config) :=
  traces_bind (traces_readAll (by decide) _) (fun _ _ => rfl) fun _ =>
    traces_bind (E := fun _ => False) (traces_pushAll (by decide) _) (fun _ => False.elim) fun _ =>
      traces_liftPure rfl fun _ _ => rfl

/-- What a codec can do: refuse an open session, complete, or end in an error of its body (60_exceptions.md R236). -/
theorem codec_next_cases {body : Config → PortM Unit} {s s' : State} (h : runCommand (codec body) s = .next s') :
    s' = { s with status := errStatus 11#4 } ∨
    (∃ ps, body s.config s.ports = .ok () ps ∧ s' = { s with status := doneStatus, ports := ps }) ∨
    ∃ e ps, body s.config s.ports = .error (.err e) ps ∧ s' = { s with status := errStatus e.code, ports := ps } := by
  by_cases hc : s.channelsClosed
  · cases hb : body s.config s.ports with
    | ok _ ps => exact .inr (.inl ⟨ps, rfl, Host.Outcome.next.inj (h.symm.trans (runCommand_codec_ok hc hb))⟩)
    | error st ps =>
      cases st with
      | err e => exact .inr (.inr ⟨e, ps, rfl, Host.Outcome.next.inj (h.symm.trans (runCommand_codec_error hc hb))⟩)
      | overrun =>
        have hrun : codec body s.start = .error .overrun { s.start with ports := ps } := by
          rw [codec_start hc, onPorts_run, start_ports, hb]
        rw [runCommand, hrun] at h
        cases h
  · exact .inl (Host.Outcome.next.inj (h.symm.trans (runCommand_codec_open hc)))

theorem codec_accesses {i : Instr} {body : Config → PortM Unit} {s s' : State}
    (hb : Traces s.ports.failed (portsUsed i) (EndsAs i s) (body s.config)) (hseq : EndsAs i s (some .sequenceError) [])
    (h : runCommand (codec body) s = .next s') :
    Ports.Accesses (portsUsed i) (releasesBy i s s') s.ports s'.ports := by
  have hends := hb s.ports rfl
  obtain rfl | ⟨ps, hok, rfl⟩ | ⟨e, ps, herr, rfl⟩ := codec_next_cases h
  · have hrel : releasesBy i s { s with status := errStatus 11#4 } = [] := hseq
    rw [hrel]
    exact accesses_refl _ _
  · rw [hok] at hends
    obtain ⟨_, rfl, hacc⟩ := hends
    exact hacc
  · rw [herr] at hends
    obtain ⟨_, rfl, hacc⟩ := hends
    exact hacc

theorem leaves_mono {P P' : State → Prop} {α : Type} {m : Cmd α} {s : State} (h : Leaves P m s)
    (hP : ∀ s1, P s1 → P' s1) : Leaves P' m s := by
  unfold Leaves at h ⊢
  cases hrun : m s with
  | ok a s1 => exact hP s1 (by simpa only [hrun] using h)
  | error e s1 => exact hP s1 (by simpa only [hrun] using h)

section BitChannel
variable (l : List Port) (s : State)

theorem bwOpen_accesses : Leaves (fun s1 => Ports.Accesses l [] s.ports s1.ports) bwOpen s := by
  unfold Leaves bwOpen
  split_ifs <;> exact accesses_refl l s.ports

theorem brOpen_accesses : Leaves (fun s1 => Ports.Accesses l [] s.ports s1.ports) brOpen s := by
  unfold Leaves brOpen
  split_ifs <;> exact accesses_refl l s.ports

variable {l}

theorem bwWrite_accesses (hl : .sink .out ∈ l) (opa : Byte) :
    Leaves (fun s1 => Ports.Accesses l [] s.ports s1.ports) (bwWrite opa) s := by
  refine leaves_get_bind ?_
  split_ifs
  · cases bitOperand opa with
    | none => exact leaves_raise _ (accesses_refl l s.ports)
    | some b =>
      obtain ⟨w, ps, hrun, hacc⟩ := writeBit_accesses hl s.wChan b s.ports
      exact leaves_of_ok (onWriter_of_ok hrun) hacc
  · exact leaves_raise _ (accesses_refl l s.ports)

theorem bwClose_accesses (hl : .sink .out ∈ l) :
    Leaves (fun s1 => Ports.Accesses l (if s.wOpen then [.rel (.sink .out)] else []) s.ports s1.ports) bwClose s := by
  refine leaves_get_bind ?_
  split_ifs
  · obtain ⟨w, ps, hrun, hacc⟩ := closeWriter_accesses hl s.wChan s.ports
    exact leaves_bind_of_ok (onWriter_of_ok hrun) (leaves_of_ok (modify_run _ _) hacc)
  · exact leaves_pure _ (accesses_refl l s.ports)

theorem brClose_accesses :
    Leaves (fun s1 => Ports.Accesses l (if s.rOpen then [.rel (.src .inp)] else []) s.ports s1.ports) brClose s := by
  refine leaves_get_bind ?_
  split_ifs
  · exact leaves_bind_of_ok rfl (leaves_of_ok (modify_run _ _) (accesses_release l _ s.ports))
  · exact leaves_pure _ (accesses_refl l s.ports)

/-- A read of the host's reader, and then no more accesses (40_bitchannel.md R118, R119). -/
theorem hostReadBit_bind_accesses (hl : .src .inp ∈ l) {f : BitRead → Cmd Unit}
    (hf : ∀ x s1, Leaves (fun s2 => s2.ports = s1.ports) (f x) s1) :
    Leaves (fun s1 => Ports.Accesses l [] s.ports s1.ports) (hostReadBit >>= f) s := by
  obtain ⟨x, r, ps, hrun, hacc⟩ := readBit_accesses hl s.rChan s.ports
  refine leaves_bind_of_ok (hostReadBit_of_ok hrun) (leaves_mono (hf x _) fun s2 h2 => ?_)
  rwa [h2]

theorem brRead_accesses (hl : .src .inp ∈ l) :
    Leaves (fun s1 => Ports.Accesses l [] s.ports s1.ports) brRead s := by
  refine leaves_get_bind ?_
  split_ifs
  · refine hostReadBit_bind_accesses s hl fun x s1 => ?_
    cases x with
    | bit b => exact leaves_of_ok rfl rfl
    | endOf => exact leaves_of_ok rfl rfl
    | fail => exact leaves_raise _ rfl
  · exact leaves_of_ok rfl (accesses_refl l s.ports)

theorem brReadReq_accesses (hl : .src .inp ∈ l) :
    Leaves (fun s1 => Ports.Accesses l [] s.ports s1.ports) brReadReq s := by
  refine leaves_get_bind ?_
  split_ifs
  · refine hostReadBit_bind_accesses s hl fun x s1 => ?_
    cases x with
    | bit b => exact leaves_of_ok rfl rfl
    | endOf => exact leaves_bind_of_ok rfl (leaves_raise _ rfl)
    | fail => exact leaves_raise _ rfl
  · exact leaves_bind_of_ok rfl (leaves_raise _ (accesses_refl l s.ports))

end BitChannel

theorem runCommand_accesses {l : List Port} {rels : List Event} {body : Cmd Unit} {s s' : State}
    (hb : Leaves (fun s1 => Ports.Accesses l rels s.ports s1.ports) body s.start)
    (h : runCommand body s = .next s') : Ports.Accesses l rels s.ports s'.ports := by
  obtain ⟨hacc, -⟩ := runCommand_next_of_leaves hb (fun _ _ h1 => h1) h
  exact hacc

/-- A command accesses the ports listed for it alone and then does the releases of 20_memory.md R55 (R51, R55). -/
theorem exec_accesses {i : Instr} {s s' : State} (h : exec i s = .next s') :
    Ports.Accesses (portsUsed i) (releasesBy i s s') s.ports s'.ports := by
  cases i with
  | bwOpen => exact runCommand_accesses (bwOpen_accesses _ s.start) h
  | bwWrite opa => exact runCommand_accesses (bwWrite_accesses s.start List.mem_cons_self opa) h
  | bwClose => exact runCommand_accesses (bwClose_accesses s.start (by decide)) h
  | brOpen => exact runCommand_accesses (brOpen_accesses _ s.start) h
  | brRead => exact runCommand_accesses (brRead_accesses s.start (by decide)) h
  | brReadReq => exact runCommand_accesses (brReadReq_accesses s.start (by decide)) h
  | brClose => exact runCommand_accesses (brClose_accesses s.start) h
  | hufEnc => exact codec_accesses (hufEncBody_traces s) rfl h
  | hufDec => exact codec_accesses (hufDecBody_traces s) rfl h
  | lzEnc => exact codec_accesses (lzEncBody_traces s) rfl h
  | lzDec => exact codec_accesses (lzDecBody_traces s) rfl h

/-! ### What follows for the history -/

theorem newEvents_of_runs {evs : List Event} {s s' : State} (h : Ports.Runs evs s.ports s'.ports) :
    newEvents s s' = evs := by
  obtain ⟨hist, -⟩ := h
  rw [newEvents, hist, List.drop_left]

/-- Settles O51: each access and each release is explained by its event. -/
theorem eventHistoryExplainsPorts : Obligations.EventHistoryExplainsPorts := by
  intro i s s' h
  obtain ⟨evs, -, hrun⟩ := exec_accesses h
  rw [newEvents_of_runs hrun]
  exact hrun

/-- A command releases at most one port (20_memory.md R55). -/
theorem releasesBy_cases (i : Instr) (s s' : State) :
    releasesBy i s s' = [] ∨ ∃ p, releasesBy i s s' = [.rel p] := by
  cases i <;> simp only [releasesBy]
  case bwClose | brClose =>
    split_ifs
    · exact .inr ⟨_, rfl⟩
    · exact .inl rfl
  case hufEnc | hufDec =>
    split_ifs
    · exact .inl rfl
    · exact .inr ⟨_, rfl⟩
  all_goals exact .inl trivial

theorem releasesBy_isRelease {i : Instr} {s s' : State} {e : Event} (he : e ∈ releasesBy i s s') :
    e.isRelease = true := by
  obtain h | ⟨p, h⟩ := releasesBy_cases i s s' <;> rw [h] at he
  · cases he
  · rw [List.mem_singleton.mp he]
    rfl

/-- Settles O50: no access is a release, and the releases come last. -/
theorem releasesByCommand : Obligations.ReleasesByCommand := by
  intro i s s' h
  obtain ⟨evs, hevs, hrun⟩ := exec_accesses h
  rw [newEvents_of_runs hrun]
  refine ⟨?_, fun e he => ?_⟩
  · have hnone : evs.filter Event.isRelease = [] :=
      List.filter_eq_nil_iff.mpr fun e he => by simp [(hevs e he).1]
    rw [List.filter_append, hnone, List.nil_append]
    exact List.filter_eq_self.mpr fun _ => releasesBy_isRelease
  · obtain hrel | ⟨p, hrel⟩ := releasesBy_cases i s s' <;> rw [hrel] at he ⊢
    · cases he
    · rw [List.mem_singleton.mp he, List.getLast?_concat]

/-- Settles O49: an event on a port not listed is a release, and a release leaves every port's contents as they are. -/
theorem portsNotListedAreUntouched : Obligations.PortsNotListedAreUntouched := by
  intro i s s' p h hp
  obtain ⟨evs, hevs, hrun⟩ := exec_accesses h
  have hother : ∀ e ∈ evs ++ releasesBy i s s', e.port = p → e.isRelease = true := by
    intro e he hport
    rcases List.mem_append.mp he with he | he
    · exact absurd (hport ▸ (hevs e he).2) hp
    · exact releasesBy_isRelease he
  refine ⟨by rwa [newEvents_of_runs hrun], ?_⟩
  obtain ⟨-, happly⟩ := hrun
  cases p with
  | src q => exact applyEvents_keeps (f := (·.source q)) (fun e he _ _ h1 => applyEvent_source h1 (hother e he)) happly
  | sink q => exact applyEvents_keeps (f := (·.log q)) (fun e he _ _ h1 => applyEvent_log h1 (hother e he)) happly

end Sys2Proof.Machine
end

section
/-! PROOF. Bits packed into bytes (30_encoding.md R90): the writer's side, bit by bit, and the reader's side; the two
host sessions of 40_bitchannel.md. -/

namespace Sys2Proof.Machine

/-! ### Packed bits -/

theorem bitsValue_concat (p : BitSeq) (b : Bool) : bitsValue (p ++ [b]) = 2 * bitsValue p + b.toNat := by
  simp [bitsValue]

theorem bitsValue_append_zeros (p : BitSeq) (n : Nat) :
    bitsValue (p ++ List.replicate n false) = bitsValue p * 2 ^ n := by
  induction n with
  | zero => simp
  | succ n ih =>
    rw [List.replicate_succ', ← List.append_assoc, bitsValue_concat, ih, pow_succ]
    simp
    ring

/-- The bits of byte `j`, a missing one 0 (30_encoding.md R90). -/
def bitsOfByte (bits : BitSeq) (j : Nat) : BitSeq := (List.range 8).map fun k => bits.getD (8 * j + k) false

theorem packedByte_eq (bits : BitSeq) (j : Nat) :
    packedByte bits j = BitVec.ofNat 8 (bitsValue (bitsOfByte bits j)) := by
  simp only [packedByte, bitsValue, bitsOfByte, List.foldl_map]

theorem bitsOfByte_zero_of_length {p : BitSeq} (h : p.length = 8) (rest : BitSeq) : bitsOfByte (p ++ rest) 0 = p := by
  refine List.ext_getElem (by simp [bitsOfByte, h]) fun k _ hk => ?_
  simp [bitsOfByte, List.getElem?_append_left hk, List.getElem?_eq_getElem hk]

theorem bitsOfByte_succ {p : BitSeq} (h : p.length = 8) (rest : BitSeq) (j : Nat) :
    bitsOfByte (p ++ rest) (j + 1) = bitsOfByte rest j := by
  refine List.map_congr_left fun k _ => ?_
  rw [List.getD_append_right _ _ _ _ (by omega), h, show 8 * (j + 1) + k - 8 = 8 * j + k by omega]

theorem bitsOfByte_zero_of_lt {p : BitSeq} (h : p.length < 8) :
    bitsOfByte p 0 = p ++ List.replicate (8 - p.length) false := by
  refine List.ext_getElem (by simp [bitsOfByte]; omega) fun k _ hk => ?_
  by_cases hkp : k < p.length
  · simp [bitsOfByte, List.getElem_append_left hkp, List.getElem?_eq_getElem hkp]
  · simp [bitsOfByte, List.getElem_append_right (Nat.le_of_not_lt hkp), List.getElem?_eq_none (Nat.le_of_not_lt hkp)]

@[simp] theorem packBits_nil : packBits [] = [] := rfl

@[simp] theorem packBits_length (bits : BitSeq) : (packBits bits).length = (bits.length + 7) / 8 := by simp [packBits]

/-- Eight bits are one byte, and the rest is packed after it (30_encoding.md R90). -/
theorem packBits_append_of_length {p : BitSeq} (h : p.length = 8) (rest : BitSeq) :
    packBits (p ++ rest) = BitVec.ofNat 8 (bitsValue p) :: packBits rest := by
  have hlen : ((p ++ rest).length + 7) / 8 = (rest.length + 7) / 8 + 1 := by
    rw [List.length_append]
    omega
  rw [packBits, hlen, List.range_succ_eq_map, List.map_cons, packedByte_eq, bitsOfByte_zero_of_length h, List.map_map]
  refine congrArg _ (List.map_congr_left fun j _ => ?_)
  simp only [Function.comp, packedByte_eq, bitsOfByte_succ h]

/-- One to seven bits are one byte, padded with zeros (30_encoding.md R90). -/
theorem packBits_of_lt {p : BitSeq} (hpos : 0 < p.length) (h : p.length < 8) :
    packBits p = [BitVec.ofNat 8 (bitsValue p) <<< (8 - p.length)] := by
  have hlen : (p.length + 7) / 8 = 1 := by omega
  have hbyte : packedByte p 0 = BitVec.ofNat 8 (bitsValue p) <<< (8 - p.length) := by
    rw [packedByte_eq, bitsOfByte_zero_of_lt h, bitsValue_append_zeros]
    exact BitVec.eq_of_toNat_eq (by simp [Nat.shiftLeft_eq])
  simp [packBits, hlen, hbyte]

/-! ### The writer -/

/-- The writer has buffered the bits `p` (40_bitchannel.md R111). -/
def WriterChan.Holds (w : WriterChan) (p : BitSeq) : Prop := w.nb.val = p.length ∧ w.acc = BitVec.ofNat 8 (bitsValue p)

theorem fresh_holds : WriterChan.fresh.Holds [] := ⟨rfl, rfl⟩

theorem appendBit_eq {w : WriterChan} {p : BitSeq} (h : w.Holds p) (b : Bool) :
    w.acc * 2#8 + bitByte b = BitVec.ofNat 8 (bitsValue (p ++ [b])) := by
  obtain ⟨-, hacc⟩ := h
  rw [hacc, bitsValue_concat]
  cases b <;> exact BitVec.eq_of_toNat_eq (by simp [bitByte]; omega)

/-- The ports after the bytes `bs` were pushed on OUT (20_memory.md R53). -/
def Ports.pushed (ps : Ports) (bs : List Byte) : Ports :=
  { ps with out := ps.out ++ bs, hist := ps.hist ++ bs.map (Event.push .out) }

@[simp] theorem pushed_nil (ps : Ports) : ps.pushed [] = ps := by simp [Ports.pushed]

theorem pushed_cons (ps : Ports) (b : Byte) (bs : List Byte) :
    ps.pushed (b :: bs) = ((ps.setLog .out (ps.log .out ++ [b])).record (.push .out b)).pushed bs := by
  simp [Ports.pushed, Ports.setLog, Ports.log, Ports.record]

theorem closeWriter_holds {w : WriterChan} {p : BitSeq} (h : w.Holds p) (ps : Ports) :
    closeWriter w ps = .ok .fresh ((ps.pushed (packBits p)).record (.rel (.sink .out))) := by
  obtain ⟨hnb, hacc⟩ := id h
  cases p with
  | nil =>
    have hfits : w.fits = true := decide_eq_true (by rw [hacc]; simp [bitsValue])
    rw [closeWriter_empty hnb, eq_fresh_of_fits hfits hnb, packBits_nil, pushed_nil]
  | cons b p =>
    have hlt : (b :: p).length < 8 := hnb ▸ w.nb.isLt
    rw [closeWriter_pads (by simp [hnb]), packBits_of_lt (by simp) hlt, pushed_cons, pushed_nil, hacc, hnb]

/-- WriteBit for each bit and then CloseWriter put the packed bits on OUT and release it (40_bitchannel.md R111,
R112). -/
theorem writeBits_then_closeWriter {w : WriterChan} {p : BitSeq} (h : w.Holds p) (bits : BitSeq) (ps : Ports) :
    ∃ w' ps', writeBits w bits ps = .ok w' ps' ∧
      closeWriter w' ps' = .ok .fresh ((ps.pushed (packBits (p ++ bits))).record (.rel (.sink .out))) := by
  induction bits generalizing w p ps with
  | nil => exact ⟨w, ps, rfl, by rw [List.append_nil, closeWriter_holds h]⟩
  | cons b bits ih =>
    have hbyte := appendBit_eq h b
    obtain ⟨hnb, -⟩ := id h
    have hsplit : p ++ b :: bits = p ++ [b] ++ bits := by simp
    by_cases hlt : w.nb.val + 1 < 8
    · obtain ⟨w', ps', hwrite, hclose⟩ := ih (w := ⟨w.acc * 2#8 + bitByte b, ⟨w.nb.val + 1, hlt⟩⟩) (p := p ++ [b])
        ⟨by simp [hnb], hbyte⟩ ps
      exact ⟨w', ps', by rw [writeBits, bind_run, writeBit_buffers b hlt, ← hwrite], by rw [hsplit, hclose]⟩
    · have hlen : (p ++ [b]).length = 8 := by
        rw [List.length_append, ← hnb]
        simp
        omega
      obtain ⟨w', ps', hwrite, hclose⟩ := ih fresh_holds
        ((ps.setLog .out (ps.log .out ++ [w.acc * 2#8 + bitByte b])).record (.push .out (w.acc * 2#8 + bitByte b)))
      refine ⟨w', ps', by rw [writeBits, bind_run, writeBit_pushes b hlt, ← hwrite], ?_⟩
      rw [hclose, hsplit, packBits_append_of_length hlen, ← hbyte, pushed_cons, List.nil_append]

/-! ### A writer session of the host -/

theorem exec_bwOpen_closed {s : State} (h : s.wOpen = false) :
    exec .bwOpen s = .next { s with status := doneStatus, wOpen := true, wChan := .fresh } :=
  runCommand_of_ok (s' := { s.start with wOpen := true, wChan := .fresh }) (by simp [bwOpen, h])

theorem exec_bwWrite_bit {s : State} {b : Bool} {w : WriterChan} {ps : Ports} (ho : s.wOpen = true)
    (h : writeBit s.wChan b s.ports = .ok w ps) :
    exec (.bwWrite (if b then 1#8 else 0#8)) s = .next { s with status := doneStatus, wChan := w, ports := ps } := by
  have hbit : bitOperand (if b then 1#8 else 0#8) = some b := by cases b <;> rfl
  have hrun : onWriter (fun w => writeBit w b) s.start = .ok () { s.start with ports := ps, wChan := w } :=
    onWriter_of_ok (s := s.start) h
  exact runCommand_of_ok (s' := { s.start with ports := ps, wChan := w })
    (by simp only [bwWrite, bind_run, get_run, start_wOpen, ho, if_true, hbit, hrun])

theorem exec_bwClose_open {s : State} {w : WriterChan} {ps : Ports} (ho : s.wOpen = true)
    (h : closeWriter s.wChan s.ports = .ok w ps) :
    exec .bwClose s = .next { s with status := doneStatus, wOpen := false, wChan := w, ports := ps } := by
  have hrun : onWriter closeWriter s.start = .ok () { s.start with ports := ps, wChan := w } :=
    onWriter_of_ok (s := s.start) h
  exact runCommand_of_ok (s' := { s.start with ports := ps, wChan := w, wOpen := false })
    (by simp [bwClose, bind_run, ho, hrun])

/-- BW_BITS is WriteBit for each bit (30_encoding.md R87). -/
theorem runCommands_bwBits {s : State} {bits : BitSeq} {w : WriterChan} {ps : Ports} (hst : s.status = doneStatus)
    (ho : s.wOpen = true) (h : writeBits s.wChan bits s.ports = .ok w ps) (is : List Instr) :
    runCommands (bwBits bits ++ is) s = runCommands is { s with wChan := w, ports := ps } := by
  induction bits generalizing s with
  | nil => cases h; rfl
  | cons b bits ih =>
    obtain ⟨w1, ps1, h1, h2⟩ := bind_ok h
    have hrest := ih (s := { s with status := doneStatus, wChan := w1, ports := ps1 }) rfl ho h2
    simp only [bwBits, List.map_cons, List.cons_append, runCommands, exec_bwWrite_bit ho h1]
    rw [← bwBits, hrest, ← hst]

/-- Settles O17: the session is WriteBit for each bit on an empty channel, and CloseWriter. -/
theorem writerSessionEmitsPackedBits : Obligations.WriterSessionEmitsPackedBits := by
  intro s bits hclosed
  obtain ⟨w, ps, hwrite, hclose⟩ := writeBits_then_closeWriter fresh_holds bits s.ports
  rw [List.cons_append, runCommands, exec_bwOpen_closed hclosed]
  simp only
  rw [runCommands_bwBits (w := w) (ps := ps) rfl rfl hwrite]
  simp only [runCommands]
  rw [exec_bwClose_open rfl hclose]
  simp [Ports.pushed, Ports.record, WriterChan.fresh, ← hclosed]

/-! ### A reader session of the host -/

theorem foldl_bits_testBit (f : Nat → Bool) (n : Nat) {i : Nat} (h : i < n) :
    ((List.range n).foldl (fun v k => 2 * v + (f k).toNat) 0).testBit (n - 1 - i) = f i := by
  induction n generalizing i with
  | zero => omega
  | succ n ih =>
    rw [List.range_succ, List.foldl_append]
    by_cases hi : i = n
    · subst hi
      cases hf : f i <;> simp [hf, Nat.testBit_zero, Nat.add_mod]
    · have hpos : n + 1 - 1 - i = n - 1 - i + 1 := by omega
      rw [hpos, Nat.testBit_succ, ← ih (by omega)]
      refine congrArg (Nat.testBit · _) ?_
      have hbit := Bool.toNat_le (f n)
      simp only [List.foldl_cons, List.foldl_nil]
      omega

/-- Bit `7 - i` of byte `j` is bit `8 * j + i` of the stream (20_memory.md R57, 30_encoding.md R90). -/
theorem packedByte_getLsbD (bits : BitSeq) (j : Nat) {i : Nat} (h : i < 8) :
    (packedByte bits j).getLsbD (7 - i) = bits.getD (8 * j + i) false := by
  have hbit := foldl_bits_testBit (fun k => bits.getD (8 * j + k) false) 8 h
  have h8 : 7 - i < 8 := by omega
  rw [packedByte, BitVec.getLsbD_ofNat, ← hbit, decide_eq_true h8, Bool.true_and]

/-- The bits stand at the start of their packed bytes (30_encoding.md R90). -/
theorem prefix_packBits (bits : BitSeq) : bits <+: (packBits bits).flatMap byteBits := by
  refine List.prefix_iff_getElem?.mpr fun k hk => ?_
  have hlen : k / 8 < (bits.length + 7) / 8 := by omega
  have hbyte : (packBits bits).getD (k / 8) 0#8 = packedByte bits (k / 8) := by
    simp [packBits, hlen]
  rw [flatMap_byteBits_getElem? _ (by rw [packBits_length]; omega), hbyte,
    packedByte_getLsbD _ _ (Nat.mod_lt k (by decide)), Nat.div_add_mod]
  simp [hk]

theorem exec_brOpen_closed {s : State} (h : s.rOpen = false) :
    exec .brOpen s = .next { s with status := doneStatus, rOpen := true, rChan := .fresh } :=
  runCommand_of_ok (s' := { s.start with rOpen := true, rChan := .fresh }) (by simp [brOpen, h])

theorem exec_brRead_bit {s : State} {b : Bool} {r : ReaderChan} {ps : Ports} (ho : s.rOpen = true)
    (h : readBit s.rChan s.ports = .ok (.bit b, r) ps) :
    exec .brRead s = .next { s with status := doneStatus, result := .ofBit b, rChan := r, ports := ps } := by
  have hrun : hostReadBit s.start = .ok (.bit b) { s.start with ports := ps, rChan := r } :=
    hostReadBit_of_ok (s := s.start) h
  exact runCommand_of_ok (s' := { s.start with ports := ps, rChan := r, result := .ofBit b })
    (by simp only [brRead, bind_run, get_run, start_rOpen, ho, if_true, hrun]; rfl)

/-- BR_READs at bit `k` of a payload return the bits that stand there (30_encoding.md R87, 40_bitchannel.md R118). -/
theorem brReads_at {payload tail : List Byte} {bits : BitSeq} {s : State} {k : Nat} (ho : s.rOpen = true)
    (hr : s.rChan = readerAt payload k) (hat : s.ports.atBit payload tail k)
    (hbits : bits <+: (payload.flatMap byteBits).drop k) :
    readResults bits.length s = some (bits.map Result.ofBit) ∧
      ∃ s', runCommands (brReadN bits.length) s = some s' ∧ s'.rOpen = true ∧
        s'.ports.atBit payload tail (k + bits.length) := by
  induction bits generalizing s k with
  | nil => exact ⟨rfl, s, rfl, ho, hat⟩
  | cons b bits ih =>
    obtain ⟨hk, hb, hrest⟩ := prefix_drop_cons hbits
    have hread : readBit s.rChan s.ports = _ := hr ▸ readBit_at hat hk
    rw [hb] at hread
    have hexec := exec_brRead_bit ho hread
    obtain ⟨hres, s', hrun, ho', hat'⟩ :=
      ih (s := { s with
            status := doneStatus
            result := .ofBit b
            rChan := readerAt payload (k + 1)
            ports := s.ports.readTo payload tail k (k + 1) }) ho rfl (readTo_atBit ..) hrest
    refine ⟨?_, s', ?_, ho', ?_⟩
    · rw [List.length_cons, readResults, hexec]
      simp only [hres]
      rfl
    · rw [List.length_cons, brReadN, List.replicate_succ, runCommands, hexec]
      exact hrun
    · rwa [List.length_cons, Nat.add_comm bits.length 1, ← Nat.add_assoc]

/-- Settles O18: an empty reader is at bit 0 of the packed bits. -/
theorem readerSessionReturnsPackedBits : Obligations.ReaderSessionReturnsPackedBits := by
  intro s bits tail hclosed hinp
  obtain ⟨hres, s2, hrun, ho, hat⟩ := brReads_at (s := { s with status := doneStatus, rOpen := true, rChan := .fresh })
    (k := 0) rfl rfl hinp (prefix_packBits bits)
  refine ⟨⟨_, exec_brOpen_closed hclosed, hres⟩, s2, ?_, ?_, ho⟩
  · rw [runCommands, exec_brOpen_closed hclosed]
    exact hrun
  · rw [hat, List.drop_eq_nil_of_le (by simp), List.nil_append]

end Sys2Proof.Machine
end

section
/-! PROOF. The encoders and the shared reading of the input: HUF_ENC always has a table, LZ_ENC a text, and ReadAll's
errors come before any push (41_huffman_encoder.md R149, 43_lz78.md R202, 20_memory.md R64). -/

namespace Sys2Proof.Machine

/-! ### The Symbols counted -/

theorem mem_countSymbol (k x : Symbol) (fs : List Freq) :
    x ∈ (countSymbol k fs).map Freq.sym ↔ x = k ∨ x ∈ fs.map Freq.sym := by
  induction fs with
  | nil => simp [countSymbol]
  | cons f fs ih =>
    unfold countSymbol
    split_ifs with heq
    · simp [heq]
    · simp
    · rw [List.map_cons, List.mem_cons, ih, List.map_cons, List.mem_cons]
      tauto

/-- A Symbol counted goes in its place (41_huffman_encoder.md R141). -/
theorem countSymbol_sorted (k : Symbol) {fs : List Freq} (h : (fs.map Freq.sym).Pairwise (· < ·)) :
    ((countSymbol k fs).map Freq.sym).Pairwise (· < ·) := by
  induction fs with
  | nil => simp [countSymbol]
  | cons f fs ih =>
    obtain ⟨hf, hfs⟩ := List.pairwise_cons.mp h
    unfold countSymbol
    split_ifs with heq hlt
    · exact heq ▸ h
    · refine List.pairwise_cons.mpr ⟨fun x hx => ?_, h⟩
      rcases List.mem_cons.mp hx with rfl | hx
      · exact hlt
      · exact hlt.trans (hf x hx)
    · refine List.pairwise_cons.mpr ⟨fun x hx => ?_, ih hfs⟩
      rcases (mem_countSymbol k x fs).mp hx with rfl | hx
      · exact lt_of_le_of_ne (not_lt.mp hlt) heq
      · exact hf x hx

/-- What holds of the list with Symbol 256 alone, and is kept when a Symbol is counted, holds of the frequency list
(41_huffman_encoder.md R141). -/
theorem frequencyCount_induction {P : List Freq → Prop} (hinit : P [⟨eos, 1⟩])
    (hcount : ∀ k fs, P fs → P (countSymbol k fs)) (s : List Byte) : P (frequencyCount s) := by
  suffices hfold : ∀ fs, P fs → P (s.foldl (fun fs b => countSymbol (Symbol.ofByte b) fs) fs) from hfold _ hinit
  induction s with
  | nil => exact fun _ h => h
  | cons b s ih => exact fun fs h => ih _ (hcount _ fs h)

/-- The frequency list is strictly ascending by Symbol (41_huffman_encoder.md R141). -/
theorem frequencyCount_sorted (s : List Byte) : ((frequencyCount s).map Freq.sym).Pairwise (· < ·) :=
  frequencyCount_induction (P := fun fs => (fs.map Freq.sym).Pairwise (· < ·)) (by simp)
    (fun k _ => countSymbol_sorted k) s

theorem eos_mem_frequencyCount (s : List Byte) : eos ∈ (frequencyCount s).map Freq.sym :=
  frequencyCount_induction (P := fun fs => eos ∈ fs.map Freq.sym) (by simp)
    (fun k fs h => (mem_countSymbol k eos fs).mpr (.inr h)) s

/-! ### The Leaves of the tree -/

/-- The Symbols of a node's Leaves, left before right. -/
def Node.syms : Node → List Symbol
  | .leaf k => [k]
  | .branch l r _ _ => l.syms ++ r.syms
  | .empty => []

/-- The Symbols of a Root's Leaves. -/
def Root.syms (r : Root) : List Symbol := r.left.syms ++ r.right.syms

/-- A merge keeps the Leaves (41_huffman_encoder.md R143). -/
theorem mergeOnce_syms {ns : List Weighted} (h : 2 ≤ ns.length) :
    ((mergeOnce ns).flatMap (·.node.syms)).Perm (ns.flatMap (·.node.syms)) := by
  obtain ⟨pre, a, b, rfl⟩ := exists_eq_append_pair h
  rw [mergeOnce_append]
  refine ((List.perm_insertionSort _ _).flatMap_right _).trans ?_
  simp [mergeWeighted, Node.syms]

/-- TreeBuild on one entry or more gives a Root with just their Leaves (41_huffman_encoder.md R143, R145). -/
theorem buildLoop_syms {n : Nat} {ns : List Weighted} (hne : ns ≠ []) (hn : ns.length ≤ n + 2) :
    ∃ r, buildLoop n ns = .ok r ∧ r.syms.Perm (ns.flatMap (·.node.syms)) := by
  induction n generalizing ns with
  | zero =>
    match ns, hn with
    | [x], _ => exact ⟨_, rfl, by simp [Root.syms, Node.syms]⟩
    | [x, y], _ => exact ⟨_, rfl, by simp [Root.syms]⟩
  | succ n ih =>
    match ns, hn with
    | [x], _ => exact ⟨_, rfl, by simp [Root.syms, Node.syms]⟩
    | [x, y], _ => exact ⟨_, rfl, by simp [Root.syms]⟩
    | x :: y :: z :: rest, hn =>
      have hlen : (mergeOnce (x :: y :: z :: rest)).length + 1 = rest.length + 3 := mergeOnce_length (by simp)
      have hpos : mergeOnce (x :: y :: z :: rest) ≠ [] := by
        rw [← List.length_pos_iff]
        omega
      simp only [List.length_cons] at hn
      obtain ⟨r, hr, hperm⟩ := ih hpos (by omega)
      exact ⟨r, hr, hperm.trans (mergeOnce_syms (by simp))⟩

/-- The tree of an input has a Leaf for each Symbol counted, and no two for one (41_huffman_encoder.md R143). -/
theorem treeBuild_syms (s : List Byte) :
    ∃ r, treeBuild (orderByCount (frequencyCount s)) = .ok r ∧ r.syms.Perm ((frequencyCount s).map Freq.sym) := by
  have hperm : ((orderByCount (frequencyCount s)).map Freq.sym).Perm ((frequencyCount s).map Freq.sym) :=
    (List.perm_insertionSort _ _).map _
  have hne : orderByCount (frequencyCount s) ≠ [] := by
    intro hnil
    have hmem := hperm.mem_iff.mpr (eos_mem_frequencyCount s)
    rw [hnil] at hmem
    cases hmem
  obtain ⟨r, hr, hsyms⟩ := buildLoop_syms (n := (orderByCount (frequencyCount s)).length)
    (ns := (orderByCount (frequencyCount s)).map fun f => ⟨.leaf f.sym, f.cnt⟩) (by simpa using hne) (by simp)
  refine ⟨r, hr, hsyms.trans ?_⟩
  rw [List.flatMap_map]
  simpa only [Node.syms, ← List.map_eq_flatMap] using hperm

/-! ### The codes assigned -/

theorem slot_set_other {t : CodeTable} {k j : Symbol} (h : j ≠ k) (o : Option BitSeq) :
    CodeTable.slot (t.set k.val o) j = t.slot j := by
  rw [CodeTable.slot, CodeTable.slot, List.getElem?_set_ne fun he => h (Fin.ext he.symm)]

/-- Over Leaves whose slots are absent and that are of different Symbols, Walk finds no duplicate, and it keeps the
other slots (41_huffman_encoder.md R146). -/
theorem walk_ok {n : Node} {p : BitSeq} {t : CodeTable} (hn : n.syms.Nodup) (ht : ∀ k ∈ n.syms, t.slot k = none) :
    ∃ t', walk n p t = .ok t' ∧ t'.length = t.length ∧ ∀ k, k ∉ n.syms → t'.slot k = t.slot k := by
  induction n generalizing p t with
  | leaf k =>
    refine ⟨t.set k.val (some p), ?_, List.length_set, fun j hj => slot_set_other (by simpa [Node.syms] using hj) _⟩
    simp [walk, ht k (by simp [Node.syms])]
  | empty => exact ⟨t, rfl, rfl, fun _ _ => rfl⟩
  | branch l r _ _ ihl ihr =>
    obtain ⟨hl, hr, hlr⟩ := List.nodup_append.mp hn
    obtain ⟨t1, hw1, hlen1, hkeep1⟩ := ihl (p := p ++ [false]) hl fun k hk => ht k (List.mem_append_left _ hk)
    have ht1 (k : Symbol) (hk : k ∈ r.syms) : t1.slot k = none :=
      (hkeep1 k fun hkl => hlr k hkl k hk rfl).trans (ht k (List.mem_append_right _ hk))
    obtain ⟨t2, hw2, hlen2, hkeep2⟩ := ihr (p := p ++ [true]) hr ht1
    refine ⟨t2, by rw [walk, hw1]; exact hw2, hlen2.trans hlen1, fun k hk => ?_⟩
    obtain ⟨hkl, hkr⟩ := not_or.mp (fun h => hk (List.mem_append.mpr h))
    rw [hkeep2 k hkr, hkeep1 k hkl]

theorem empty_slot (k : Symbol) : CodeTable.empty.slot k = none := by
  rw [CodeTable.slot, CodeTable.empty, List.getElem?_replicate_of_lt (show k.val < nsym from k.isLt)]
  rfl

theorem assignCodes_ok {r : Root} (h : r.syms.Nodup) : ∃ t, assignCodes r = .ok t ∧ t.length = 257 := by
  obtain ⟨t, hw, hlen, -⟩ := walk_ok (n := .branch r.left r.right 0 []) (p := []) (t := .empty) h
    fun k _ => empty_slot k
  exact ⟨t, hw, hlen.trans List.length_replicate⟩

/-- Every input has a code table (41_huffman_encoder.md R149). -/
theorem encoderTable_ok (s : List Byte) : ∃ t, encoderTable s = .ok t ∧ t.length = 257 := by
  obtain ⟨r, hr, hsyms⟩ := treeBuild_syms s
  have hnodup : r.syms.Nodup := hsyms.nodup_iff.mpr ((frequencyCount_sorted s).imp ne_of_lt)
  obtain ⟨t, ht, hlen⟩ := assignCodes_ok hnodup
  exact ⟨t, by rw [encoderTable, hr]; exact ht, hlen⟩

/-! ### ReadAll at the start of a codec -/

/-- A codec that starts with ReadAll: the read errors end it before anything else (20_memory.md R64, 60_exceptions.md
R234, R236). -/
theorem readAll_codec_errors {body : Config → PortM Unit} {rest : Config → List Byte → PortM Unit}
    (hbody : ∀ c, body c = readAll c.inMax >>= rest c) :
    (∀ s, ¬ s.channelsClosed → runCommand (codec body) s = .next { s with status := errStatus 11#4 }) ∧
    (∀ s, s.channelsClosed → s.ports.inp.fail = true → runCommand (codec body) s =
      .next { s with
        status := errStatus 1#4
        ports := { s.ports with hist := s.ports.hist ++ [.fail .inp] } }) ∧
    (∀ s m, s.channelsClosed → s.ports.inp.fail = false → s.config.inMax = some m → m < s.ports.inp.q.length →
      runCommand (codec body) s =
        .next { s with
          status := errStatus 9#4
          ports := { s.ports with
            inp := ⟨s.ports.inp.q.drop (m + 1), false⟩
            hist := s.ports.hist ++ (s.ports.inp.q.take (m + 1)).map (Event.pull .inp) } }) := by
  refine ⟨fun s => runCommand_codec_open, fun s hclosed hfail => ?_, fun s m hclosed hfail hmax hlen => ?_⟩
  · refine runCommand_codec_error (e := .emptyInput) hclosed ?_
    rw [hbody, bind_run, readAll_failed _ hfail]
    rfl
  · refine runCommand_codec_error (e := .capacityExceeded) hclosed ?_
    rw [hbody, bind_run, hmax, readAll_exceeds hfail hlen]

/-- Settles O27: HUF_ENC starts with ReadAll. -/
theorem hufEncErrors : Obligations.HufEncErrors := readAll_codec_errors fun _ => rfl

/-- Settles O43: both LZ commands start with ReadAll. -/
theorem lzReadErrors : Obligations.LzReadErrors := by
  rintro i (rfl | rfl)
  · exact readAll_codec_errors (body := lzEncBody) fun _ => rfl
  · exact readAll_codec_errors (body := lzDecBody) fun _ => rfl

/-- Settles O42: LZ_ENC reads the input to its end and pushes its tokens' text. -/
theorem lzEncCompletes : Obligations.LzEncCompletes := by
  intro s hclosed hfail hfits
  refine runCommand_codec_ok hclosed ?_
  rw [lzEncBody, bind_run, readAll_fits hfail hfits]
  rfl

/-- Settles O26: every input has a table; its payload is written by WriteBit and CloseWriter. -/
theorem hufEncCompletes : Obligations.HufEncCompletes := by
  intro s hclosed hfail hfits
  obtain ⟨t, ht, hlen⟩ := encoderTable_ok s.ports.inp.q
  refine ⟨t, ht, hlen, runCommand_codec_ok hclosed ?_⟩
  rw [hufEncBody, bind_run, readAll_fits hfail hfits]
  simp only [ht, liftPure, bind_run, pure_run, serializeTable, pushAll_run]
  obtain ⟨w, ps, hwrite, hclose⟩ := writeBits_then_closeWriter fresh_holds (payloadBits t s.ports.inp.q) _
  rw [hwrite]
  simp only [hclose]
  simp [Ports.pushed, Ports.record, Ports.setLog, Ports.log]

end Sys2Proof.Machine
end

section
/-! PROOF. Decimal text (20_memory.md R59) and the host actions that are refused (70_reset_and_hazards.md R263). -/

namespace Sys2Proof.Machine

/-! ### Decimal text -/

/-- What holds below 10, and of a number when it holds of the number without its last digit, holds of every number. -/
theorem decimal_induction {P : Nat → Prop} (digit : ∀ n < 10, P n) (step : ∀ n, 10 ≤ n → P (n / 10) → P n) (n : Nat) :
    P n := by
  induction n using Nat.strong_induction_on with
  | _ n ih =>
    by_cases h : n < 10
    · exact digit n h
    · exact step n (Nat.le_of_not_lt h) (ih _ (by omega))

theorem decLoop_append (k n : Nat) (acc : List Byte) : decLoop k n acc = decLoop k n [] ++ acc := by
  induction k generalizing n acc with
  | zero => rfl
  | succ k ih =>
    unfold decLoop
    split_ifs
    · rfl
    · rw [ih, ih _ [digitByte (n % 10)], List.append_assoc]
      rfl

/-- A bound above the number is enough for its digits. -/
theorem decLoop_of_lt {k n : Nat} (h : n < k) : decLoop k n [] = dec n := by
  suffices hany : ∀ k', n < k' → decLoop k n [] = decLoop k' n [] from hany _ (Nat.lt_succ_self n)
  induction k generalizing n with
  | zero => omega
  | succ k ih =>
    intro k' h'
    obtain ⟨k', rfl⟩ := Nat.exists_eq_add_one.mpr (Nat.zero_lt_of_lt h')
    unfold decLoop
    split_ifs
    · rfl
    · rw [decLoop_append, decLoop_append k', ih (by omega) k' (by omega)]

/-- One digit (20_memory.md R59). -/
theorem dec_of_lt {n : Nat} (h : n < 10) : dec n = [digitByte n] := by
  rw [dec, decLoop, if_pos h]

/-- The digits before the last one, and the last one (20_memory.md R59). -/
theorem dec_of_ge {n : Nat} (h : 10 ≤ n) : dec n = dec (n / 10) ++ [digitByte (n % 10)] := by
  rw [dec, decLoop, if_neg (Nat.not_lt.mpr h), decLoop_append, decLoop_of_lt (by omega)]

theorem digitByte_toNat {d : Nat} (h : d < 10) : (digitByte d).toNat = 0x30 + d := by
  rw [digitByte, BitVec.toNat_ofNat]
  omega

theorem dec_ne_nil (n : Nat) : dec n ≠ [] := by
  by_cases h : n < 10
  · simp [dec_of_lt h]
  · simp [dec_of_ge (Nat.le_of_not_lt h)]

theorem isDigit_digitByte {d : Nat} (h : d < 10) : isDigit (digitByte d) = true := by
  simp only [isDigit, digitByte_toNat h, Bool.and_eq_true, decide_eq_true_eq]
  omega

theorem isDigit_of_mem_dec (n : Nat) : ∀ b ∈ dec n, isDigit b = true := by
  induction n using decimal_induction with
  | digit n h => simp [dec_of_lt h, isDigit_digitByte h]
  | step n h ih =>
    rw [dec_of_ge h]
    exact List.forall_mem_append.mpr ⟨ih, by simp [isDigit_digitByte (Nat.mod_lt n (by decide))]⟩

theorem decValue_concat (d : List Byte) (b : Byte) : decValue (d ++ [b]) = 10 * decValue d + (b.toNat - 0x30) := by
  simp [decValue]

theorem decValue_dec (n : Nat) : decValue (dec n) = n := by
  induction n using decimal_induction with
  | digit n h => simp [dec_of_lt h, decValue, digitByte_toNat h]
  | step n h ih =>
    rw [dec_of_ge h, decValue_concat, ih, digitByte_toNat (Nat.mod_lt n (by decide))]
    omega

theorem eq_zero_of_dec_head {n : Nat} (h : (dec n).head? = some asciiZero) : n = 0 := by
  induction n using decimal_induction with
  | digit n hn =>
    rw [dec_of_lt hn] at h
    have hval := congrArg BitVec.toNat (Option.some.inj h)
    rw [digitByte_toNat hn] at hval
    exact Nat.add_left_cancel hval
  | step n hn ih =>
    rw [dec_of_ge hn, List.head?_append_of_ne_nil _ (dec_ne_nil _)] at h
    have hzero := ih h
    omega

/-- Settles O39, digit by digit. -/
theorem decimalTextIsCanonical : Obligations.DecimalTextIsCanonical := by
  refine fun n => ⟨dec_ne_nil n, isDigit_of_mem_dec n, decValue_dec n, fun h => ?_⟩
  obtain rfl := eq_zero_of_dec_head h
  exact ⟨rfl, rfl⟩

/-! ### Refused host actions -/

theorem validAccess_eq_false {off size : Nat} (h : ¬ (size = 4 ∧ off ∈ [0, 4, 8, 12])) :
    validAccess off size = false := by
  rw [← Bool.not_eq_true]
  intro hvalid
  simp only [validAccess, Bool.and_eq_true, beq_iff_eq, decide_eq_true_eq] at hvalid
  obtain ⟨⟨hsize, halign⟩, hoff⟩ := hvalid
  refine h ⟨hsize, ?_⟩
  simp only [List.mem_cons, List.not_mem_nil]
  omega

theorem portAction_busy {s : State} (h : s.status.busy = true) (f : Ports → Ports) :
    portAction f s = .refused .portActionWhileBusy := by
  simp [portAction, h]

/-- Settles O58, by the action that is next. -/
theorem refusedHostActions : Obligations.RefusedHostActions := by
  refine ⟨?cmd, ?cut, ?write, ?read, ?port, ?edit⟩
  case cmd =>
    intro s v rest hp hb
    rw [step_performs hp]
    simp [perform, validAccess, hb]
  case cut =>
    intro s v n rest hp hb
    rw [step_performs hp]
    simp [perform, hb]
  case write =>
    intro s off size v rest hp h
    rw [step_performs hp]
    simp [perform, validAccess_eq_false h]
  case read =>
    intro s off size rest hp h
    rw [step_performs hp]
    simp [perform, validAccess_eq_false h]
  case port =>
    intro s a rest hp hb ha
    have hb' : { s with pending := rest }.status.busy = true := hb
    rw [step_performs hp]
    obtain ⟨p, bytes, rfl⟩ | ⟨p, f, rfl⟩ | ⟨p, rfl⟩ | rfl := ha <;> simp only [perform, portAction_busy hb']
  case edit =>
    intro s a rest hp ha
    rw [step_performs hp]
    obtain ⟨p, q, rfl⟩ | ⟨p, l, rfl⟩ := ha <;> rfl

end Sys2Proof.Machine
end

section
/-! PROOF. The command word (30_encoding.md R80 to R85): its fields make it up, it decodes to a command exactly when its
fields are that command's, and the rows of the opcode table take exactly the commands' words. -/

namespace Sys2Proof.Machine

/-! ### A word and its fields -/

theorem wordOf_fieldsOf (v : Word) : wordOf (fieldsOf v) = v := by
  have hhigh : v.extractLsb' 16 16 ++ v.extractLsb' 8 8 = v.extractLsb' 8 24 :=
    BitVec.extractLsb'_append_extractLsb'_eq_extractLsb' rfl
  have hall : v.extractLsb' 8 24 ++ v.extractLsb' 0 8 = v.extractLsb' 0 32 :=
    BitVec.extractLsb'_append_extractLsb'_eq_extractLsb' rfl
  exact (congrArg (· ++ v.extractLsb' 0 8) hhigh).trans (hall.trans BitVec.extractLsb'_eq_self)

theorem fieldsOf_wordOf (f : CmdFields) : fieldsOf (wordOf f) = f := by
  have hhigh (lo n : Nat) : (wordOf f).extractLsb' (8 + lo) n = (f.rsv ++ f.opa).extractLsb' lo n := by
    rw [wordOf, BitVec.extractLsb'_append_eq_of_le (Nat.le_add_right 8 lo), Nat.add_sub_cancel_left]
  rw [fieldsOf, CmdFields.mk.injEq]
  exact ⟨BitVec.extractLsb'_append_eq_right, (hhigh 0 8).trans BitVec.extractLsb'_append_eq_right,
    (hhigh 8 16).trans BitVec.extractLsb'_append_eq_left⟩

theorem eq_wordOf_iff {v : Word} {f : CmdFields} : v = wordOf f ↔ fieldsOf v = f :=
  ⟨fun h => h ▸ fieldsOf_wordOf f, fun h => h ▸ (wordOf_fieldsOf v).symm⟩

theorem eq_encode_iff {v : Word} {i : Instr} : v = encode i ↔ fieldsOf v = i.fields := eq_wordOf_iff

/-! ### The decoder -/

/-- Settles O1, by running the decoder. -/
theorem decodeSampleWords : Obligations.DecodeSampleWords := by
  unfold Obligations.DecodeSampleWords
  decide

/-- OPC and an OPA that is allowed with it give a command exactly when they are its own (30_encoding.md R81, R82). -/
theorem instrOf_eq_some_iff {opc opa : Byte} {i : Instr} (hopa : opc = 0x02#8 ∨ opa = 0#8) :
    instrOf opc opa = some i ↔ opc = i.fields.opc ∧ opa = i.fields.opa := by
  constructor
  · intro h
    unfold instrOf at h
    iterate 11
      split at h
      · cases h
        subst opc
        simp_all [Instr.fields]
    cases h
  · rintro ⟨rfl, rfl⟩
    cases i <;> rfl

/-- What the decoder asks of the three fields (30_encoding.md R83, R85). -/
theorem decode_eq_ok_iff {v : Word} {i : Instr} : decode v = .ok i ↔
    (fieldsOf v).rsv = 0#16 ∧ ((fieldsOf v).opc = 0x02#8 ∨ (fieldsOf v).opa = 0#8) ∧
      instrOf (fieldsOf v).opc (fieldsOf v).opa = some i := by
  unfold decode
  cases hi : instrOf (fieldsOf v).opc (fieldsOf v).opa with
  | none => simp
  | some j =>
    by_cases hrsv : (fieldsOf v).rsv = 0#16
    · by_cases hopa : (fieldsOf v).opc = 0x02#8 ∨ (fieldsOf v).opa = 0#8
      · simp [hrsv, hopa, ← not_or]
      · simp [hrsv, hopa, ← not_or]
    · simp [hrsv]

theorem fields_rsv (i : Instr) : i.fields.rsv = 0#16 := by cases i <;> rfl

theorem fields_opaAllowed (i : Instr) : i.fields.opc = 0x02#8 ∨ i.fields.opa = 0#8 := by cases i <;> simp [Instr.fields]

theorem decode_eq_ok_iff_fields {v : Word} {i : Instr} : decode v = .ok i ↔ fieldsOf v = i.fields := by
  rw [decode_eq_ok_iff]
  constructor
  · rintro ⟨hrsv, hopa, hi⟩
    obtain ⟨hopc, hopa⟩ := (instrOf_eq_some_iff hopa).mp hi
    rw [CmdFields.mk.injEq]
    exact ⟨hopc, hopa, hrsv.trans (fields_rsv i).symm⟩
  · intro h
    rw [h]
    exact ⟨fields_rsv i, fields_opaAllowed i, (instrOf_eq_some_iff (fields_opaAllowed i)).mpr ⟨rfl, rfl⟩⟩

/-- Settles O2, through the fields of the word. -/
theorem decodeIffEncode : Obligations.DecodeIffEncode := fun _ _ => decode_eq_ok_iff_fields.trans eq_encode_iff.symm

/-! ### Legal words -/

/-- An opcode has a command exactly when it is assigned (30_encoding.md R81, R83). -/
theorem instrOf_isSome (f : CmdFields) : (instrOf f.opc f.opa).isSome = f.opcAssigned := by
  unfold instrOf CmdFields.opcAssigned
  iterate 11
    split
    · simp [*]
  simp [*]

/-- The three checks of R83 pass exactly the words that decode to a command. -/
theorem wellFormed_iff_decodes {v : Word} : (fieldsOf v).wellFormed = true ↔ ∃ i, decode v = .ok i := by
  simp only [decode_eq_ok_iff, exists_and_left, ← Option.isSome_iff_exists, instrOf_isSome, CmdFields.wellFormed,
    CmdFields.rsvZero, CmdFields.opaAllowed, Bool.and_eq_true, Bool.or_eq_true, beq_iff_eq]
  tauto

/-- Settles O4, by the decoder's answer. -/
theorem illegalWordChangesOnlyStatus : Obligations.IllegalWordChangesOnlyStatus := by
  refine ⟨fun s v hv => ?_, fun v => wellFormed_iff_decodes⟩
  cases hd : decode v with
  | ok i => simp [wellFormed_iff_decodes.mpr ⟨i, hd⟩] at hv
  | error e => exact commandWrite_illegal hd s

/-! ### The opcode table -/

/-- The mask of BW_WRITE's row clears OPA alone (30_encoding.md R82, R85). -/
theorem wordOf_and_bwWriteMask (f : CmdFields) : wordOf f &&& 0xFFFF00FF#32 = wordOf { f with opa := 0#8 } := by
  have hand : wordOf f &&& wordOf ⟨0xFF#8, 0#8, 0xFFFF#16⟩ =
      wordOf ⟨f.opc &&& BitVec.allOnes 8, f.opa &&& 0#8, f.rsv &&& BitVec.allOnes 16⟩ :=
    BitVec.and_append.trans (congrArg (· ++ (f.opc &&& BitVec.allOnes 8)) BitVec.and_append)
  rwa [BitVec.and_allOnes, BitVec.and_allOnes, BitVec.and_zero] at hand

/-- BW_WRITE's row takes its word with each operand byte (30_encoding.md R82, R85). -/
theorem accepts_bwWrite_iff {v : Word} :
    OpcodeRow.accepts ⟨"BW_WRITE", 0x00000002#32, 0xFFFF00FF#32⟩ v = true ↔ ∃ opa, v = encode (.bwWrite opa) := by
  have hmasked : fieldsOf (v &&& 0xFFFF00FF#32) = { fieldsOf v with opa := 0#8 } := by
    rw [← eq_wordOf_iff, ← wordOf_and_bwWriteMask, wordOf_fieldsOf]
  have hpattern : v &&& 0xFFFF00FF#32 = 0x00000002#32 ↔ fieldsOf (v &&& 0xFFFF00FF#32) = (Instr.bwWrite 0#8).fields :=
    eq_encode_iff (i := .bwWrite 0#8)
  simp only [OpcodeRow.accepts, beq_iff_eq, hpattern, hmasked, eq_encode_iff, Instr.fields]
  constructor
  · intro h
    obtain ⟨hopc, -, hrsv⟩ := CmdFields.mk.inj h
    exact ⟨(fieldsOf v).opa, by rw [← hopc, ← hrsv]⟩
  · rintro ⟨opa, h⟩
    rw [h]

theorem accepts_fullMask_iff (n : String) (p v : Word) : OpcodeRow.accepts ⟨n, p, 0xFFFFFFFF#32⟩ v = true ↔ v = p := by
  have hmask : v &&& 0xFFFFFFFF#32 = v := BitVec.and_allOnes
  simp [OpcodeRow.accepts, hmask]

/-- What holds of some command holds of one of the eleven (30_encoding.md R81). -/
theorem exists_instr_iff {P : Instr → Prop} : (∃ i, P i) ↔
    P .bwOpen ∨ (∃ opa, P (.bwWrite opa)) ∨ P .bwClose ∨ P .brOpen ∨ P .brRead ∨ P .brReadReq ∨ P .brClose ∨
      P .hufEnc ∨ P .hufDec ∨ P .lzEnc ∨ P .lzDec := by
  constructor
  · rintro ⟨i, hi⟩
    cases i with
    | bwWrite opa => exact .inr (.inl ⟨opa, hi⟩)
    | _ => simp only [hi, true_or, or_true]
  · rintro (h | ⟨_, h⟩ | h | h | h | h | h | h | h | h | h) <;> exact ⟨_, h⟩

/-- Settles O3, row by row. -/
theorem decodeAcceptsExactlyTableRows : Obligations.DecodeAcceptsExactlyTableRows := by
  intro v
  simp only [decodeIffEncode v, exists_instr_iff, opcodeTable, List.exists_mem_cons_iff, List.not_mem_nil,
    false_and, exists_false, or_false, accepts_fullMask_iff, accepts_bwWrite_iff]
  rfl

end Sys2Proof.Machine
end

section
/-! PROOF. The deserializer on every TBLI queue (30_encoding.md R93, 42_huffman_decoder.md R171): it reads a table's
text, or it stops at the end of the queue or at the first byte with which no table's text goes on. -/

namespace Sys2Proof.Machine

/-- On the table queue `q`, `m` stops in CorruptTable: at the end of the queue, which is an allowed start (`S`), or at a
byte after an allowed start, whatever stands behind the byte. -/
def Rejects {α : Type} (S : List Byte → Prop) (m : PortM α) (q : List Byte) : Prop :=
  (S q ∧ ∀ ps : Ports, ps.tbli = ⟨q, false⟩ →
    m ps = .error (.err .corruptTable) ((ps.tableRead q []).record (.endOf .tbli))) ∨
  ∃ pre x post, q = pre ++ x :: post ∧ S pre ∧ ∀ (ps : Ports) (rest : List Byte), ps.tbli = ⟨pre ++ x :: rest, false⟩ →
    m ps = .error (.err .corruptTable) (ps.tableRead (pre ++ [x]) rest)

section Rejects
variable {α β : Type} {S S' : List Byte → Prop} {m : PortM α} {f : α → PortM β} {q : List Byte}

theorem rejects_bind (h : Rejects S m q) (hS : ∀ w, S w → S' w) : Rejects S' (m >>= f) q := by
  obtain ⟨hq, hrun⟩ | ⟨pre, x, post, rfl, hpre, hrun⟩ := h
  · exact .inl ⟨hS q hq, fun ps hps => by rw [bind_run, hrun ps hps]⟩
  · exact .inr ⟨pre, x, post, rfl, hS pre hpre, fun ps rest hps => by rw [bind_run, hrun ps rest hps]⟩

/-- After a part that reads `w`, the next part's rejection is the whole's. -/
theorem rejects_after {w : List Byte} {a : α}
    (hm : ∀ (ps : Ports) (rest : List Byte), ps.tbli = ⟨w ++ rest, false⟩ → m ps = .ok a (ps.tableRead w rest))
    (h : Rejects S (f a) q) (hS : ∀ v, S v → S' (w ++ v)) : Rejects S' (m >>= f) (w ++ q) := by
  obtain ⟨hq, hrun⟩ | ⟨pre, x, post, rfl, hpre, hrun⟩ := h
  · refine .inl ⟨hS q hq, fun ps hps => ?_⟩
    rw [bind_run, hm ps q hps]
    exact (hrun _ rfl).trans (by rw [tableRead_tableRead])
  · refine .inr ⟨w ++ pre, x, post, (List.append_assoc ..).symm, hS pre hpre, fun ps rest hps => ?_⟩
    rw [List.append_assoc] at hps ⊢
    rw [bind_run, hm ps _ hps]
    exact (hrun _ rest rfl).trans (by rw [tableRead_tableRead])

theorem rejects_pullT_nil (h : S []) : Rejects S pullT [] := by
  refine .inl ⟨h, fun ps hps => ?_⟩
  have hps' : ps.tableRead [] [] = ps := by simp [Ports.tableRead, ← hps]
  have hp : pull .tbli ps = .ok .endOf (ps.record (.endOf .tbli)) :=
    pull_empty (p := .tbli) (by simp [Ports.source, hps]) (by simp [Ports.source, hps])
  simp [pullT, bind_run, hp, hps']

/-- A byte that makes the body stop is the last one pulled. -/
theorem rejects_byte {f : Byte → PortM β} {x : Byte} (hf : f x = raise .corruptTable) (h : S []) :
    Rejects S (pullT >>= f) (x :: q) := by
  refine .inr ⟨[], x, q, rfl, h, fun ps rest hps => ?_⟩
  simp [bind_run, pullT_run hps, hf]

/-- A byte that the body goes on from. -/
theorem rejects_after_byte {f : Byte → PortM β} {x : Byte} (h : Rejects S (f x) q) (hS : ∀ v, S v → S' (x :: v)) :
    Rejects S' (pullT >>= f) (x :: q) :=
  rejects_after (w := [x]) (fun _ _ hps => pullT_run hps) h hS

end Rejects

/-! ### Starts of a table's text -/

/-- `w` can be gone on with to the end of a code's record of which `k` digits are read: up to CODE_MAX digits in all,
then LF (30_encoding.md R92). -/
def startsDigits (k : Nat) (w : List Byte) : Prop :=
  ∃ ds : BitSeq, k + ds.length ≤ codeMax ∧ w <+: ds.map bitDigit ++ [asciiLF]

/-- What `CodeTable.valid` asks of a slot: absent, or a code of 1 to CODE_MAX bits (30_encoding.md R92). -/
def SlotValid (o : Option BitSeq) : Prop := ∀ p ∈ o, 1 ≤ p.length ∧ p.length ≤ 256

/-- `w` can be gone on with to a record, or is one (30_encoding.md R92). -/
def startsRecord (w : List Byte) : Prop := ∃ o, SlotValid o ∧ w <+: recordText o

/-- `w` can be gone on with to `n` records, or is that many; `startsTable` is `startsRecords nsym` (30_encoding.md
R92). -/
def startsRecords (n : Nat) (w : List Byte) : Prop :=
  ∃ t : CodeTable, (t.length = n ∧ ∀ o ∈ t, SlotValid o) ∧ w <+: tableText t

theorem exists_bitDigit {x : Byte} (h : x = asciiZero ∨ x = asciiOne) : ∃ b, x = bitDigit b := by
  obtain rfl | rfl := h
  · exact ⟨false, rfl⟩
  · exact ⟨true, rfl⟩

theorem slotValid_none : SlotValid none := nofun

theorem slotValid_digits {b : Bool} {ds : BitSeq} (h : 1 + ds.length ≤ codeMax) : SlotValid (some (b :: ds)) := by
  rintro _ ⟨⟩
  rw [List.length_cons, Nat.add_comm]
  exact ⟨Nat.le_add_right 1 _, h⟩

theorem startsDigits_cons {k : Nat} {b : Bool} {w : List Byte} (h : startsDigits (k + 1) w) :
    startsDigits k (bitDigit b :: w) := by
  obtain ⟨ds, hds, hw⟩ := h
  exact ⟨b :: ds, by rw [List.length_cons]; omega, List.cons_prefix_cons.mpr ⟨rfl, hw⟩⟩

theorem startsRecord_digit {b : Bool} {w : List Byte} (h : startsDigits 1 w) : startsRecord (bitDigit b :: w) := by
  obtain ⟨ds, hds, hw⟩ := h
  exact ⟨some (b :: ds), slotValid_digits hds, List.cons_prefix_cons.mpr ⟨rfl, hw⟩⟩

theorem startsRecords_cons {n : Nat} {o : Option BitSeq} {w : List Byte} (ho : SlotValid o) (h : startsRecords n w) :
    startsRecords (n + 1) (recordText o ++ w) := by
  obtain ⟨t, ⟨hlen, ht⟩, hw⟩ := h
  exact ⟨o :: t, ⟨congrArg (· + 1) hlen, List.forall_mem_cons.mpr ⟨ho, ht⟩⟩, (List.prefix_append_right_inj _).mpr hw⟩

/-- A record can be gone on with to a table: by records of absent slots (30_encoding.md R92). -/
theorem startsRecords_of_startsRecord (n : Nat) {w : List Byte} (h : startsRecord w) : startsRecords (n + 1) w := by
  obtain ⟨o, ho, hw⟩ := h
  obtain ⟨t, ht, htext⟩ := startsRecords_cons ho (n := n) (w := [])
    ⟨List.replicate n none, ⟨List.length_replicate, by simp [slotValid_none]⟩, List.nil_prefix⟩
  exact ⟨t, ht, (hw.trans (List.prefix_append _ _)).trans htext⟩

/-! ### The deserializer's three levels -/

/-- The digits after `p` and their LF stand in the queue, or it is rejected. The pulls left are enough for CODE_MAX
digits and the LF, as in `noOverrun_readDigits` (42_huffman_decoder.md R171). -/
theorem readDigits_reads_or_rejects {n : Nat} {p : BitSeq} (hp : p.length ≤ codeMax) (hn : codeMax < p.length + n)
    (q : List Byte) :
    (∃ (ds : BitSeq) (rest : List Byte), q = ds.map bitDigit ++ asciiLF :: rest ∧ p.length + ds.length ≤ codeMax) ∨
      Rejects (startsDigits p.length) (readDigits n p) q := by
  induction n generalizing p q with
  | zero => omega
  | succ n ih =>
    have hnil : startsDigits p.length [] := ⟨[], hp, List.nil_prefix⟩
    rw [readDigits]
    cases q with
    | nil => exact .inr (rejects_bind (rejects_pullT_nil hnil) fun _ => id)
    | cons y q =>
      by_cases hLF : y = asciiLF
      · exact .inl ⟨[], q, by rw [hLF]; rfl, hp⟩
      by_cases hbad : ¬ (y = asciiZero ∨ y = asciiOne)
      · exact .inr (rejects_byte (by simp only [hLF, hbad, if_false]) hnil)
      obtain ⟨b, rfl⟩ := exists_bitDigit (not_not.mp hbad)
      by_cases hmax : p.length = codeMax
      · exact .inr (rejects_byte (by simp only [hLF, bitDigit_is_digit, hmax, if_true, if_false]) hnil)
      have hlen : (p ++ [b]).length = p.length + 1 := List.length_append
      obtain ⟨ds, rest, rfl, hds⟩ | hrej := ih (p := p ++ [b]) (by omega) (by omega) q
      · exact .inl ⟨b :: ds, rest, rfl, by rw [List.length_cons]; omega⟩
      · refine .inr (rejects_after_byte ?_ fun _ => startsDigits_cons)
        simpa only [hLF, bitDigit_is_digit, hmax, if_true, if_false, decide_bitDigit_eq_one, hlen] using hrej

/-- A record stands in the queue, or it is rejected (42_huffman_decoder.md R171). -/
theorem readRecord_reads_or_rejects (q : List Byte) :
    (∃ o rest, SlotValid o ∧ q = recordText o ++ rest) ∨ Rejects startsRecord readRecord q := by
  have hnil : startsRecord [] := ⟨none, slotValid_none, List.nil_prefix⟩
  rw [readRecord]
  cases q with
  | nil => exact .inr (rejects_bind (rejects_pullT_nil hnil) fun _ => id)
  | cons x q =>
    by_cases hdash : x = asciiDash
    · subst hdash
      have hS (v : List Byte) (hv : [] = v) : startsRecord (asciiDash :: v) :=
        ⟨none, slotValid_none, by simp [← hv, recordText]⟩
      cases q with
      | nil => exact .inr (rejects_after_byte (rejects_bind (rejects_pullT_nil rfl) fun _ => id) hS)
      | cons y q =>
        by_cases hLF : y = asciiLF
        · exact .inl ⟨none, q, slotValid_none, by rw [hLF]; rfl⟩
        · exact .inr (rejects_after_byte (rejects_byte (by simp only [hLF, if_false]) rfl) hS)
    by_cases hbad : ¬ (x = asciiZero ∨ x = asciiOne)
    · exact .inr (rejects_byte (by simp only [hdash, hbad, if_false]) hnil)
    obtain ⟨b, rfl⟩ := exists_bitDigit (not_not.mp hbad)
    have hroom : codeMax < [b].length + codeMax := Nat.lt_add_of_pos_left Nat.one_pos
    obtain ⟨ds, rest, rfl, hds⟩ | hrej := readDigits_reads_or_rejects (p := [b]) (by simp [codeMax]) hroom q
    · exact .inl ⟨some (b :: ds), rest, slotValid_digits hds, by simp [recordText]⟩
    · refine .inr (rejects_after_byte ?_ fun _ => startsRecord_digit)
      simp only [hdash, bitDigit_is_digit, if_true, if_false, decide_bitDigit_eq_one]
      exact rejects_bind hrej fun _ => id

/-- `n` records stand in the queue, or it is rejected (42_huffman_decoder.md R171). -/
theorem readRecords_reads_or_rejects (n : Nat) (q : List Byte) :
    (∃ (t : CodeTable) (rest : List Byte), (t.length = n ∧ ∀ o ∈ t, SlotValid o) ∧ q = tableText t ++ rest) ∨
      Rejects (startsRecords n) (readRecords n) q := by
  induction n generalizing q with
  | zero => exact .inl ⟨[], q, ⟨rfl, nofun⟩, rfl⟩
  | succ n ih =>
    rw [readRecords]
    obtain ⟨o, q, ho, rfl⟩ | hrej := readRecord_reads_or_rejects q
    · obtain ⟨t, rest, ⟨hlen, ht⟩, rfl⟩ | hrej := ih q
      · exact .inl ⟨o :: t, rest, ⟨congrArg (· + 1) hlen, List.forall_mem_cons.mpr ⟨ho, ht⟩⟩, by simp [tableText]⟩
      · have hrun (ps : Ports) (rest : List Byte) := readRecord_run (ps := ps) (rest := rest) (ho := ho)
        exact .inr (rejects_after hrun (rejects_bind hrej fun _ => id) fun _ => startsRecords_cons ho)
    · exact .inr (rejects_bind hrej fun _ => startsRecords_of_startsRecord n)

/-- Where the deserializer stops at a byte whatever stands behind it, no table's text goes on with the byte. -/
theorem not_startsTable_of_stops {w : List Byte} {e : Stop}
    (h : ∀ (ps : Ports) (rest : List Byte), ps.tbli = ⟨w ++ rest, false⟩ →
      deserializeTable ps = .error e (ps.tableRead w rest)) : ¬ startsTable w := by
  rintro ⟨t, ht, rest, htext⟩
  have hok := deserializeTable_run (ps := { State.reset.ports with tbli := ⟨w ++ rest, false⟩ }) (rest := []) ht
    (by rw [htext, List.append_nil])
  rw [h _ rest rfl] at hok
  cases hok

/-- Settles O30: what is no table's text is rejected, record by record. -/
theorem deserializerAcceptsExactlyTableTexts : Obligations.DeserializerAcceptsExactlyTableTexts := by
  intro ps hfail
  have htbli : ps.tbli = ⟨ps.tbli.q, false⟩ := by rw [← hfail]
  refine ⟨fun t rest ht hq => deserializeTable_run ht (hq ▸ htbli), fun hno => ?_⟩
  obtain ⟨t, rest, ht, hq⟩ | ⟨hq, hrun⟩ | ⟨pre, x, post, hq, hpre, hrun⟩ := readRecords_reads_or_rejects nsym ps.tbli.q
  · exact absurd ⟨t, rest, ht, hq⟩ hno
  · refine ⟨[], _, .inl ⟨hq, rfl, rfl⟩, (hrun ps htbli).trans ?_⟩
    simp [Ports.tableRead, Ports.record]
  · have hstop : ¬ startsTable (pre ++ [x]) :=
      not_startsTable_of_stops fun ps' rest hps' => hrun ps' rest (by simpa using hps')
    exact ⟨post, _, .inr ⟨pre, x, hq, hpre, hstop, rfl⟩, hrun ps post (hq ▸ htbli)⟩

end Sys2Proof.Machine
end

section
/-! PROOF. The LZ78 index parse (43_lz78.md R206): a digit text that passes the index check is the decimal text of an
index, and the search from the long end finds the longest one. -/

namespace Sys2Proof.Machine

/-! ### Digit texts without a leading zero -/

theorem digitByte_toNat_sub {b : Byte} (h : isDigit b = true) :
    b.toNat - 0x30 < 10 ∧ digitByte (b.toNat - 0x30) = b := by
  simp only [isDigit, Bool.and_eq_true, decide_eq_true_eq] at h
  refine ⟨by omega, BitVec.eq_of_toNat_eq ?_⟩
  rw [digitByte_toNat (by omega)]
  omega

/-- A digit text with no leading zero is the decimal text of its value (20_memory.md R59). -/
theorem dec_decValue {d : List Byte} (hne : d ≠ []) (hdig : ∀ b ∈ d, isDigit b = true)
    (hzero : d.length = 1 ∨ d.head? ≠ some asciiZero) : dec (decValue d) = d := by
  induction d using List.reverseRecOn with
  | nil => exact absurd rfl hne
  | append_singleton d b ih =>
    obtain ⟨hd, hb⟩ := List.forall_mem_append.mp hdig
    obtain ⟨hlt, hbyte⟩ := digitByte_toNat_sub (hb b (List.mem_singleton_self b))
    rw [decValue_concat]
    by_cases hnil : d = []
    · rw [hnil, show decValue [] = 0 from rfl, Nat.mul_zero, Nat.zero_add, dec_of_lt hlt, hbyte, List.nil_append]
    · have hhead : d.head? ≠ some asciiZero := by
        rw [List.head?_append_of_ne_nil _ hnil] at hzero
        exact hzero.resolve_left (by simp [hnil])
      have hdec := ih hnil hd (.inr hhead)
      have hpos : decValue d ≠ 0 := by
        intro h0
        rw [h0] at hdec
        exact hhead (by rw [← hdec]; rfl)
      have hdiv : (10 * decValue d + (b.toNat - 0x30)) / 10 = decValue d := by omega
      have hmod : (10 * decValue d + (b.toNat - 0x30)) % 10 = b.toNat - 0x30 := by omega
      rw [dec_of_ge (by omega), hdiv, hmod, hdec, hbyte]

theorem dec_injective : Function.Injective dec := Function.LeftInverse.injective decValue_dec

/-- The index check passes exactly the decimal texts of the indices that exist (43_lz78.md R206). -/
theorem isIndexText_iff {size : Nat} {d : List Byte} (hne : d ≠ []) (hdig : ∀ b ∈ d, isDigit b = true) :
    isIndexText size d = true ↔ ∃ k ≤ size, dec k = d := by
  simp only [isIndexText, Bool.and_eq_true, Bool.or_eq_true, beq_iff_eq, bne_iff_ne, decide_eq_true_eq]
  constructor
  · rintro ⟨hzero, hsize⟩
    exact ⟨decValue d, hsize, dec_decValue hne hdig hzero⟩
  · rintro ⟨k, hk, rfl⟩
    refine ⟨or_iff_not_imp_right.mpr fun hhead => ?_, by rwa [decValue_dec]⟩
    rw [eq_zero_of_dec_head (not_not.mp hhead)]
    rfl

/-! ### The search for the longest index text -/

/-- The search answers the longest length at which an index text stands, or none where there is no such length. -/
theorem longestIndexText_cases (size : Nat) (run : List Byte) (n : Nat) :
    (longestIndexText size run n = none ∧ ∀ m, 0 < m → m ≤ n → isIndexText size (run.take m) = false) ∨
    ∃ j, longestIndexText size run n = some j ∧ 0 < j ∧ j ≤ n ∧ isIndexText size (run.take j) = true ∧
      ∀ m, j < m → m ≤ n → isIndexText size (run.take m) = false := by
  induction n with
  | zero => exact .inl ⟨rfl, fun m hlt hle => absurd hle (Nat.not_le.mpr hlt)⟩
  | succ n ih =>
    rw [longestIndexText]
    split_ifs with htext
    · exact .inr ⟨n + 1, rfl, Nat.succ_pos n, le_rfl, htext, fun m hlt hle => absurd hle (Nat.not_le.mpr hlt)⟩
    · have extend {lo : Nat} (h : ∀ m, lo < m → m ≤ n → isIndexText size (run.take m) = false) (m : Nat) (hlt : lo < m)
          (hle : m ≤ n + 1) : isIndexText size (run.take m) = false := by
        obtain hle | rfl := Nat.le_succ_iff.mp hle
        · exact h m hlt hle
        · exact Bool.not_eq_true _ ▸ htext
      obtain ⟨hnone, hno⟩ | ⟨j, hsome, hpos, hle, hj, hmax⟩ := ih
      · exact .inl ⟨hnone, extend hno⟩
      · exact .inr ⟨j, hsome, hpos, hle.trans (Nat.le_succ n), hj, extend hmax⟩

/-! ### The parse -/

theorem dec_prefix_takeWhile {k : Nat} {t : List Byte} (h : dec k <+: t) : dec k <+: t.takeWhile isDigit := by
  obtain ⟨rest, rfl⟩ := h
  rw [List.takeWhile_append_of_pos (isDigit_of_mem_dec k)]
  exact List.prefix_append _ _

/-- An existing index whose text starts `t` is met by the search at its text's length. -/
theorem isIndexText_of_dec_prefix {size k : Nat} {t : List Byte} (hk : k ≤ size) (h : dec k <+: t) :
    0 < (dec k).length ∧ (dec k).length ≤ (t.takeWhile isDigit).length ∧
      isIndexText size ((t.takeWhile isDigit).take (dec k).length) = true := by
  have hrun := dec_prefix_takeWhile h
  rw [← List.prefix_iff_eq_take.mp hrun]
  exact ⟨List.length_pos_iff.mpr (dec_ne_nil k), hrun.length_le,
    (isIndexText_iff (dec_ne_nil k) (isDigit_of_mem_dec k)).mpr ⟨k, hk, rfl⟩⟩

/-- The parse answers the longest text of an existing index at the start of `t`, or none where there is no such text
(43_lz78.md R206). -/
theorem parseIndex_cases (t : List Byte) (size : Nat) :
    (parseIndex t size = none ∧ ∀ k ≤ size, ¬ dec k <+: t) ∨
    ∃ i ≤ size, dec i <+: t ∧ parseIndex t size = some ((dec i).length, i) ∧
      ∀ k ≤ size, dec k <+: t → (dec k).length ≤ (dec i).length := by
  have hrun : t.takeWhile isDigit <+: t := List.takeWhile_prefix _
  obtain ⟨hnone, hno⟩ | ⟨j, hsome, hpos, hle, hj, hmax⟩ :=
    longestIndexText_cases size (t.takeWhile isDigit) (t.takeWhile isDigit).length
  · refine .inl ⟨by simp [parseIndex, hnone], fun k hk hpre => ?_⟩
    obtain ⟨hkpos, hklen, htext⟩ := isIndexText_of_dec_prefix hk hpre
    simp [hno _ hkpos hklen] at htext
  · have hlen : ((t.takeWhile isDigit).take j).length = j := List.length_take_of_le hle
    have hne : (t.takeWhile isDigit).take j ≠ [] := List.length_pos_iff.mp (by omega)
    have hdig : ∀ b ∈ (t.takeWhile isDigit).take j, isDigit b = true :=
      fun b hb => List.mem_takeWhile_imp (List.mem_of_mem_take hb)
    obtain ⟨i, hi, hdec⟩ := (isIndexText_iff hne hdig).mp hj
    have hij : (dec i).length = j := by rw [hdec, hlen]
    refine .inr ⟨i, hi, hdec ▸ (List.take_prefix j _).trans hrun, ?_, fun k hk hpre => ?_⟩
    · simp [parseIndex, hsome, hij, ← hdec, decValue_dec]
    · obtain ⟨hkpos, hklen, htext⟩ := isIndexText_of_dec_prefix hk hpre
      by_contra hlt
      simp [hmax _ (by omega) hklen] at htext

/-- Settles O40, by what the parse answers. -/
theorem parseIndexTakesLongestExistingIndex : Obligations.ParseIndexTakesLongestExistingIndex := by
  intro t size
  obtain ⟨hnone, hno⟩ | ⟨i, hi, hpre, hsome, hmax⟩ := parseIndex_cases t size
  · rw [hnone]
    exact ⟨fun j k => ⟨nofun, fun ⟨hk, hpre, _⟩ => absurd hpre (hno k hk)⟩, fun _ => hno, fun _ => rfl⟩
  · rw [hsome]
    refine ⟨fun j k => ⟨?_, ?_⟩, nofun, fun hno => absurd hpre (hno i hi)⟩
    · rintro ⟨⟩
      exact ⟨hi, hpre, rfl, hmax⟩
    · rintro ⟨hk, hkpre, rfl, hkmax⟩
      have hlen : (dec i).length = (dec k).length := le_antisymm (hkmax i hi hpre) (hmax k hk hkpre)
      have hsame : dec i = dec k := (List.prefix_of_prefix_length_le hpre hkpre hlen.le).eq_of_length hlen
      rw [dec_injective hsame]

end Sys2Proof.Machine
end

section
/-! PROOF. The BitChannel commands one by one (40_bitchannel.md R114 to R120): what each leaves, case by case. The two
reads are one lemma per case, over the STATUS they give at the end. -/

namespace Sys2Proof.Machine

/-- A command's word decodes to it (30_encoding.md R85). -/
theorem decode_encode (i : Instr) : decode (encode i) = .ok i := (decodeIffEncode _ i).mpr rfl

/-! ### The writer -/

theorem exec_bwOpen_open {s : State} (h : s.wOpen = true) :
    exec .bwOpen s = .next { s with status := errStatus 11#4 } :=
  runCommand_of_error (e := .sequenceError) (s' := s.start) (by simp [bwOpen, h])

/-- Settles O10, by whether a session is open. -/
theorem bwOpenEffect : Obligations.BwOpenEffect :=
  ⟨decode_encode .bwOpen, fun _ => exec_bwOpen_open, fun _ => exec_bwOpen_closed⟩

theorem exec_bwWrite_closed {s : State} (h : s.wOpen = false) (opa : Byte) :
    exec (.bwWrite opa) s = .next { s with status := errStatus 11#4 } :=
  runCommand_of_error (e := .sequenceError) (s' := s.start) (by simp [bwWrite, bind_run, h])

/-- Of the bytes only 0 and 1 are bits (30_encoding.md R82). -/
theorem exists_bitByte {opa : Byte} (h : opa.toNat ≤ 1) : ∃ b, opa = bitByte b := by
  obtain h0 | h1 : opa.toNat = 0 ∨ opa.toNat = 1 := by omega
  · exact ⟨false, BitVec.eq_of_toNat_eq h0⟩
  · exact ⟨true, BitVec.eq_of_toNat_eq h1⟩

theorem bitOperand_of_two_le {opa : Byte} (h : 2 ≤ opa.toNat) : bitOperand opa = none := by
  have h0 : opa ≠ 0#8 := by rintro rfl; simp at h
  have h1 : opa ≠ 1#8 := by rintro rfl; simp at h
  simp [bitOperand, h0, h1]

theorem exec_bwWrite_invalid {s : State} {opa : Byte} (ho : s.wOpen = true) (h : 2 ≤ opa.toNat) :
    exec (.bwWrite opa) s = .next { s with status := errStatus 2#4 } :=
  runCommand_of_error (e := .invalidBit) (s' := s.start) (by simp [bwWrite, bind_run, ho, bitOperand_of_two_le h])

/-- Settles O11: the two checks in their order, then WriteBit. -/
theorem bwWriteEffect : Obligations.BwWriteEffect := by
  refine ⟨fun opa => decode_encode (.bwWrite opa), fun s opa hc => exec_bwWrite_closed hc opa,
    fun s opa => exec_bwWrite_invalid, fun s opa h ho hopa => ?_, fun s opa ho hopa h7 => ?_⟩ <;>
    obtain ⟨b, rfl⟩ := exists_bitByte hopa
  · exact exec_bwWrite_bit ho (writeBit_buffers b h s.ports)
  · exact exec_bwWrite_bit ho (writeBit_pushes b (by omega) s.ports)

theorem exec_bwClose_closed {s : State} (h : s.wOpen = false) :
    exec .bwClose s = .next { s with status := doneStatus } :=
  runCommand_of_ok (s' := s.start) (by simp [bwClose, bind_run, h])

/-- Padding with zeros is a product (40_bitchannel.md R112). -/
theorem shiftLeft_eq_mul_pow (x : Byte) (n : Nat) : x <<< n = x * BitVec.ofNat 8 (2 ^ n) := by
  rw [BitVec.shiftLeft_eq_mul_twoPow]
  refine congrArg (x * ·) (BitVec.eq_of_toNat_eq ?_)
  rw [BitVec.toNat_twoPow, BitVec.toNat_ofNat]

/-- Settles O12: CloseWriter on an open session. -/
theorem bwCloseEffect : Obligations.BwCloseEffect := by
  refine ⟨decode_encode .bwClose, fun s => exec_bwClose_closed, fun s ho h0 => ?_, fun s ho hpos => ?_⟩
  · exact exec_bwClose_open ho (closeWriter_empty h0 s.ports)
  · have hclose := closeWriter_pads hpos s.ports
    rw [shiftLeft_eq_mul_pow] at hclose
    simpa [Ports.record, Ports.setLog, Ports.log, WriterChan.fresh] using exec_bwClose_open ho hclose

/-! ### The reader -/

theorem exec_brOpen_open {s : State} (h : s.rOpen = true) :
    exec .brOpen s = .next { s with status := errStatus 11#4 } :=
  runCommand_of_error (e := .sequenceError) (s' := s.start) (by simp [brOpen, h])

/-- Settles O13, by whether a session is open. -/
theorem brOpenEffect : Obligations.BrOpenEffect :=
  ⟨decode_encode .brOpen, fun _ => exec_brOpen_open, fun _ => exec_brOpen_closed⟩

/-- The two reads, each with the STATUS it gives when the read produces END (40_bitchannel.md R118, R119). -/
inductive ReadCommand : Instr → Status → Prop where
  | read : ReadCommand .brRead doneStatus
  | readReq : ReadCommand .brReadReq (errStatus 3#4)

theorem exists_readCommand {i : Instr} (hi : i = .brRead ∨ i = .brReadReq) : ∃ st, ReadCommand i st := by
  obtain rfl | rfl := hi
  · exact ⟨_, .read⟩
  · exact ⟨_, .readReq⟩

/-- What a read that gives `st` at the end makes of the answer of ReadBit (40_bitchannel.md R118, R119). -/
def State.afterRead (s : State) (st : Status) : BitRead → State
  | .bit b => { s with status := doneStatus, result := .ofBit b }
  | .endOf => { s with status := st, result := .atEnd }
  | .fail => { s with status := errStatus 1#4 }

@[simp] theorem afterRead_rOpen (s : State) (st : Status) (x : BitRead) : (s.afterRead st x).rOpen = s.rOpen := by
  cases x <;> rfl

theorem newEvents_of_hist {evs : List Event} {s s' : State} (h : s'.ports.hist = s.ports.hist ++ evs) :
    newEvents s s' = evs := by
  rw [newEvents, h, List.drop_left]

section Reads
variable {i : Instr} {st : Status} {s : State} (hi : ReadCommand i st)
include hi

/-- On a closed reader a read produces END (40_bitchannel.md R118, R119). -/
theorem exec_read_closed (h : s.rOpen = false) : exec i s = .next { s with status := st, result := .atEnd } := by
  cases hi with
  | read =>
    exact runCommand_of_ok (s' := { s.start with result := .atEnd }) (by simp [brRead, bind_run, h, setResult])
  | readReq =>
    exact runCommand_of_error (e := .unexpectedEndOfStream) (s' := { s.start with result := .atEnd })
      (by simp [brReadReq, requiredAtEnd, bind_run, h, setResult])

/-- On an open reader a read is ReadBit (40_bitchannel.md R118, R119). -/
theorem exec_read_open {x : BitRead} {r : ReaderChan} {ps : Ports} (ho : s.rOpen = true)
    (h : readBit s.rChan s.ports = .ok (x, r) ps) :
    exec i s = .next ({ s with rChan := r, ports := ps }.afterRead st x) := by
  have hrun : hostReadBit s.start = .ok x { s.start with ports := ps, rChan := r } :=
    hostReadBit_of_ok (s := s.start) h
  rw [exec_eq_runCommand]
  cases hi with
  | read =>
    simp only [bodyOf, brRead, runCommand, bind_run, get_run, start_rOpen, ho, if_true, hrun]
    cases x <;> rfl
  | readReq =>
    simp only [bodyOf, brReadReq, runCommand, bind_run, get_run, start_rOpen, ho, if_true, hrun]
    cases x <;> rfl

/-- A buffered bit is taken without a pull (40_bitchannel.md R113). -/
theorem exec_read_buffered {n : Nat} (h : n + 1 < 9) (ho : s.rOpen = true) (hn : s.rChan.nb = ⟨n + 1, h⟩) :
    exec i s = .next { s with
      status := doneStatus
      result := ⟨s.rChan.buf.getLsbD n, false⟩
      rChan := ⟨s.rChan.buf, ⟨n, Nat.lt_of_succ_lt h⟩⟩ } := by
  have hread := readBit_buffered (r := s.rChan) (by simp [hn]) s.ports
  have htake : takeBit s.rChan = (.bit (s.rChan.buf.getLsbD n), ⟨s.rChan.buf, ⟨n, Nat.lt_of_succ_lt h⟩⟩) := by
    simp [takeBit, hn]
  exact exec_read_open hi ho (hread.trans (congrArg (EStateM.Result.ok · s.ports) htake))

/-- With no bit buffered, a failed IN is EmptyInput (40_bitchannel.md R113, R118). -/
theorem exec_read_failed (ho : s.rOpen = true) (h0 : s.rChan.nb = 0) (hf : s.ports.inp.fail = true) :
    exec i s = .next { s with
      status := errStatus 1#4
      ports := { s.ports with hist := s.ports.hist ++ [.fail .inp] } } := by
  refine exec_read_open hi (x := .fail) (r := s.rChan) (ps := s.ports.record (.fail .inp)) ho ?_
  rw [readBit_pulls (congrArg Fin.val h0), pull_failed (p := .inp) hf]

/-- With no bit buffered, an empty IN is END (40_bitchannel.md R113, R118, R119). -/
theorem exec_read_empty (ho : s.rOpen = true) (h0 : s.rChan.nb = 0) (hin : s.ports.inp = ⟨[], false⟩) :
    exec i s = .next { s with
      status := st
      result := ⟨false, true⟩
      ports := { s.ports with hist := s.ports.hist ++ [.endOf .inp] } } := by
  refine exec_read_open hi (x := .endOf) (r := s.rChan) (ps := s.ports.record (.endOf .inp)) ho ?_
  rw [readBit_pulls (congrArg Fin.val h0), pull_empty (p := .inp) (congrArg Source.fail hin) (congrArg Source.q hin)]

/-- With no bit buffered, a byte queued on IN gives its bit 7 (40_bitchannel.md R113). -/
theorem exec_read_byte {b : Byte} {rest : List Byte} (ho : s.rOpen = true) (h0 : s.rChan.nb = 0)
    (hin : s.ports.inp = ⟨b :: rest, false⟩) :
    exec i s = .next { s with
      status := doneStatus
      result := ⟨b.getLsbD 7, false⟩
      rChan := ⟨b, 7⟩
      ports := { s.ports with inp := ⟨rest, false⟩, hist := s.ports.hist ++ [.pull .inp b] } } := by
  refine exec_read_open hi (x := .bit (b.getLsbD 7)) (r := ⟨b, 7⟩)
    (ps := (s.ports.setSource .inp ⟨rest, false⟩).record (.pull .inp b)) ho ?_
  rw [readBit_pulls (congrArg Fin.val h0), pull_byte (p := .inp) (congrArg Source.fail hin) (congrArg Source.q hin)]
  rfl

/-- With no bit buffered a read makes one pull and leaves the reader open (40_bitchannel.md R113, R121). -/
theorem exec_read_pulls_once (ho : s.rOpen = true) (h0 : s.rChan.nb = 0) :
    ∃ s1, exec i s = .next s1 ∧ s1.rOpen = true ∧ newEvents s s1 = [pullEvent s.ports.inp] := by
  cases hin : s.ports.inp with
  | mk q fail =>
    cases fail with
    | true => exact ⟨_, exec_read_failed hi ho h0 (congrArg Source.fail hin), ho, newEvents_of_hist rfl⟩
    | false =>
      cases q with
      | nil => exact ⟨_, exec_read_empty hi ho h0 hin, ho, newEvents_of_hist rfl⟩
      | cons b rest => exact ⟨_, exec_read_byte hi ho h0 hin, ho, newEvents_of_hist rfl⟩

/-- No read closes an open reader (40_bitchannel.md R118, R119). -/
theorem exec_read_keeps_rOpen (ho : s.rOpen = true) : ∃ s1, exec i s = .next s1 ∧ s1.rOpen = true := by
  obtain ⟨x, r, ps, hrun, -⟩ := readBit_answers s.rChan s.ports
  exact ⟨_, exec_read_open hi ho hrun, (afterRead_rOpen _ st x).trans ho⟩

end Reads

/-- Settles O14, by what the reader holds and what IN answers. -/
theorem brReadEffect : Obligations.BrReadEffect :=
  ⟨decode_encode .brRead, fun _ => exec_read_closed .read, fun _ _ => exec_read_buffered .read,
    fun _ => exec_read_failed .read, fun _ => exec_read_empty .read, fun _ _ _ => exec_read_byte .read⟩

/-- Settles O15, by what the reader holds and what IN answers. -/
theorem brReadReqEffect : Obligations.BrReadReqEffect :=
  ⟨decode_encode .brReadReq, fun _ => exec_read_closed .readReq, fun _ _ => exec_read_buffered .readReq,
    fun _ => exec_read_failed .readReq, fun _ => exec_read_empty .readReq, fun _ _ _ => exec_read_byte .readReq⟩

theorem exec_brClose_closed {s : State} (h : s.rOpen = false) :
    exec .brClose s = .next { s with status := doneStatus } :=
  runCommand_of_ok (s' := s.start) (by simp [brClose, bind_run, h])

theorem exec_brClose_open {s : State} (h : s.rOpen = true) :
    exec .brClose s = .next { s with
      status := doneStatus
      rOpen := false
      rChan := .fresh
      ports := s.ports.record (.rel (.src .inp)) } :=
  runCommand_of_ok (s' := { s.start with
    rOpen := false, rChan := .fresh, ports := s.ports.record (.rel (.src .inp)) })
    (by simp [brClose, bind_run, onPorts_run, release_run, h])

/-- Settles O16, by whether a session is open. -/
theorem brCloseEffect : Obligations.BrCloseEffect :=
  ⟨decode_encode .brClose, fun _ => exec_brClose_closed, fun _ => exec_brClose_open⟩

end Sys2Proof.Machine
end

section
/-! PROOF. What the channel registers are to the other commands: a codec does the same whatever they hold
(40_bitchannel.md R122), and an open reader stays open until BR_CLOSE or reset (R121). -/

namespace Sys2Proof.Machine

/-! ### Codecs and the channel registers -/

/-- A codec command is a body over the ports that keeps within its bounds (40_bitchannel.md R122, log entry 9). -/
theorem exists_codecBody {i : Instr} (h : isCodec i = true) :
    ∃ body, (∀ c ps, NoOverrun (body c) ps) ∧ ∀ s, exec i s = runCommand (codec body) s := by
  cases i with
  | hufEnc => exact ⟨hufEncBody, noOverrun_hufEncBody, fun _ => rfl⟩
  | hufDec => exact ⟨hufDecBody, noOverrun_hufDecBody, fun _ => rfl⟩
  | lzEnc => exact ⟨lzEncBody, noOverrun_lzEncBody, fun _ => rfl⟩
  | lzDec => exact ⟨lzDecBody, noOverrun_lzDecBody, fun _ => rfl⟩
  | _ => cases h

/-- Settles O52: the body runs on the ports alone, so its end does not depend on a register. -/
theorem codecsIgnoreAndKeepChannelRegisters : Obligations.CodecsIgnoreAndKeepChannelRegisters := by
  intro i s hi
  obtain ⟨body, hwithin, hexec⟩ := exists_codecBody hi
  simp only [hexec]
  refine ⟨runCommand_codec_open, fun hc => ?_⟩
  cases hb : body s.config s.ports with
  | ok _ ps =>
    exact ⟨doneStatus, ps, fun w r res =>
      runCommand_codec_ok (s := { s with wChan := w, rChan := r, result := res }) hc hb⟩
  | error stop ps =>
    cases stop with
    | err e =>
      exact ⟨errStatus e.code, ps, fun w r res =>
        runCommand_codec_error (s := { s with wChan := w, rChan := r, result := res }) hc hb⟩
    | overrun => exact absurd hb (hwithin _ _ _)

/-! ### What ends a reader session -/

/-- No command but BR_CLOSE closes an open reader (40_bitchannel.md R121). -/
theorem exec_keeps_rOpen {i : Instr} {s : State} (hi : i ≠ .brClose) (ho : s.rOpen = true) :
    ∃ s', exec i s = .next s' ∧ s'.rOpen = true := by
  cases i with
  | bwOpen =>
    cases hw : s.wOpen with
    | true => exact ⟨_, exec_bwOpen_open hw, ho⟩
    | false => exact ⟨_, exec_bwOpen_closed hw, ho⟩
  | bwWrite opa =>
    cases hw : s.wOpen with
    | true =>
      by_cases hopa : opa.toNat ≤ 1
      · obtain ⟨b, rfl⟩ := exists_bitByte hopa
        obtain ⟨w, ps, hrun, -⟩ := writeBit_accesses (l := [.sink .out]) (by decide) s.wChan b s.ports
        exact ⟨_, exec_bwWrite_bit hw hrun, ho⟩
      · exact ⟨_, exec_bwWrite_invalid hw (by omega), ho⟩
    | false => exact ⟨_, exec_bwWrite_closed hw opa, ho⟩
  | bwClose =>
    cases hw : s.wOpen with
    | true =>
      obtain ⟨w, ps, hrun, -⟩ := closeWriter_accesses (l := [.sink .out]) (by decide) s.wChan s.ports
      exact ⟨_, exec_bwClose_open hw hrun, ho⟩
    | false => exact ⟨_, exec_bwClose_closed hw, ho⟩
  | brOpen => exact ⟨_, exec_brOpen_open ho, ho⟩
  | brRead => exact exec_read_keeps_rOpen .read ho
  | brReadReq => exact exec_read_keeps_rOpen .readReq ho
  | brClose => exact absurd rfl hi
  | hufEnc | hufDec | lzEnc | lzDec => exact ⟨_, runCommand_codec_open (fun ⟨_, hr⟩ => nomatch ho.symm.trans hr), ho⟩

/-- A CMD write that closes an open reader is BR_CLOSE's word (40_bitchannel.md R121). -/
theorem commandWrite_closes_reader {v : Word} {s s' : State} (ho : s.rOpen = true)
    (h : commandWrite v s = .next s') (hc : s'.rOpen = false) : v = encode .brClose := by
  cases hd : decode v with
  | error e =>
    cases h.symm.trans (commandWrite_illegal hd s)
    simp [ho] at hc
  | ok i =>
    by_contra hv
    have hi : i ≠ .brClose := by
      rintro rfl
      exact hv ((decodeIffEncode v _).mp hd)
    obtain ⟨s1, hexec, ho1⟩ := exec_keeps_rOpen hi ho
    cases (h.symm.trans (commandWrite_legal hd s)).trans hexec
    simp [ho1] at hc

/-- What a host action can do to the registers when it is not refused: nothing, unless it is a write to CMD or a reset
(70_reset_and_hazards.md R262). -/
theorem perform_cases_by_action {a : HostAction} {s s' : State} (h : perform a s = .next s') :
    (∃ v, a = .write 0 4 v ∧ commandWrite v s = .next s') ∨
    (∃ ps rd, s' = { s with ports := ps, readData := rd }) ∨
    a = .reset ∨ ∃ v n, a = .resetDuring v n := by
  cases a with
  | reset => exact .inr (.inr (.inl rfl))
  | resetDuring v n => exact .inr (.inr (.inr ⟨v, n, rfl⟩))
  | write off size v =>
    simp only [perform] at h
    split_ifs at h with hvalid hoff
    · subst hoff
      obtain rfl : size = 4 := by simpa [validAccess] using hvalid
      exact .inl ⟨v, rfl, h⟩
    · cases h
      exact .inr (.inl ⟨s.ports, s.readData, rfl⟩)
  | read off size =>
    simp only [perform] at h
    split_ifs at h
    cases h
    exact .inr (.inl ⟨s.ports, _, rfl⟩)
  | load | setFail | drain | copyTable =>
    simp only [perform] at h
    exact .inr (.inl ⟨_, s.readData, portAction_next h⟩)
  | editSource | editSink => cases h

/-- What stands next when a step closes an open reader (40_bitchannel.md R121). -/
theorem step_closes_reader {s s' : State} (ho : s.rOpen = true) (h : step s = .next s') (hc : s'.rOpen = false) :
    ∃ rest, s.pending = .write 0 4 (encode .brClose) :: rest ∨ s.pending = .reset :: rest ∨
      ∃ v n, s.pending = .resetDuring v n :: rest := by
  cases hp : s.pending with
  | nil =>
    cases (step_idle hp).symm.trans h
    simp [ho] at hc
  | cons a rest =>
    refine ⟨rest, ?_⟩
    obtain ⟨v, rfl, hcmd⟩ | ⟨ps, rd, rfl⟩ | rfl | ⟨v, n, rfl⟩ :=
      perform_cases_by_action ((step_performs hp).symm.trans h)
    · obtain rfl := commandWrite_closes_reader (s := { s with pending := rest }) ho hcmd hc
      exact .inl rfl
    · simp [ho] at hc
    · exact .inr (.inl rfl)
    · exact .inr (.inr ⟨v, n, rfl⟩)

theorem exec_brClose_closes {s s1 : State} (h : exec .brClose s = .next s1) : s1.rOpen = false := by
  cases ho : s.rOpen with
  | true => cases h.symm.trans (exec_brClose_open ho); rfl
  | false => cases h.symm.trans (exec_brClose_closed ho); exact ho

/-- Settles O19: an END leaves the reader empty and open, so the next read pulls; what closes a reader leaves it closed
whatever the ports are. -/
theorem openReaderReadsOnAfterEnd : Obligations.OpenReaderReadsOnAfterEnd := by
  refine ⟨fun s i hi ho h0 => ?_, fun s i hi ho h0 hin => ?_, fun s s' => step_closes_reader, fun s s1 ps h => ?_⟩
  · obtain ⟨st, hread⟩ := exists_readCommand hi
    exact exec_read_pulls_once hread ho h0
  · obtain ⟨st, hread⟩ := exists_readCommand hi
    refine ⟨_, exec_read_empty hread ho h0 hin, rfl, ho, h0, fun j b rest hj => ?_⟩
    obtain ⟨st', hread'⟩ := exists_readCommand hj
    exact ⟨_, exec_read_byte (b := b) (rest := rest) hread' ho h0 rfl, rfl, rfl, rfl⟩
  · have hc : s1.rOpen = false := by
      obtain h | rfl := h
      · exact exec_brClose_closes h
      · rfl
    exact ⟨exec_read_closed .read (s := { s1 with ports := ps }) hc,
      exec_read_closed .readReq (s := { s1 with ports := ps }) hc⟩

end Sys2Proof.Machine
end

section
/-! PROOF. The frequency list (41_huffman_encoder.md R141, R142): its Symbols and counts, its length, and its stable
order by count. -/

namespace Sys2Proof.Machine

/-! ### The Symbols and counts of the frequency list -/

theorem ofByte_injective : Function.Injective Symbol.ofByte := fun _ _ h =>
  BitVec.eq_of_toNat_eq (Fin.mk.inj h)

/-- The count a list has for a Symbol, its entries taken together; 0 without one. -/
def countOf (k : Symbol) (fs : List Freq) : Nat := (fs.map fun f => if f.sym = k then f.cnt else 0).sum

theorem countOf_cons (k : Symbol) (f : Freq) (fs : List Freq) :
    countOf k (f :: fs) = (if f.sym = k then f.cnt else 0) + countOf k fs := List.sum_cons

theorem countOf_eq_zero {k : Symbol} {fs : List Freq} (h : k ∉ fs.map Freq.sym) : countOf k fs = 0 := by
  refine List.sum_eq_zero fun n hn => ?_
  obtain ⟨f, hf, rfl⟩ := List.mem_map.mp hn
  exact if_neg fun hk => h (List.mem_map.mpr ⟨f, hf, hk⟩)

/-- In a list with no Symbol twice an entry is a Symbol of the list with its count. -/
theorem mem_iff_countOf {fs : List Freq} (h : (fs.map Freq.sym).Nodup) (k : Symbol) (c : Nat) :
    (⟨k, c⟩ : Freq) ∈ fs ↔ k ∈ fs.map Freq.sym ∧ c = countOf k fs := by
  induction fs with
  | nil => simp
  | cons f fs ih =>
    obtain ⟨hf, hfs⟩ := List.nodup_cons.mp h
    rw [List.mem_cons, ih hfs, List.map_cons, List.mem_cons, countOf_cons]
    by_cases hk : f.sym = k
    · subst hk
      cases f
      simp [hf, countOf_eq_zero hf]
    · have hne : (⟨k, c⟩ : Freq) ≠ f := fun he => hk (he ▸ rfl)
      simp [hk, hne, Ne.symm hk]

/-- Counting a Symbol adds one to its count and to no other (41_huffman_encoder.md R141). -/
theorem countOf_countSymbol (k j : Symbol) (fs : List Freq) :
    countOf k (countSymbol j fs) = countOf k fs + if j = k then 1 else 0 := by
  induction fs with
  | nil => simp [countSymbol, countOf]
  | cons f fs ih =>
    rw [countSymbol, countOf_cons]
    rcases lt_trichotomy j f.sym with hlt | heq | hgt
    · simp [hlt, hlt.ne', countOf_cons, Nat.add_comm]
    · subst heq
      by_cases hk : f.sym = k
      · simp [hk, countOf_cons, Nat.add_right_comm]
      · simp [hk, countOf_cons]
    · simp [hgt.ne, hgt.not_gt, countOf_cons, ih, Nat.add_assoc]

/-- The count of Symbol 256 starts at 1, and each input byte adds one to its own (41_huffman_encoder.md R141). -/
theorem countOf_frequencyCount (k : Symbol) (s : List Byte) :
    countOf k (frequencyCount s) = (if eos = k then 1 else 0) + (s.map Symbol.ofByte).count k := by
  induction s using List.reverseRecOn with
  | nil => simp [frequencyCount, countOf]
  | append_singleton s b ih =>
    rw [frequencyCount, List.foldl_concat, ← frequencyCount, countOf_countSymbol, ih]
    simp [List.count_singleton, Nat.add_assoc]

/-- The Symbols of the frequency list are Symbol 256 and the input's bytes (41_huffman_encoder.md R141). -/
theorem mem_frequencyCount_sym (k : Symbol) (s : List Byte) :
    k ∈ (frequencyCount s).map Freq.sym ↔ k = eos ∨ ∃ b ∈ s, k = Symbol.ofByte b := by
  induction s using List.reverseRecOn with
  | nil => simp [frequencyCount]
  | append_singleton s b ih =>
    rw [frequencyCount, List.foldl_concat, ← frequencyCount, mem_countSymbol, ih]
    simp only [List.mem_append, List.mem_singleton, or_and_right, exists_or, exists_eq_left]
    exact or_comm.trans or_assoc

theorem frequencyCount_nodup (s : List Byte) : ((frequencyCount s).map Freq.sym).Nodup :=
  (frequencyCount_sorted s).imp ne_of_lt

/-- Settles O20: an entry is a Symbol of the list with its count, which is 1 for Symbol 256 and the number of
occurrences for a byte. -/
theorem frequencyCountCountsEveryByte : Obligations.FrequencyCountCountsEveryByte := by
  refine fun s => ⟨List.pairwise_map.mp (frequencyCount_sorted s), fun k c => ?_⟩
  have hnoeos : (s.map Symbol.ofByte).count eos = 0 := List.count_eq_zero_of_not_mem (by simp [ofByte_ne_eos])
  rw [mem_iff_countOf (frequencyCount_nodup s), mem_frequencyCount_sym, countOf_frequencyCount, or_and_right]
  refine or_congr (and_congr_right ?_) ⟨?_, ?_⟩
  · rintro rfl
    simp [hnoeos]
  · rintro ⟨⟨b, hb, rfl⟩, hc⟩
    refine ⟨b, hb, rfl, ?_⟩
    simpa [(ofByte_ne_eos b).symm, List.count_map_of_injective _ _ ofByte_injective] using hc
  · rintro ⟨b, hb, rfl, rfl⟩
    refine ⟨⟨b, hb, rfl⟩, ?_⟩
    simp [(ofByte_ne_eos b).symm, List.count_map_of_injective _ _ ofByte_injective]

/-- One entry per distinct byte, and one for Symbol 256 (41_huffman_encoder.md R141). -/
theorem frequencyCount_length (s : List Byte) : (frequencyCount s).length = s.toFinset.card + 1 := by
  have hsyms : ((frequencyCount s).map Freq.sym).toFinset = insert eos (s.toFinset.image Symbol.ofByte) := by
    ext k
    simp only [List.mem_toFinset, mem_frequencyCount_sym, Finset.mem_insert, Finset.mem_image, eq_comm]
  have hnoeos : eos ∉ s.toFinset.image Symbol.ofByte := by simp [ofByte_ne_eos]
  rw [← List.length_map Freq.sym, ← List.toFinset_card_of_nodup (frequencyCount_nodup s), hsyms,
    Finset.card_insert_of_notMem hnoeos, Finset.card_image_of_injective _ ofByte_injective]

/-! ### The order by count -/

/-- `a` comes before `b`: a greater count, or an equal one and a smaller Symbol (41_huffman_encoder.md R142). -/
def Freq.before (a b : Freq) : Prop := b.cnt < a.cnt ∨ (a.cnt = b.cnt ∧ a.sym < b.sym)

theorem before_of_le {a b : Freq} (hcnt : b.cnt ≤ a.cnt) (hsym : a.sym < b.sym) : a.before b :=
  hcnt.lt_or_eq.imp_right fun h => ⟨h.symm, hsym⟩

theorem before_cnt_le {a b : Freq} (h : a.before b) : b.cnt ≤ a.cnt := h.elim le_of_lt fun h => h.1.ge

/-- An entry with a smaller Symbol than all others is put before those of an equal count (41_huffman_encoder.md
R142). -/
theorem orderedInsert_before {f : Freq} {fs : List Freq} (hf : ∀ g ∈ fs, f.sym < g.sym)
    (h : fs.Pairwise Freq.before) : (fs.orderedInsert (fun a b => b.cnt ≤ a.cnt) f).Pairwise Freq.before := by
  induction fs with
  | nil => simp
  | cons g gs ih =>
    obtain ⟨hg, hgs⟩ := List.pairwise_cons.mp h
    by_cases hle : g.cnt ≤ f.cnt
    · have hcnt (x : Freq) (hx : x ∈ g :: gs) : x.cnt ≤ f.cnt := by
        rcases List.mem_cons.mp hx with rfl | hx
        · exact hle
        · exact (before_cnt_le (hg x hx)).trans hle
      rw [List.orderedInsert_cons, if_pos hle]
      exact List.pairwise_cons.mpr ⟨fun x hx => before_of_le (hcnt x hx) (hf x hx), h⟩
    · rw [List.orderedInsert_cons, if_neg hle]
      refine List.pairwise_cons.mpr ⟨fun x hx => ?_, ih (fun x hx => hf x (List.mem_cons_of_mem _ hx)) hgs⟩
      rcases (List.mem_orderedInsert _).mp hx with rfl | hx
      · exact .inl (not_le.mp hle)
      · exact hg x hx

/-- The stable sort of a list ascending by Symbol (41_huffman_encoder.md R142). -/
theorem orderByCount_before {fs : List Freq} (h : (fs.map Freq.sym).Pairwise (· < ·)) :
    (orderByCount fs).Pairwise Freq.before := by
  induction fs with
  | nil => exact .nil
  | cons f fs ih =>
    obtain ⟨hf, hfs⟩ := List.pairwise_cons.mp h
    rw [orderByCount, List.insertionSort_cons]
    refine orderedInsert_before (fun g hg => hf _ (List.mem_map_of_mem ?_)) (ih hfs)
    exact (List.mem_insertionSort _).mp hg

/-- Settles O21: an insertion into the ordered rest of an ascending list keeps equal counts ascending by Symbol. -/
theorem frequencyOrderDescendingThenBySymbol : Obligations.FrequencyOrderDescendingThenBySymbol :=
  ⟨fun s => ⟨List.perm_insertionSort _ _, orderByCount_before (frequencyCount_sorted s)⟩, by decide +kernel⟩

end Sys2Proof.Machine
end

section
/-! PROOF. The tree of an input and the codes its paths give (41_huffman_encoder.md R143 to R146, R153): no placeholder
but for the empty input, and the paths to the Leaves as what Walk writes into the table. -/

namespace Sys2Proof.Machine

/-! ### The tree without a placeholder -/

/-- A merge makes no placeholder (41_huffman_encoder.md R143). -/
theorem mergeOnce_full {ns : List Weighted} (hlen : 2 ≤ ns.length) (h : ∀ x ∈ ns, x.node.full = true) :
    ∀ x ∈ mergeOnce ns, x.node.full = true := by
  obtain ⟨pre, a, b, rfl⟩ := exists_eq_append_pair hlen
  intro x hx
  rw [mergeOnce_append, orderByWeight, List.mem_insertionSort, List.mem_append, List.mem_singleton] at hx
  rcases hx with hx | rfl
  · exact h x (by simp [hx])
  · simp [mergeWeighted, Node.full, h a, h b]

/-- From two nodes on, both children of the Root are without a placeholder (41_huffman_encoder.md R143). -/
theorem buildLoop_full {n : Nat} {ns : List Weighted} {r : Root} (hlen : 2 ≤ ns.length)
    (hfull : ∀ x ∈ ns, x.node.full = true) (h : buildLoop n ns = .ok r) : r.left.full = true ∧ r.right.full = true := by
  fun_induction buildLoop n ns with
  | case1 => cases hlen
  | case2 => simp at hlen
  | case3 _ x y =>
    cases h
    exact ⟨hfull x (by simp), hfull y (by simp)⟩
  | case4 => cases h
  | case5 n x y z rest ih =>
    have hmerged : (mergeOnce (x :: y :: z :: rest)).length + 1 = rest.length + 3 := mergeOnce_length (by simp)
    exact ih (by omega) (mergeOnce_full (by simp) hfull) h

theorem orderByCount_length (fs : List Freq) : (orderByCount fs).length = fs.length := List.length_insertionSort _ _

/-- The tree of a nonempty input (41_huffman_encoder.md R143, R145). -/
theorem treeBuild_full {s : List Byte} {r : Root} (hs : s ≠ [])
    (h : treeBuild (orderByCount (frequencyCount s)) = .ok r) : r.left.full = true ∧ r.right.full = true := by
  have hbytes : 0 < s.toFinset.card := Finset.card_pos.mpr (List.toFinset_nonempty_iff s |>.mpr hs)
  refine buildLoop_full ?_ (fun x hx => ?_) h
  · rw [List.length_map, orderByCount_length, frequencyCount_length]
    omega
  · obtain ⟨f, -, rfl⟩ := List.mem_map.mp hx
    rfl

/-- The tree of the empty input (41_huffman_encoder.md R145). -/
theorem treeBuild_nil : treeBuild (orderByCount (frequencyCount [])) = .ok ⟨.leaf eos, .empty⟩ := rfl

/-- Settles O22: the list has one entry more than the input has distinct bytes, and the tree of two entries or more has
no placeholder. -/
theorem encoderTreeDegenerateOnlyForEmptyInput : Obligations.EncoderTreeDegenerateOnlyForEmptyInput := by
  refine ⟨fun _ => rfl, fun s => ?_⟩
  rw [orderByCount_length, frequencyCount_length]
  refine ⟨by simp, fun hs hsame => ?_, ?_⟩
  · obtain ⟨b, hb⟩ := List.exists_mem_of_ne_nil s hs
    have hone : s.toFinset = {b} := by
      ext c
      simp only [List.mem_toFinset, Finset.mem_singleton]
      exact ⟨fun hc => hsame c hc b hb, fun hc => hc ▸ hb⟩
    rw [hone, Finset.card_singleton]
  · obtain ⟨r, hr, -⟩ := treeBuild_syms s
    refine ⟨r, hr, fun hempty => by_contra fun hs => ?_, ?_⟩
    · obtain ⟨-, hright⟩ := treeBuild_full hs hr
      rw [hempty] at hright
      cases hright
    · rintro rfl
      rw [treeBuild_nil] at hr
      cases hr
      rfl

/-! ### The paths to the Leaves -/

/-- The Leaves of a node, left before right, each with its path from the node (41_huffman_encoder.md R146). -/
def Node.leafPaths : Node → List (Symbol × BitSeq)
  | .leaf k => [(k, [])]
  | .branch l r _ _ =>
    (l.leafPaths.map fun x => (x.1, false :: x.2)) ++ r.leafPaths.map fun x => (x.1, true :: x.2)
  | .empty => []

/-- The Branch that stands for a Root. -/
def Root.node (r : Root) : Node := .branch r.left r.right 0 []

theorem leafPaths_syms (n : Node) : n.leafPaths.map Prod.fst = n.syms := by
  induction n with
  | leaf k => rfl
  | empty => rfl
  | branch l r _ _ ihl ihr => simp [Node.leafPaths, Node.syms, ← ihl, ← ihr, Function.comp_def]

theorem mem_leafPaths_branch {l r : Node} {c : Nat} {x : BitSeq} {k : Symbol} {p : BitSeq} :
    (k, p) ∈ (Node.branch l r c x).leafPaths ↔
      ∃ b q, p = b :: q ∧ (k, q) ∈ ((⟨l, r⟩ : Root).child b).leafPaths := by
  simp [Node.leafPaths, Root.child, and_comm, eq_comm]

/-- A path to a Leaf that another Leaf's path begins with is the same Leaf's (41_huffman_encoder.md R153 (b)). -/
theorem leafPaths_prefixFree {n : Node} {k k' : Symbol} {p p' : BitSeq} (h : (k, p) ∈ n.leafPaths)
    (h' : (k', p') ∈ n.leafPaths) (hp : p <+: p') : k = k' := by
  induction n generalizing p p' with
  | leaf j =>
    obtain ⟨rfl, -⟩ := Prod.mk.inj (List.mem_singleton.mp h)
    obtain ⟨rfl, -⟩ := Prod.mk.inj (List.mem_singleton.mp h')
    rfl
  | empty => cases h
  | branch l r _ _ ihl ihr =>
    obtain ⟨b, q, rfl, hq⟩ := mem_leafPaths_branch.mp h
    obtain ⟨b', q', rfl, hq'⟩ := mem_leafPaths_branch.mp h'
    obtain ⟨rfl, hqq⟩ := List.cons_prefix_cons.mp hp
    cases b with
    | false => exact ihl hq hq' hqq
    | true => exact ihr hq hq' hqq

theorem syms_length_pos {n : Node} (h : n.full = true) : 0 < n.syms.length := by
  induction n with
  | leaf k => exact Nat.one_pos
  | empty => cases h
  | branch l r _ _ ihl _ =>
    obtain ⟨hl, -⟩ := Bool.and_eq_true_iff.mp h
    have hpos := ihl hl
    rw [Node.syms, List.length_append]
    omega

/-- Each step down from a Branch leaves a Leaf behind (41_huffman_encoder.md R153 (c)). -/
theorem leafPaths_length_lt {n : Node} {k : Symbol} {p : BitSeq} (hn : n.full = true) (h : (k, p) ∈ n.leafPaths) :
    p.length < n.syms.length := by
  induction n generalizing p with
  | leaf j =>
    obtain ⟨rfl, rfl⟩ := Prod.mk.inj (List.mem_singleton.mp h)
    exact Nat.one_pos
  | empty => cases h
  | branch l r _ _ ihl ihr =>
    obtain ⟨hl, hr⟩ := Bool.and_eq_true_iff.mp hn
    have hlpos := syms_length_pos hl
    have hrpos := syms_length_pos hr
    obtain ⟨b, q, rfl, hq⟩ := mem_leafPaths_branch.mp h
    rw [Node.syms, List.length_append, List.length_cons]
    cases b with
    | false =>
      have hlt := ihl hl hq
      omega
    | true =>
      have hlt := ihr hr hq
      omega

/-- The share of the bit sequences that start with one of the codes: the sum of `2^(-length)`
(41_huffman_encoder.md R153 (d)). -/
def codeShare (ps : List BitSeq) : ℚ := (ps.map fun p => (1 / 2 : ℚ) ^ p.length).sum

theorem codeShare_append (ps qs : List BitSeq) : codeShare (ps ++ qs) = codeShare ps + codeShare qs := by
  simp [codeShare]

theorem codeShare_cons_bit (b : Bool) (ps : List BitSeq) : codeShare (ps.map (b :: ·)) = 1 / 2 * codeShare ps := by
  simp only [codeShare, List.map_map, ← List.sum_map_mul_left, Function.comp_def, List.length_cons, pow_succ']

/-- Without a placeholder the paths are complete (41_huffman_encoder.md R153 (d)). -/
theorem codeShare_leafPaths {n : Node} (h : n.full = true) : codeShare (n.leafPaths.map Prod.snd) = 1 := by
  induction n with
  | leaf k => simp [Node.leafPaths, codeShare]
  | empty => cases h
  | branch l r c x ihl ihr =>
    obtain ⟨hl, hr⟩ := Bool.and_eq_true_iff.mp h
    have hsplit : (Node.branch l r c x).leafPaths.map Prod.snd =
        (l.leafPaths.map Prod.snd).map (false :: ·) ++ (r.leafPaths.map Prod.snd).map (true :: ·) := by
      simp [Node.leafPaths, Function.comp_def]
    rw [hsplit, codeShare_append, codeShare_cons_bit, codeShare_cons_bit, ihl hl, ihr hr]
    norm_num

/-! ### What Walk writes -/

theorem walk_leaf_ok {k : Symbol} {p : BitSeq} {t t' : CodeTable} (h : walk (.leaf k) p t = .ok t') :
    t.slot k = none ∧ t' = t.set k.val (some p) := by
  unfold walk at h
  split_ifs at h with hslot
  exact ⟨Option.not_isSome_iff_eq_none.mp hslot, (Except.ok.inj h).symm⟩

theorem walk_branch_ok {l r : Node} {c : Nat} {x p : BitSeq} {t t' : CodeTable}
    (h : walk (.branch l r c x) p t = .ok t') :
    ∃ t1, walk l (p ++ [false]) t = .ok t1 ∧ walk r (p ++ [true]) t1 = .ok t' := by
  rw [walk] at h
  cases hl : walk l (p ++ [false]) t with
  | error e => rw [hl] at h; cases h
  | ok t1 => exact ⟨t1, rfl, by rw [hl] at h; exact h⟩

theorem walk_length {n : Node} {p : BitSeq} {t t' : CodeTable} (h : walk n p t = .ok t') : t'.length = t.length := by
  induction n generalizing p t t' with
  | leaf k =>
    obtain ⟨-, rfl⟩ := walk_leaf_ok h
    exact List.length_set
  | empty =>
    cases h
    rfl
  | branch l r _ _ ihl ihr =>
    obtain ⟨t1, hl, hr⟩ := walk_branch_ok h
    exact (ihr hr).trans (ihl hl)

theorem slot_set_same {t : CodeTable} (k : Symbol) (ht : t.length = 257) (o : Option BitSeq) :
    CodeTable.slot (t.set k.val o) k = o := by
  have hk : k.val < t.length := k.isLt.trans_eq ht.symm
  simp [CodeTable.slot, hk]

/-- Walk from the path `p` fills the slot of each Leaf with `p` and the Leaf's path (41_huffman_encoder.md R146). -/
theorem walk_slot {n : Node} {p : BitSeq} {t t' : CodeTable} (ht : t.length = 257) (h : walk n p t = .ok t')
    (k : Symbol) (q : BitSeq) :
    t'.slot k = some q ↔ t.slot k = some q ∨ ∃ c, q = p ++ c ∧ (k, c) ∈ n.leafPaths := by
  induction n generalizing p t t' with
  | leaf j =>
    obtain ⟨hj, rfl⟩ := walk_leaf_ok h
    by_cases hk : k = j
    · subst hk
      simp [slot_set_same k ht, hj, Node.leafPaths, eq_comm]
    · simp [slot_set_other hk, Node.leafPaths, hk]
  | empty =>
    cases h
    simp [Node.leafPaths]
  | branch l r _ _ ihl ihr =>
    obtain ⟨t1, hl, hr⟩ := walk_branch_ok h
    rw [ihr ((walk_length hl).trans ht) hr, ihl ht hl, or_assoc]
    refine or_congr_right ⟨?_, ?_⟩
    · rintro (⟨c, rfl, hc⟩ | ⟨c, rfl, hc⟩)
      · exact ⟨false :: c, by simp, mem_leafPaths_branch.mpr ⟨false, c, rfl, hc⟩⟩
      · exact ⟨true :: c, by simp, mem_leafPaths_branch.mpr ⟨true, c, rfl, hc⟩⟩
    · rintro ⟨_, rfl, hmem⟩
      obtain ⟨b, c, rfl, hc⟩ := mem_leafPaths_branch.mp hmem
      cases b with
      | false => exact .inl ⟨c, by simp, hc⟩
      | true => exact .inr ⟨c, by simp, hc⟩

theorem codes_set_perm {t : CodeTable} {k : Symbol} (ht : t.length = 257) (hk : t.slot k = none) (p : BitSeq) :
    (CodeTable.codes (t.set k.val (some p))).Perm (p :: t.codes) := by
  have hlt : k.val < t.length := k.isLt.trans_eq ht.symm
  have hnone : t[k.val] = none := by simpa [CodeTable.slot, hlt] using hk
  have hsplit : t.codes = CodeTable.codes (t.take k.val) ++ CodeTable.codes (t.drop (k.val + 1)) := by
    conv_lhs => rw [← List.take_append_drop k.val t, List.drop_eq_getElem_cons hlt, hnone]
    simp [CodeTable.codes]
  rw [hsplit, List.set_eq_take_append_cons_drop, if_pos hlt]
  simp [CodeTable.codes]

/-- Walk adds the codes of the Leaves (41_huffman_encoder.md R146). -/
theorem walk_codes {n : Node} {p : BitSeq} {t t' : CodeTable} (ht : t.length = 257) (h : walk n p t = .ok t') :
    t'.codes.Perm (t.codes ++ n.leafPaths.map fun x => p ++ x.2) := by
  induction n generalizing p t t' with
  | leaf j =>
    obtain ⟨hj, rfl⟩ := walk_leaf_ok h
    simpa [Node.leafPaths] using (codes_set_perm ht hj p).trans (List.perm_append_singleton _ _).symm
  | empty =>
    cases h
    simp [Node.leafPaths]
  | branch l r _ _ ihl ihr =>
    obtain ⟨t1, hl, hr⟩ := walk_branch_ok h
    refine (ihr ((walk_length hl).trans ht) hr).trans (((ihl ht hl).append_right _).trans (.of_eq ?_))
    simp [Node.leafPaths, Function.comp_def]

/-! ### The table of an input -/

/-- The table of an input is what Walk writes from its tree's Root (41_huffman_encoder.md R146, R149). -/
theorem encoderTable_tree {s : List Byte} {t : CodeTable} (h : encoderTable s = .ok t) :
    ∃ r, treeBuild (orderByCount (frequencyCount s)) = .ok r ∧ walk r.node [] .empty = .ok t ∧
      r.node.syms.Perm ((frequencyCount s).map Freq.sym) := by
  obtain ⟨r, hr, hsyms⟩ := treeBuild_syms s
  rw [encoderTable, hr] at h
  exact ⟨r, hr, h, hsyms⟩

theorem empty_length : CodeTable.empty.length = 257 := List.length_replicate

/-- From the empty table each slot holds the path to its Symbol's Leaf (41_huffman_encoder.md R146). -/
theorem walk_empty_slot {n : Node} {t : CodeTable} (h : walk n [] .empty = .ok t) (k : Symbol) (p : BitSeq) :
    t.slot k = some p ↔ (k, p) ∈ n.leafPaths := by
  simp [walk_slot empty_length h, empty_slot]

theorem walk_empty_codes {n : Node} {t : CodeTable} (h : walk n [] .empty = .ok t) :
    t.codes.Perm (n.leafPaths.map Prod.snd) := by
  have hnone : CodeTable.empty.codes = [] := by simp [CodeTable.codes, CodeTable.empty]
  simpa [hnone] using walk_codes empty_length h

/-- Settles O23: the Leaves are of the Symbols counted. -/
theorem encoderTablePresentSlots : Obligations.EncoderTablePresentSlots := by
  intro s t h
  obtain ⟨r, -, hwalk, hsyms⟩ := encoderTable_tree h
  refine ⟨(walk_length hwalk).trans empty_length, fun k => ?_⟩
  calc (t.slot k).isSome = true
      ↔ ∃ p, (k, p) ∈ r.node.leafPaths := by simp [Option.isSome_iff_exists, walk_empty_slot hwalk]
    _ ↔ k ∈ r.node.syms := by simp [← leafPaths_syms]
    _ ↔ k ∈ (frequencyCount s).map Freq.sym := hsyms.mem_iff
    _ ↔ k = eos ∨ ∃ b ∈ s, k = Symbol.ofByte b := mem_frequencyCount_sym k s

/-- Settles O24: the codes are paths to Leaves of one tree. -/
theorem encoderCodesPrefixFree : Obligations.EncoderCodesPrefixFree := by
  intro s t k k' p p' h hk hk' hne hpre
  obtain ⟨r, -, hwalk, -⟩ := encoderTable_tree h
  exact hne (leafPaths_prefixFree ((walk_empty_slot hwalk k p).mp hk) ((walk_empty_slot hwalk k' p').mp hk') hpre)

theorem distinctBytes_le (s : List Byte) : s.toFinset.card ≤ 256 := by
  have hle := (frequencyCount_nodup s).length_le_card
  rw [List.length_map, frequencyCount_length, Fintype.card_fin] at hle
  omega

/-- The table of the empty input: the code 0 for Symbol 256 alone (41_huffman_encoder.md R154). -/
def emptyInputTable : CodeTable := List.replicate 256 none ++ [some [false]]

theorem encoderTable_nil : encoderTable [] = .ok emptyInputTable := by decide +kernel

theorem codes_emptyInputTable : emptyInputTable.codes = [[false]] := by decide +kernel

/-- Settles O25: the codes are the paths to the Leaves, of a tree without a placeholder unless the input is empty, which
has one Leaf more than the input distinct bytes. -/
theorem encoderCodesBoundedAndComplete : Obligations.EncoderCodesBoundedAndComplete := by
  intro s t h
  rcases eq_or_ne s [] with rfl | hs
  · rw [encoderTable_nil] at h
    cases h
    rw [codes_emptyInputTable]
    simp
  · obtain ⟨r, hr, hwalk, hsyms⟩ := encoderTable_tree h
    have hfull : r.node.full = true := Bool.and_eq_true_iff.mpr (treeBuild_full hs hr)
    have hcodes := walk_empty_codes hwalk
    refine ⟨fun p hp => ?_, fun _ => (hcodes.map _).sum_eq.trans (codeShare_leafPaths hfull), fun h0 => absurd h0 hs⟩
    obtain ⟨⟨k, p⟩, hmem, rfl⟩ := List.mem_map.mp (hcodes.mem_iff.mp hp)
    have hlt := leafPaths_length_lt hfull hmem
    rw [hsyms.length_eq, List.length_map, frequencyCount_length] at hlt
    have hd := distinctBytes_le s
    obtain ⟨b, q, rfl, -⟩ := mem_leafPaths_branch.mp hmem
    simp only [List.length_cons] at hlt ⊢
    omega

end Sys2Proof.Machine
end

section
/-! PROOF. HUF_ENC on the empty input and on the worked example (41_huffman_encoder.md R154, R155). -/

namespace Sys2Proof.Machine

/-! ### The empty input -/

theorem tableText_emptyInputTable :
    tableText emptyInputTable = (List.replicate 256 [0x2D#8, 0x0A#8]).flatten ++ [0x30#8, 0x0A#8] := by
  rw [tableText, emptyInputTable, List.flatMap_append, List.flatMap_replicate]
  rfl

theorem payload_emptyInputTable : packBits (payloadBits emptyInputTable []) = [0x00#8] := by decide +kernel

/-- Settles O28: a completed HUF_ENC with this table. -/
theorem hufEncEmptyInput : Obligations.HufEncEmptyInput := by
  refine ⟨rfl, fun s hclosed hinp => ⟨_, tableText_emptyInputTable, by decide +kernel, ?_⟩⟩
  have hq : s.ports.inp.q = [] := congrArg Source.q hinp
  have hfits : fitsInput s.config.inMax s.ports.inp.q.length := fun m _ => by simp [hq]
  obtain ⟨t, ht, -, hexec⟩ := hufEncCompletes s hclosed (congrArg Source.fail hinp) hfits
  rw [hq, encoderTable_nil] at ht
  cases ht
  rw [hexec, hq, payload_emptyInputTable]
  simp [hinp]

/-! ### The worked example -/

/-- The input "ABRACADABRA" (41_huffman_encoder.md R155). -/
def abracadabra : List Byte :=
  [0x41#8, 0x42#8, 0x52#8, 0x41#8, 0x43#8, 0x41#8, 0x44#8, 0x41#8, 0x42#8, 0x52#8, 0x41#8]

/-- The codes of the worked example (41_huffman_encoder.md R155). -/
def abracadabraTable : CodeTable :=
  CodeTable.empty |>.set 0x41 (some [true]) |>.set 0x42 (some [false, false, false])
    |>.set 0x52 (some [false, false, true]) |>.set 0x43 (some [false, true, true])
    |>.set 0x44 (some [false, true, false, false]) |>.set 256 (some [false, true, false, true])

theorem encoderTable_abracadabra : encoderTable abracadabra = .ok abracadabraTable := by decide +kernel

/-- Settles O29: the model runs on the example. -/
theorem hufEncWorkedExample : Obligations.HufEncWorkedExample :=
  ⟨by decide +kernel, abracadabraTable, encoderTable_abracadabra, by decide +kernel⟩

end Sys2Proof.Machine
end

section
/-! PROOF. The order of the decoder's nodes (42_huffman_decoder.md R172): code values, the two stable sorts as one order
by length and value that keeps equal paths in place, the Leaves of a table. -/

namespace Sys2Proof.Machine

/-! ### Code values -/

theorem bitsValue_cons (b : Bool) (p : BitSeq) : bitsValue (b :: p) = b.toNat * 2 ^ p.length + bitsValue p := by
  induction p using List.reverseRecOn with
  | nil => simp [bitsValue]
  | append_singleton p c ih =>
    rw [← List.cons_append, bitsValue_concat, ih, bitsValue_concat, List.length_append, List.length_singleton, pow_succ]
    ring

theorem bitsValue_lt (p : BitSeq) : bitsValue p < 2 ^ p.length := by
  induction p with
  | nil => simp [bitsValue]
  | cons b p ih =>
    have hb := Nat.mul_le_mul_right (2 ^ p.length) (Bool.toNat_le b)
    rw [bitsValue_cons, List.length_cons, pow_succ]
    omega

/-- The first bit decides between values of one length (00_scope.md R10). -/
theorem bitsValue_cons_le_iff {a b : Bool} {p q : BitSeq} (h : p.length = q.length) :
    bitsValue (a :: p) ≤ bitsValue (b :: q) ↔ a < b ∨ a = b ∧ bitsValue p ≤ bitsValue q := by
  have hp := bitsValue_lt p
  have hq := bitsValue_lt q
  rw [h] at hp
  rw [bitsValue_cons, bitsValue_cons, h]
  cases a <;> cases b <;> simp [Bool.lt_iff] <;> omega

theorem codeLe_cons_iff {a b : Bool} {p q : BitSeq} :
    codeLe (a :: p) (b :: q) = true ↔ a < b ∨ a = b ∧ codeLe p q = true := by
  cases a <;> cases b <;> simp [codeLe]

/-- Between codes of one length, code-value order is the order of the values (00_scope.md R10). -/
theorem codeLe_iff_bitsValue_le {p q : BitSeq} (h : p.length = q.length) :
    codeLe p q = true ↔ bitsValue p ≤ bitsValue q := by
  induction p generalizing q with
  | nil =>
    obtain rfl : q = [] := List.length_eq_zero_iff.mp h.symm
    simp [codeLe]
  | cons a p ih =>
    match q, h with
    | b :: q, h =>
      have hlen : p.length = q.length := Nat.succ.inj h
      rw [codeLe_cons_iff, bitsValue_cons_le_iff hlen, ih hlen]

theorem codeLe_total (p q : BitSeq) : codeLe p q = true ∨ codeLe q p = true := by
  induction p generalizing q with
  | nil => exact .inl rfl
  | cons a p ih =>
    cases q with
    | nil => exact .inr rfl
    | cons b q =>
      rw [codeLe_cons_iff, codeLe_cons_iff]
      rcases lt_trichotomy a b with hlt | rfl | hgt
      · exact .inl (.inl hlt)
      · exact (ih q).imp (fun h => .inr ⟨rfl, h⟩) fun h => .inr ⟨rfl, h⟩
      · exact .inr (.inl hgt)

theorem codeLe_trans {p q r : BitSeq} (hpq : codeLe p q = true) (hqr : codeLe q r = true) : codeLe p r = true := by
  induction p generalizing q r with
  | nil => rfl
  | cons a p ih =>
    match q, r, hpq, hqr with
    | b :: q, c :: r, hpq, hqr =>
      rw [codeLe_cons_iff] at hpq hqr ⊢
      obtain hab | ⟨rfl, hpq⟩ := hpq
      · exact .inl (hqr.elim (lt_trans hab) fun h => h.1 ▸ hab)
      · exact hqr.imp id fun h => ⟨h.1, ih hpq h.2⟩

theorem bitsValue_inj {p q : BitSeq} (hlen : p.length = q.length) (h : bitsValue p = bitsValue q) : p = q := by
  induction p generalizing q with
  | nil => exact (List.length_eq_zero_iff.mp hlen.symm).symm
  | cons a p ih =>
    match q, hlen with
    | b :: q, hlen =>
      have hlen' : p.length = q.length := Nat.succ.inj hlen
      have hle := (bitsValue_cons_le_iff hlen').mp h.le
      have hge := (bitsValue_cons_le_iff hlen'.symm).mp h.ge
      obtain rfl : a = b := le_antisymm (hle.elim le_of_lt (·.1.le)) (hge.elim le_of_lt (·.1.le))
      simp only [lt_irrefl, false_or, true_and] at hle hge
      rw [ih hlen' (hle.antisymm hge)]

/-- Of two sequences neither of which comes before the other, each is the other (42_huffman_decoder.md R172). -/
theorem eq_of_not_codeBefore {p q : BitSeq} (h : ¬ codeBefore p q) (h' : ¬ codeBefore q p) : p = q := by
  unfold codeBefore at h h'
  exact bitsValue_inj (by omega) (by omega)

theorem codeBefore_irrefl (p : BitSeq) : ¬ codeBefore p p := by
  unfold codeBefore
  omega

theorem codeBefore_asymm {p q : BitSeq} (h : codeBefore p q) : ¬ codeBefore q p := by
  unfold codeBefore at *
  omega

theorem codeBefore_of_not_codeBefore {p q r : BitSeq} (hpq : codeBefore p q) (hrq : ¬ codeBefore r q) :
    codeBefore p r := by
  unfold codeBefore at *
  omega

/-! ### The two stable sorts -/

/-- A stable sort keeps the order of entries that it does not tell apart. -/
theorem filter_insertionSort {α : Type} {r : α → α → Prop} [DecidableRel r] {f : α → Bool}
    (hf : ∀ a b, f a = true → f b = true → r a b) (l : List α) : (l.insertionSort r).filter f = l.filter f := by
  have hsorted : (l.filter f).Pairwise r :=
    List.pairwise_of_forall_mem_list fun a ha b hb => hf a b (List.of_mem_filter ha) (List.of_mem_filter hb)
  have hsub := (List.sublist_insertionSort hsorted List.filter_sublist).filter f
  rw [List.filter_eq_self.mpr fun a => List.of_mem_filter] at hsub
  exact (hsub.eq_of_length ((List.perm_insertionSort r l).filter f).length_eq.symm).symm

/-- Where two lists agree on some entries, these stand in the same order. -/
theorem pair_sublist_of_filter_eq {α : Type} {f : α → Bool} {l l' : List α} {a b : α} (h : l.filter f = l'.filter f)
    (ha : f a = true) (hb : f b = true) (hab : [a, b].Sublist l) : [a, b].Sublist l' := by
  have hsame := h ▸ hab.filter f
  simp only [List.filter_cons, ha, hb, if_true, List.filter_nil] at hsame
  exact hsame.trans List.filter_sublist

/-- The nodes stand by length, then by value (42_huffman_decoder.md R172). -/
def Ordered (ns : List Pathed) : Prop := ns.Pairwise fun a b => ¬ codeBefore b.path a.path

theorem orderByCode_perm (ns : List Pathed) : (orderByCode ns).Perm ns :=
  (List.perm_insertionSort _ _).trans (List.perm_insertionSort _ _)

/-- Nodes with one path keep their order (42_huffman_decoder.md R172). -/
theorem filter_orderByCode (p : BitSeq) (ns : List Pathed) :
    (orderByCode ns).filter (fun x => x.path = p) = ns.filter fun x => x.path = p := by
  rw [orderByCode, filter_insertionSort, filter_insertionSort]
  · intro a b ha hb
    rw [of_decide_eq_true ha, of_decide_eq_true hb, codeLe_iff_bitsValue_le rfl]
  · intro a b ha hb
    rw [of_decide_eq_true ha, of_decide_eq_true hb]

theorem orderByCode_ordered (ns : List Pathed) : Ordered (orderByCode ns) := by
  have hvalueTotal : Std.Total fun a b : Pathed => codeLe a.path b.path = true := ⟨fun a b => codeLe_total _ _⟩
  have hvalueTrans : IsTrans Pathed fun a b => codeLe a.path b.path = true := ⟨fun _ _ _ => codeLe_trans⟩
  have hlengthTotal : Std.Total fun a b : Pathed => a.path.length ≤ b.path.length := ⟨fun a b => Nat.le_total _ _⟩
  have hlengthTrans : IsTrans Pathed fun a b => a.path.length ≤ b.path.length := ⟨fun _ _ _ => Nat.le_trans⟩
  have hvalue := List.pairwise_insertionSort (fun a b : Pathed => codeLe a.path b.path = true) ns
  refine List.pairwise_iff_forall_sublist.mpr fun {a b} hab hbefore => ?_
  have hle := List.pairwise_iff_forall_sublist.mp (List.pairwise_insertionSort _ _) hab
  obtain hlt | ⟨hlen, hlt⟩ := hbefore
  · omega
  · have hsub : [a, b].Sublist (ns.insertionSort fun a b => codeLe a.path b.path = true) :=
      pair_sublist_of_filter_eq (f := fun x => x.path.length = a.path.length)
        (filter_insertionSort (fun x y hx hy => ((of_decide_eq_true hx).trans (of_decide_eq_true hy).symm).le) _)
        (decide_eq_true rfl) (decide_eq_true hlen) hab
    have hcode := (codeLe_iff_bitsValue_le hlen.symm).mp (List.pairwise_iff_forall_sublist.mp hvalue hsub)
    omega

/-- An order by path with the nodes of each path in a given order is one list. -/
theorem eq_of_ordered {ns ms : List Pathed} (hns : Ordered ns) (hms : Ordered ms)
    (h : ∀ p, ns.filter (fun x => x.path = p) = ms.filter fun x => x.path = p) : ns = ms := by
  induction ns generalizing ms with
  | nil =>
    refine (List.eq_nil_iff_forall_not_mem.mpr fun y hy => ?_).symm
    have hmem : y ∈ ms.filter fun x => x.path = y.path := List.mem_filter.mpr ⟨hy, by simp⟩
    simp [← h] at hmem
  | cons x ns ih =>
    have hx : x ∈ ms := List.mem_of_mem_filter (p := fun y => y.path = x.path) (by simp [← h])
    match ms, hx with
    | y :: ms, hx =>
      have hy : y ∈ x :: ns := List.mem_of_mem_filter (p := fun z => z.path = y.path) (by simp [h])
      obtain ⟨hxns, hns'⟩ := List.pairwise_cons.mp hns
      obtain ⟨hyms, hms'⟩ := List.pairwise_cons.mp hms
      have hpath : x.path = y.path := by
        rcases List.mem_cons.mp hy with rfl | hy
        · rfl
        · rcases List.mem_cons.mp hx with rfl | hx
          · rfl
          · exact eq_of_not_codeBefore (hyms x hx) (hxns y hy)
      have hhead := h x.path
      simp only [List.filter_cons, hpath, decide_true, if_true, List.cons.injEq] at hhead
      obtain ⟨rfl, -⟩ := hhead
      refine congrArg _ (ih hns' hms' fun p => ?_)
      have hp := h p
      simp only [List.filter_cons] at hp
      split_ifs at hp with hxp
      · exact (List.cons.inj hp).2
      · exact hp

/-- A node put behind an ordered list goes after the nodes with its path (42_huffman_decoder.md R173). -/
theorem orderByCode_append_singleton {pre post : List Pathed} {m : Pathed} (h : Ordered (pre ++ post))
    (hpre : ∀ z ∈ pre, ¬ codeBefore m.path z.path) (hpost : ∀ z ∈ post, codeBefore m.path z.path) :
    orderByCode (pre ++ post ++ [m]) = pre ++ m :: post := by
  refine eq_of_ordered (orderByCode_ordered _) ?_ fun p => ?_
  · obtain ⟨hpre', hpost', hcross⟩ := List.pairwise_append.mp h
    refine List.pairwise_append.mpr ⟨hpre', List.pairwise_cons.mpr ⟨fun z hz hz' => ?_, hpost'⟩, fun y hy z hz => ?_⟩
    · exact codeBefore_asymm (hpost z hz) hz'
    · rcases List.mem_cons.mp hz with rfl | hz
      · exact hpre y hy
      · exact hcross y hy z hz
  · by_cases hm : m.path = p
    · have hnone : post.filter (fun x => x.path = p) = [] := List.filter_eq_nil_iff.mpr fun z hz hzp =>
        codeBefore_irrefl p (by simpa [hm, of_decide_eq_true hzp] using hpost z hz)
      simp [filter_orderByCode, hm, hnone]
    · simp [filter_orderByCode, hm]

/-! ### The Leaves of a table -/

theorem mem_leavesFrom {t : CodeTable} {j : Nat} {x : Pathed} :
    x ∈ leavesFrom j t ↔ ∃ i p, t[i]? = some (some p) ∧ x = ⟨.leaf (Fin.ofNat 257 (j + i)), p⟩ := by
  induction t generalizing j with
  | nil => simp [leavesFrom]
  | cons o t ih =>
    have htail : x ∈ leavesFrom (j + 1) t ↔
        ∃ i p, (o :: t)[i + 1]? = some (some p) ∧ x = ⟨.leaf (Fin.ofNat 257 (j + (i + 1))), p⟩ := by
      simp only [ih, List.getElem?_cons_succ, Nat.add_assoc, Nat.add_comm 1]
    rw [← Nat.or_exists_add_one, ← htail]
    cases o <;> simp [leavesFrom]

/-- A Leaf of a table is a present slot with its code (42_huffman_decoder.md R172). -/
theorem mem_leavesFrom_iff_slot {t : CodeTable} (ht : t.length = 257) {x : Pathed} :
    x ∈ leavesFrom 0 t ↔ ∃ k p, t.slot k = some p ∧ x = ⟨.leaf k, p⟩ := by
  have hslot (k : Symbol) (p : BitSeq) : t.slot k = some p ↔ t[k.val]? = some (some p) := by
    rw [CodeTable.slot, Option.join_eq_some_iff]
  simp only [mem_leavesFrom, Nat.zero_add, hslot]
  refine ⟨?_, fun ⟨k, p, hk, hx⟩ => ⟨k, p, hk, by simpa using hx⟩⟩
  rintro ⟨i, p, hi, rfl⟩
  have hlt : i < 257 := ht ▸ (List.getElem?_eq_some_iff.mp hi).1
  exact ⟨⟨i, hlt⟩, p, hi, by simp [Fin.ofNat, Nat.mod_eq_of_lt hlt]⟩

/-- `a` and `b` are Leaves, the Symbol of `a` the lower one. -/
def Pathed.symBefore (a b : Pathed) : Prop := ∃ j k, a.node = .leaf j ∧ b.node = .leaf k ∧ j < k

/-- The Leaves are listed by slot (42_huffman_decoder.md R172). -/
theorem leavesFrom_symBefore {t : CodeTable} {j : Nat} (h : j + t.length ≤ 257) :
    (leavesFrom j t).Pairwise Pathed.symBefore := by
  induction t generalizing j with
  | nil => exact .nil
  | cons o t ih =>
    simp only [List.length_cons] at h
    have hrest : (leavesFrom (j + 1) t).Pairwise Pathed.symBefore := ih (by omega)
    cases o with
    | none => exact hrest
    | some p =>
      refine List.pairwise_cons.mpr ⟨fun x hx => ?_, hrest⟩
      obtain ⟨i, q, hi, rfl⟩ := mem_leavesFrom.mp hx
      have hlt := (List.getElem?_eq_some_iff.mp hi).1
      refine ⟨_, _, rfl, rfl, Fin.mk_lt_mk.mpr ?_⟩
      rw [Nat.mod_eq_of_lt (by omega), Nat.mod_eq_of_lt (by omega)]
      omega

/-- Settles O31: the sorts order by length and value, and keep Leaves with equal codes in slot order. -/
theorem leavesOrderedByLengthValueSlot : Obligations.LeavesOrderedByLengthValueSlot := by
  intro t ht
  refine ⟨fun x => (orderByCode_perm _).mem_iff.trans (mem_leavesFrom_iff_slot ht), ?_⟩
  refine List.pairwise_iff_forall_sublist.mpr fun {a b} hab => ?_
  have hnot := List.pairwise_iff_forall_sublist.mp (orderByCode_ordered _) hab
  by_cases hpath : a.path = b.path
  · have hsub : [a, b].Sublist (leavesFrom 0 t) :=
      pair_sublist_of_filter_eq (filter_orderByCode b.path _) (decide_eq_true hpath) (decide_eq_true rfl) hab
    have hsym := List.pairwise_iff_forall_sublist.mp (leavesFrom_symBefore (j := 0) (by omega)) hsub
    exact .inr ⟨congrArg _ hpath, .inr ⟨hpath, hsym⟩⟩
  · have hbefore : codeBefore a.path b.path := by_contra fun h => hpath (eq_of_not_codeBefore h hnot)
    exact hbefore.imp_right (And.imp_right .inl)

end Sys2Proof.Machine
end

section
/-! PROOF. RebuildTree by the rule of `Rebuilds` (42_huffman_decoder.md R173, R174, R176): a merge is the placing of the
Branch in the order, and what does not merge is CorruptTable; HUF_DEC's errors before its reader opens. -/

namespace Sys2Proof.Machine

/-! ### A merge -/

/-- Two nodes merge exactly when their paths are one path and a bit each (42_huffman_decoder.md R173). -/
theorem mergePathed_ok_iff {a b m : Pathed} :
    mergePathed a b = .ok m ↔ ∃ p c d, a.path = p ++ [c] ∧ b.path = p ++ [d] ∧ m = ⟨.branch a.node b.node 0 p, p⟩ := by
  unfold mergePathed
  constructor
  · intro h
    split_ifs at h with hempty hsame
    obtain ⟨ha, hb⟩ := not_or.mp hempty
    rw [List.length_eq_zero_iff] at ha hb
    exact ⟨a.path.dropLast, a.path.getLast ha, b.path.getLast hb, (List.dropLast_concat_getLast ha).symm,
      not_not.mp hsame ▸ (List.dropLast_concat_getLast hb).symm, (Except.ok.inj h).symm⟩
  · rintro ⟨p, c, d, ha, hb, rfl⟩
    simp [ha, hb]

theorem mergePathed_error {a b : Pathed} {e : Stop} (h : mergePathed a b = .error e) : e = .err .corruptTable := by
  unfold mergePathed at h
  split_ifs at h <;> exact (Except.error.inj h).symm

/-- An ordered list is parted by a path: the nodes it comes before are behind the others. -/
theorem exists_split_of_ordered {ns : List Pathed} (h : Ordered ns) (p : BitSeq) :
    ∃ pre post, ns = pre ++ post ∧ (∀ z ∈ pre, ¬ codeBefore p z.path) ∧ ∀ z ∈ post, codeBefore p z.path := by
  induction ns with
  | nil => exact ⟨[], [], rfl, nofun, nofun⟩
  | cons x ns ih =>
    obtain ⟨hx, hns⟩ := List.pairwise_cons.mp h
    by_cases hp : codeBefore p x.path
    · refine ⟨[], x :: ns, rfl, nofun, List.forall_mem_cons.mpr ⟨hp, fun z hz => ?_⟩⟩
      exact codeBefore_of_not_codeBefore hp (hx z hz)
    · obtain ⟨pre, post, rfl, hpre, hpost⟩ := ih hns
      exact ⟨x :: pre, post, rfl, List.forall_mem_cons.mpr ⟨hp, hpre⟩, hpost⟩

theorem rebuildLoop_succ {n : Nat} {ns : List Pathed} (h : 3 ≤ ns.length) :
    rebuildLoop (n + 1) ns = (rebuildOnce ns >>= rebuildLoop n) := by
  match ns, h with
  | _ :: _ :: _ :: _, _ => rfl

/-- One turn of the loop puts the Branch of two siblings into the order (42_huffman_decoder.md R173). -/
theorem rebuildOnce_siblings {l r : Node} {p : BitSeq} {b c : Bool} {pre post : List Pathed}
    (hord : Ordered (pre ++ post)) (hpre : ∀ z ∈ pre, ¬ codeBefore p z.path) (hpost : ∀ z ∈ post, codeBefore p z.path) :
    rebuildOnce (pre ++ post ++ [⟨l, p ++ [b]⟩, ⟨r, p ++ [c]⟩]) = .ok (pre ++ ⟨.branch l r 0 p, p⟩ :: post) := by
  have hmerge : mergePathed ⟨l, p ++ [b]⟩ ⟨r, p ++ [c]⟩ = .ok ⟨.branch l r 0 p, p⟩ :=
    mergePathed_ok_iff.mpr ⟨p, b, c, rfl, rfl, rfl⟩
  rw [rebuildOnce_append, hmerge]
  exact congrArg Except.ok (orderByCode_append_singleton (m := ⟨.branch l r 0 p, p⟩) hord hpre hpost)

/-- What a turn of the loop can do: the last two nodes merge and the list is ordered again, or it is CorruptTable
(42_huffman_decoder.md R173). -/
theorem rebuildOnce_cases {ns : List Pathed} (hlen : 2 ≤ ns.length) :
    (∃ front a b m, ns = front ++ [a, b] ∧ mergePathed a b = .ok m ∧
        rebuildOnce ns = .ok (orderByCode (front ++ [m]))) ∨
      rebuildOnce ns = .error (.err .corruptTable) := by
  obtain ⟨front, a, b, rfl⟩ := exists_eq_append_pair hlen
  rw [rebuildOnce_append]
  cases hm : mergePathed a b with
  | ok m => exact .inl ⟨front, a, b, m, rfl, hm, rfl⟩
  | error e =>
    obtain rfl := mergePathed_error hm
    exact .inr rfl

theorem rebuildOnce_ordered {ns ns' : List Pathed} (hlen : 2 ≤ ns.length) (h : rebuildOnce ns = .ok ns') :
    Ordered ns' := by
  obtain ⟨front, a, b, m, -, -, hok⟩ | herr := rebuildOnce_cases hlen
  · rw [Except.ok.inj (h.symm.trans hok)]
    exact orderByCode_ordered _
  · cases h.symm.trans herr

/-- A turn of the loop on an ordered list is a merge of the rule (42_huffman_decoder.md R173). -/
theorem rebuildOnce_ok {ns ns' : List Pathed} (hlen : 2 ≤ ns.length) (hord : Ordered ns)
    (h : rebuildOnce ns = .ok ns') : ∃ l r p b c pre post,
      ns = pre ++ post ++ [⟨l, p ++ [b]⟩, ⟨r, p ++ [c]⟩] ∧ ns' = pre ++ ⟨.branch l r 0 p, p⟩ :: post ∧
      (∀ z ∈ pre, ¬ codeBefore p z.path) ∧ ∀ z ∈ post, codeBefore p z.path := by
  obtain ⟨front, ⟨l, q⟩, ⟨r, q'⟩, m, rfl, hm, -⟩ | herr := rebuildOnce_cases hlen
  · obtain ⟨p, b, c, rfl, rfl, -⟩ := mergePathed_ok_iff.mp hm
    have hfront : Ordered front := (List.pairwise_append.mp hord).1
    obtain ⟨pre, post, rfl, hpre, hpost⟩ := exists_split_of_ordered hfront p
    rw [rebuildOnce_siblings hfront hpre hpost] at h
    exact ⟨l, r, p, b, c, pre, post, rfl, (Except.ok.inj h).symm, hpre, hpost⟩
  · cases h.symm.trans herr

/-! ### The merge loop and the rule -/

/-- The loop gives only Roots the rule gives (42_huffman_decoder.md R173, R174). -/
theorem rebuilds_of_rebuildLoop {n : Nat} {ns : List Pathed} {r : Root} (hord : Ordered ns)
    (h : rebuildLoop n ns = .ok r) : Rebuilds ns r := by
  fun_induction rebuildLoop n ns with
  | case1 => cases h
  | case2 _ x => cases h; exact .one x
  | case3 _ x y => cases h; exact .two x y
  | case4 => cases h
  | case5 n x y z rest ih =>
    cases hns : rebuildOnce (x :: y :: z :: rest) with
    | error e => rw [hns] at h; cases h
    | ok ns' =>
      rw [hns] at h
      have hrest := ih ns' (rebuildOnce_ordered (by simp) hns) h
      obtain ⟨l, r, p, b, c, pre, post, heq, rfl, hpre, hpost⟩ := rebuildOnce_ok (by simp) hord hns
      rw [heq]
      refine .merge l r p b c pre post _ (fun hnil => ?_) hpre hpost hrest
      simp [hnil] at heq

/-- The loop gives the Root the rule gives (42_huffman_decoder.md R173, R174). -/
theorem rebuildLoop_of_rebuilds {n : Nat} {ns : List Pathed} {r : Root} (hord : Ordered ns) (hn : ns.length ≤ n + 2)
    (h : Rebuilds ns r) : rebuildLoop n ns = .ok r := by
  induction h generalizing n with
  | one x => cases n <;> rfl
  | two x y => cases n <;> rfl
  | merge l r p b c pre post root hne hpre hpost _ ih =>
    have hturn := rebuildOnce_siblings (l := l) (r := r) (b := b) (c := c) (List.pairwise_append.mp hord).1 hpre hpost
    have hpos := List.length_pos_iff.mpr hne
    simp only [List.length_append, List.length_cons, List.length_nil] at hn hpos
    obtain ⟨n, rfl⟩ : ∃ k, n = k + 1 := ⟨n - 1, by omega⟩
    rw [rebuildLoop_succ (by simp; omega), hturn]
    exact ih (rebuildOnce_ordered (by simp; omega) hturn) (by simp; omega)

/-- The loop stops with nothing but CorruptTable, or at the model's bound (42_huffman_decoder.md R173, R174). -/
theorem rebuildLoop_error {n : Nat} {ns : List Pathed} {e : Stop} (h : rebuildLoop n ns = .error e) :
    e = .err .corruptTable ∨ e = .overrun := by
  fun_induction rebuildLoop n ns with
  | case1 => exact .inl (Except.error.inj h).symm
  | case2 | case3 => cases h
  | case4 => exact .inr (Except.error.inj h).symm
  | case5 n x y z rest ih =>
    cases hns : rebuildOnce (x :: y :: z :: rest) with
    | error e' =>
      obtain ⟨_, _, _, _, -, -, hok⟩ | herr := rebuildOnce_cases (ns := x :: y :: z :: rest) (by simp)
      · cases hns.symm.trans hok
      · rw [herr] at h
        exact .inl (Except.error.inj h).symm
    | ok ns' =>
      rw [hns] at h
      exact ih ns' h

/-! ### Every table -/

/-- RebuildTree gives just the Root the Leaves merge to (42_huffman_decoder.md R172 to R174). -/
theorem rebuildTree_ok_iff (t : CodeTable) (r : Root) :
    rebuildTree t = .ok r ↔ Rebuilds (orderByCode (leavesFrom 0 t)) r := by
  have hlen := leavesFrom_length_le 0 t
  exact ⟨rebuilds_of_rebuildLoop (orderByCode_ordered _),
    rebuildLoop_of_rebuilds (orderByCode_ordered _) (by simp; omega)⟩

/-- A table whose Leaves merge to no Root is CorruptTable (42_huffman_decoder.md R173, R174). -/
theorem rebuildTree_corrupt {t : CodeTable} (h : ¬ ∃ r, Rebuilds (orderByCode (leavesFrom 0 t)) r) :
    rebuildTree t = .error (.err .corruptTable) := by
  cases ht : rebuildTree t with
  | ok r => exact absurd ⟨r, (rebuildTree_ok_iff t r).mp ht⟩ h
  | error e =>
    obtain rfl | rfl := rebuildLoop_error ht
    · rfl
    · exact absurd ht (rebuildTree_within t)

/-- A table with no present slot is CorruptTable (42_huffman_decoder.md R174). -/
theorem rebuildTree_of_no_slot {t : CodeTable} (ht : t.length = 257) (h : ∀ k, t.slot k = none) :
    rebuildTree t = .error (.err .corruptTable) := by
  have hleaves : leavesFrom 0 t = [] := List.eq_nil_iff_forall_not_mem.mpr fun x hx => by
    obtain ⟨k, p, hk, -⟩ := (mem_leavesFrom_iff_slot ht).mp hx
    rw [h k] at hk
    cases hk
  rw [rebuildTree, hleaves]
  cases t.length <;> rfl

/-- Settles O37: the loop and the merge rule give the same Roots. -/
theorem rebuildOfIncompleteCode : Obligations.RebuildOfIncompleteCode :=
  ⟨fun t ht => ⟨rebuildTree_ok_iff t, rebuildTree_corrupt, rebuildTree_of_no_slot ht⟩, by decide +kernel,
    by decide +kernel, by decide +kernel⟩

/-! ### HUF_DEC before its reader opens -/

/-- A failed TBLI: EmptyInput at the first pull (42_huffman_decoder.md R171). -/
theorem deserializeTable_failed {ps : Ports} (h : ps.tbli.fail = true) :
    deserializeTable ps = .error (.err .emptyInput) (ps.record (.fail .tbli)) := by
  have hpull : pull .tbli ps = .ok .fail (ps.record (.fail .tbli)) := pull_failed h
  have hrecord : readRecord ps = .error (.err .emptyInput) (ps.record (.fail .tbli)) := by
    simp [readRecord, pullT, bind_run, hpull]
  change readRecords (256 + 1) ps = _
  rw [readRecords, bind_run, hrecord]

/-- Settles O34: the deserializer's errors, and RebuildTree's on a table read. -/
theorem hufDecTableErrors : Obligations.HufDecTableErrors := by
  refine ⟨fun s => runCommand_codec_open, ?failed, ?noTable, ?noRoot⟩
  case failed =>
    intro s hclosed hfail
    refine runCommand_codec_error (e := .emptyInput) hclosed ?_
    rw [hufDecBody, bind_run, deserializeTable_failed hfail]
    rfl
  case noTable =>
    intro s hclosed hfail hno
    obtain ⟨-, hreject⟩ := deserializerAcceptsExactlyTableTexts s.ports hfail
    obtain ⟨rest, evs, herr, hrun⟩ := hreject hno
    refine ⟨rest, evs, herr, runCommand_codec_error (e := .corruptTable) hclosed ?_⟩
    rw [hufDecBody, bind_run, hrun]
  case noRoot =>
    intro s t rest hclosed htbli ht hno
    refine runCommand_codec_error (e := .corruptTable) hclosed ?_
    rw [hufDecBody, bind_run, deserializeTable_run ht htbli]
    simp only [bind_run, rebuildTree_corrupt hno]
    rfl

end Sys2Proof.Machine
end

section
/-! PROOF. The paths to the Leaves of a tree without a placeholder, and what the merge loop makes of them
(42_huffman_decoder.md R173 to R175): the last two nodes in the order are siblings, so the loop ends in a Root with the
same paths. -/

namespace Sys2Proof.Machine

/-! ### Complete codes -/

/-- No path begins another one, and every bit sequence goes on from a path or is gone on from by one. -/
structure CompleteCode (ps : List BitSeq) : Prop where
  prefixFree : ps.Pairwise fun p q => ¬ p <+: q ∧ ¬ q <+: p
  comparable : ∀ w, ∃ p ∈ ps, p <+: w ∨ w <+: p

theorem completeCode_perm {ps qs : List BitSeq} (hperm : ps.Perm qs) (h : CompleteCode ps) : CompleteCode qs where
  prefixFree := hperm.pairwise h.prefixFree And.symm
  comparable w := by
    obtain ⟨p, hp, hw⟩ := h.comparable w
    exact ⟨p, hperm.mem_iff.mp hp, hw⟩

theorem eq_of_prefix_of_completeCode {ps : List BitSeq} (h : CompleteCode ps) {p q : BitSeq} (hp : p ∈ ps) (hq : q ∈ ps)
    (hpq : p <+: q) : p = q := by
  have hsymm : Std.Symm fun p q : BitSeq => ¬ p <+: q ∧ ¬ q <+: p := ⟨fun _ _ => And.symm⟩
  exact by_contra fun hne => (h.prefixFree.forall hp hq hne).1 hpq

/-- The complete codes of two subtrees make one of the tree. -/
theorem completeCode_branch {ps qs : List BitSeq} (hp : CompleteCode ps) (hq : CompleteCode qs) :
    CompleteCode (ps.map (false :: ·) ++ qs.map (true :: ·)) where
  prefixFree := by
    refine List.pairwise_append.mpr ⟨?_, ?_, ?_⟩
    · simpa [List.pairwise_map] using hp.prefixFree
    · simpa [List.pairwise_map] using hq.prefixFree
    · simp
  comparable w := by
    match w with
    | [] =>
      obtain ⟨p, hp, -⟩ := hp.comparable []
      exact ⟨false :: p, by simp [hp], .inr List.nil_prefix⟩
    | false :: w =>
      obtain ⟨p, hp, hw⟩ := hp.comparable w
      exact ⟨false :: p, by simp [hp], by simpa using hw⟩
    | true :: w =>
      obtain ⟨q, hq, hw⟩ := hq.comparable w
      exact ⟨true :: q, by simp [hq], by simpa using hw⟩

/-- The paths to the Leaves of a tree without a placeholder. -/
theorem leafPaths_completeCode {n : Node} (h : n.full = true) : CompleteCode (n.leafPaths.map Prod.snd) := by
  induction n with
  | leaf k => exact ⟨List.pairwise_singleton _ _, fun w => ⟨[], by simp [Node.leafPaths], .inl List.nil_prefix⟩⟩
  | empty => cases h
  | branch l r c x ihl ihr =>
    obtain ⟨hl, hr⟩ := Bool.and_eq_true_iff.mp h
    simpa [Node.leafPaths, Function.comp_def] using completeCode_branch (ihl hl) (ihr hr)

theorem codeBefore_siblings (p : BitSeq) : codeBefore (p ++ [false]) (p ++ [true]) :=
  .inr ⟨by simp, by simp [bitsValue_concat]⟩

theorem codeBefore_of_ne {p q : BitSeq} (hne : p ≠ q) (h : ¬ codeBefore q p) : codeBefore p q :=
  by_contra fun h' => hne (eq_of_not_codeBefore h' h)

/-- Beside a longest path stands its sibling. -/
theorem sibling_mem_of_longest {ps : List BitSeq} (h : CompleteCode ps) {p : BitSeq} {c : Bool} (hp : p ++ [c] ∈ ps)
    (hmax : ∀ q ∈ ps, q.length ≤ p.length + 1) : p ++ [!c] ∈ ps := by
  obtain ⟨q, hq, hbegins | hgoesOn⟩ := h.comparable (p ++ [!c])
  · obtain rfl | hqp := List.prefix_concat_iff.mp hbegins
    · exact hq
    · have heq := eq_of_prefix_of_completeCode h hq hp (hqp.trans (List.prefix_append _ _))
      have hlen := hqp.length_le
      simp [heq] at hlen
  · rwa [hgoesOn.eq_of_length_le (by simpa using hmax q hq)]

/-- The last two of the ordered paths are siblings (42_huffman_decoder.md R173, R175). -/
theorem last_two_siblings {ps : List BitSeq} {q q' : BitSeq} (h : CompleteCode (ps ++ [q, q']))
    (hps : ∀ p ∈ ps, ¬ codeBefore q p) (hq : ¬ codeBefore q' q) : ∃ p, q = p ++ [false] ∧ q' = p ++ [true] := by
  have hlast (x : BitSeq) (hx : x ∈ ps ++ [q, q']) : ¬ codeBefore q' x := by
    simp only [List.mem_append, List.mem_cons, List.not_mem_nil, or_false] at hx
    obtain hx | rfl | rfl := hx
    · exact fun hbefore => hq (codeBefore_of_not_codeBefore hbefore (hps x hx))
    · exact hq
    · exact codeBefore_irrefl _
  have hne : ¬ q' <+: q := by
    obtain ⟨-, hpair, -⟩ := List.pairwise_append.mp h.prefixFree
    exact (List.pairwise_pair.mp hpair).2
  obtain rfl | ⟨p, c, rfl⟩ := List.eq_nil_or_concat' q'
  · exact absurd List.nil_prefix hne
  · have hsib : p ++ [!c] ∈ ps ++ [q, p ++ [c]] := sibling_mem_of_longest h (by simp) fun x hx => by
      have hx' := hlast x hx
      simp only [codeBefore, List.length_append, List.length_singleton] at hx'
      omega
    cases c with
    | false => exact absurd (codeBefore_siblings p) (hlast _ hsib)
    | true =>
      refine ⟨p, ?_, rfl⟩
      simp only [List.mem_append, List.mem_cons, List.not_mem_nil, or_false] at hsib
      obtain hmem | heq | heq := hsib
      · by_contra hqp
        have hafter : codeBefore (p ++ [false]) q := codeBefore_of_ne (Ne.symm hqp) (hps _ hmem)
        have hbefore : codeBefore q (p ++ [true]) := codeBefore_of_ne (fun he => hne (he ▸ List.prefix_rfl)) hq
        simp only [codeBefore, bitsValue_concat, List.length_append, List.length_singleton, Bool.toNat_false,
          Bool.toNat_true] at hafter hbefore
        omega
      · exact heq.symm
      · simp at heq

/-- Two siblings replaced by their parent (42_huffman_decoder.md R173). -/
theorem completeCode_merge {ps : List BitSeq} {p : BitSeq} (h : CompleteCode (ps ++ [p ++ [false], p ++ [true]])) :
    CompleteCode (ps ++ [p]) where
  prefixFree := by
    obtain ⟨hps, -, hcross⟩ := List.pairwise_append.mp h.prefixFree
    refine List.pairwise_append.mpr ⟨hps, List.pairwise_singleton _ _, fun x hx y hy => ?_⟩
    obtain rfl := List.mem_singleton.mp hy
    have hbit (b : Bool) : ¬ x <+: y ++ [b] ∧ ¬ y ++ [b] <+: x := hcross x hx _ (by cases b <;> simp)
    refine ⟨fun hxy => (hbit false).1 (hxy.trans (List.prefix_append _ _)), ?_⟩
    rintro ⟨t, rfl⟩
    cases t with
    | nil => exact (hbit false).1 (by simp)
    | cons b t => exact (hbit b).2 ⟨t, by simp⟩
  comparable w := by
    obtain ⟨x, hx, hw⟩ := h.comparable w
    obtain hx | ⟨b, rfl⟩ : x ∈ ps ∨ ∃ b, x = p ++ [b] := by
      simp only [List.mem_append, List.mem_cons, List.not_mem_nil, or_false] at hx
      exact hx.imp id fun h => h.elim (fun h => ⟨false, h⟩) fun h => ⟨true, h⟩
    · exact ⟨x, by simp [hx], hw⟩
    · refine ⟨p, by simp, ?_⟩
      obtain hbegins | hwp := hw
      · exact .inl ((List.prefix_append _ _).trans hbegins)
      · obtain rfl | hwp := List.prefix_concat_iff.mp hwp
        · exact .inl (List.prefix_append _ _)
        · exact .inr hwp

/-- The one path of a tree that is a Leaf. -/
theorem eq_nil_of_completeCode_singleton {p : BitSeq} (h : CompleteCode [p]) : p = [] := by
  cases p with
  | nil => rfl
  | cons b p =>
    obtain ⟨q, hq, hw⟩ := h.comparable [!b]
    obtain rfl := List.mem_singleton.mp hq
    simp at hw

/-! ### The merge loop on a complete code -/

/-- The Leaves of a node being merged, each with its path from the Root (42_huffman_decoder.md R172, R173). -/
def Pathed.leafPaths (x : Pathed) : List (Symbol × BitSeq) := x.node.leafPaths.map fun y => (y.1, x.path ++ y.2)

/-- The nodes stand in the order and their paths are those of a tree; no node has a placeholder. -/
structure MergesToTree (ns : List Pathed) : Prop where
  ordered : Ordered ns
  complete : CompleteCode (ns.map Pathed.path)
  full : ∀ x ∈ ns, x.node.full = true

theorem mergesToTree_siblings {front : List Pathed} {a b : Pathed} (h : MergesToTree (front ++ [a, b])) :
    ∃ p, a.path = p ++ [false] ∧ b.path = p ++ [true] := by
  obtain ⟨hord, hcomplete, -⟩ := h
  obtain ⟨-, hab, hcross⟩ := List.pairwise_append.mp hord
  refine last_two_siblings (ps := front.map Pathed.path) (by simpa using hcomplete) (fun p hp => ?_)
    (List.pairwise_pair.mp hab)
  obtain ⟨x, hx, rfl⟩ := List.mem_map.mp hp
  exact hcross x hx a (by simp)

/-- A turn of the loop keeps the paths those of a tree, with the same Leaves (42_huffman_decoder.md R173, R175). -/
theorem rebuildOnce_mergesToTree {ns : List Pathed} (hlen : 2 ≤ ns.length) (h : MergesToTree ns) :
    ∃ ns', rebuildOnce ns = .ok ns' ∧ MergesToTree ns' ∧
      (ns'.flatMap Pathed.leafPaths).Perm (ns.flatMap Pathed.leafPaths) := by
  obtain ⟨front, ⟨l, q⟩, ⟨r, q'⟩, rfl⟩ := exists_eq_append_pair hlen
  obtain ⟨p, rfl, rfl⟩ := mergesToTree_siblings h
  have hmerge : mergePathed ⟨l, p ++ [false]⟩ ⟨r, p ++ [true]⟩ = .ok ⟨.branch l r 0 p, p⟩ :=
    mergePathed_ok_iff.mpr ⟨p, false, true, rfl, rfl, rfl⟩
  have hperm := orderByCode_perm (front ++ [⟨.branch l r 0 p, p⟩])
  refine ⟨_, by rw [rebuildOnce_append, hmerge]; rfl, ⟨orderByCode_ordered _, ?_, fun x hx => ?_⟩, ?_⟩
  · refine completeCode_perm (hperm.map _).symm ?_
    simpa using completeCode_merge (p := p) (by simpa using h.complete)
  · obtain hx | hx := List.mem_append.mp (hperm.mem_iff.mp hx)
    · exact h.full x (by simp [hx])
    · obtain rfl := List.mem_singleton.mp hx
      exact Bool.and_eq_true_iff.mpr ⟨h.full ⟨l, p ++ [false]⟩ (by simp), h.full ⟨r, p ++ [true]⟩ (by simp)⟩
  · refine (hperm.flatMap_right _).trans (.of_eq ?_)
    simp [Pathed.leafPaths, Node.leafPaths, Function.comp_def]

/-- Two nodes whose paths are those of a tree are the Root's children (42_huffman_decoder.md R174). -/
theorem rebuildLoop_two {x y : Pathed} (h : MergesToTree [x, y]) (n : Nat) :
    ∃ r, rebuildLoop n [x, y] = .ok r ∧ r.node.full = true ∧
      r.node.leafPaths.Perm ([x, y].flatMap Pathed.leafPaths) := by
  obtain ⟨p, hx, hy⟩ := mergesToTree_siblings (front := []) h
  have hcomplete := h.complete
  rw [List.map_cons, List.map_singleton, hx, hy] at hcomplete
  obtain rfl := eq_nil_of_completeCode_singleton (completeCode_merge (ps := []) hcomplete)
  refine ⟨⟨x.node, y.node⟩, by cases n <;> rfl, ?_, .of_eq ?_⟩
  · exact Bool.and_eq_true_iff.mpr ⟨h.full x (by simp), h.full y (by simp)⟩
  · simp [Pathed.leafPaths, Root.node, Node.leafPaths, hx, hy]

/-- The loop ends in a Root without a placeholder and with the Leaves at their paths (42_huffman_decoder.md R173 to
R175). -/
theorem rebuildLoop_mergesToTree {n : Nat} {ns : List Pathed} (hlen : 2 ≤ ns.length) (hn : ns.length ≤ n + 2)
    (h : MergesToTree ns) :
    ∃ r, rebuildLoop n ns = .ok r ∧ r.node.full = true ∧ r.node.leafPaths.Perm (ns.flatMap Pathed.leafPaths) := by
  induction n generalizing ns with
  | zero =>
    obtain ⟨x, y, rfl⟩ := List.length_eq_two.mp (by omega : ns.length = 2)
    exact rebuildLoop_two h 0
  | succ n ih =>
    by_cases htwo : ns.length = 2
    · obtain ⟨x, y, rfl⟩ := List.length_eq_two.mp htwo
      exact rebuildLoop_two h (n + 1)
    · obtain ⟨ns', hturn, hns', hleaves⟩ := rebuildOnce_mergesToTree hlen h
      have hlen' := rebuildOnce_length hlen hturn
      obtain ⟨r, hr, hfull, hperm⟩ := ih (by omega) (by omega) hns'
      refine ⟨r, ?_, hfull, hperm.trans hleaves⟩
      rw [rebuildLoop_succ (by omega), hturn]
      exact hr

/-! ### The Leaves of a table as a complete code -/

theorem leavesFrom_paths (j : Nat) (t : CodeTable) : (leavesFrom j t).map Pathed.path = t.codes := by
  induction t generalizing j with
  | nil => rfl
  | cons o t ih => cases o <;> simp [leavesFrom, ih, CodeTable.codes]

/-- The Leaves of a table are its present slots (42_huffman_decoder.md R172). -/
theorem mem_leavesFrom_leafPaths {t : CodeTable} (ht : t.length = 257) (k : Symbol) (p : BitSeq) :
    (k, p) ∈ (leavesFrom 0 t).flatMap Pathed.leafPaths ↔ t.slot k = some p := by
  simp only [List.mem_flatMap, mem_leavesFrom_iff_slot ht]
  constructor
  · rintro ⟨_, ⟨j, q, hj, rfl⟩, hmem⟩
    obtain ⟨rfl, rfl⟩ : k = j ∧ p = q := by simpa [Pathed.leafPaths, Node.leafPaths] using hmem
    exact hj
  · intro hk
    exact ⟨⟨.leaf k, p⟩, ⟨k, p, hk, rfl⟩, by simp [Pathed.leafPaths, Node.leafPaths]⟩

theorem leafPaths_fst (ns : List Pathed) :
    (ns.flatMap Pathed.leafPaths).map Prod.fst = ns.flatMap fun x => x.node.syms := by
  simp [List.map_flatMap, Pathed.leafPaths, ← leafPaths_syms, Function.comp_def]

/-- No two Leaves of a table are of one Symbol (42_huffman_decoder.md R172). -/
theorem leavesFrom_syms_nodup {t : CodeTable} (ht : t.length = 257) :
    ((leavesFrom 0 t).flatMap fun x => x.node.syms).Nodup := by
  refine List.nodup_flatMap.mpr ⟨fun x hx => ?_, (leavesFrom_symBefore (by omega)).imp ?_⟩
  · obtain ⟨k, p, -, rfl⟩ := (mem_leavesFrom_iff_slot ht).mp hx
    exact List.nodup_singleton k
  · rintro a b ⟨j, k, ha, hb, hjk⟩
    simpa [Function.onFun, ha, hb, Node.syms] using hjk.ne'

/-- The Leaves of the table of a tree without a placeholder (42_huffman_decoder.md R175). -/
theorem leavesFrom_mergesToTree {n : Node} {t : CodeTable} (hn : n.full = true) (h : walk n [] .empty = .ok t) :
    MergesToTree (orderByCode (leavesFrom 0 t)) where
  ordered := orderByCode_ordered _
  complete := by
    refine completeCode_perm ((walk_empty_codes h).symm.trans ?_) (leafPaths_completeCode hn)
    rw [← leavesFrom_paths 0 t]
    exact ((orderByCode_perm _).map _).symm
  full x hx := by
    obtain ⟨k, p, -, rfl⟩ :=
      (mem_leavesFrom_iff_slot ((walk_length h).trans empty_length)).mp ((orderByCode_perm _).mem_iff.mp hx)
    rfl

/-! ### Following a code -/

theorem follow_cons_cons {r : Root} {b c : Bool} {p : BitSeq} {l rt : Node} {m : Nat} {q : BitSeq}
    (h : r.child b = .branch l rt m q) : r.follow (b :: c :: p) = Root.follow ⟨l, rt⟩ (c :: p) := by
  rw [Root.follow, h]

/-- A code leads to a Leaf exactly when it is the path to it (42_huffman_decoder.md R177). -/
theorem follow_eq_leaf_iff {r : Root} {k : Symbol} {p : BitSeq} :
    r.follow p = some (.leaf k) ↔ (k, p) ∈ r.node.leafPaths := by
  induction p generalizing r with
  | nil => simp [Root.follow, Root.node, mem_leafPaths_branch]
  | cons b p ih =>
    have hnode : (k, b :: p) ∈ r.node.leafPaths ↔ (k, p) ∈ (r.child b).leafPaths := by
      simp [Root.node, mem_leafPaths_branch, and_assoc]
    rw [hnode]
    cases p with
    | nil =>
      cases hc : r.child b with
      | leaf j => simp [Root.follow, hc, Node.leafPaths, eq_comm]
      | branch l rt m q => simp [Root.follow, hc, mem_leafPaths_branch]
      | empty => simp [Root.follow, hc, Node.leafPaths]
    | cons c p =>
      cases hc : r.child b with
      | leaf j => simp [Root.follow, hc, Node.leafPaths]
      | branch l rt m q =>
        rw [follow_cons_cons hc]
        exact ih
      | empty => simp [Root.follow, hc, Node.leafPaths]

/-- In a tree without a placeholder no code leads to one (42_huffman_decoder.md R177). -/
theorem follow_full {r : Root} {p : BitSeq} {n : Node} (hr : r.node.full = true) (h : r.follow p = some n) :
    n.full = true := by
  obtain ⟨hl, hrt⟩ := Bool.and_eq_true_iff.mp hr
  have hchild (b : Bool) : (r.child b).full = true := by cases b <;> assumption
  match p, h with
  | [b], h => exact Option.some.inj h ▸ hchild b
  | b :: c :: p, h =>
    have hb := hchild b
    cases hc : r.child b with
    | leaf j => simp [Root.follow, hc] at h
    | branch l rt m q =>
      rw [follow_cons_cons hc] at h
      rw [hc] at hb
      exact follow_full (r := ⟨l, rt⟩) hb h
    | empty => simp [Root.follow, hc] at h

/-- The degenerate Root has its placeholder at the bit 1 (42_huffman_decoder.md R174, R177). -/
theorem follow_degenerate_empty {k : Symbol} {p : BitSeq} (h : Root.follow ⟨.leaf k, .empty⟩ p = some .empty) :
    p = [true] := by
  match p, h with
  | [false], h => cases h
  | [true], _ => rfl
  | false :: _ :: _, h => cases h
  | true :: _ :: _, h => cases h

/-! ### Rebuilding inverts the code assignment -/

theorem table_ext {t t' : CodeTable} (ht : t.length = 257) (ht' : t'.length = 257) (h : ∀ k, t.slot k = t'.slot k) :
    t = t' := by
  refine List.ext_getElem (ht.trans ht'.symm) fun i hi hi' => ?_
  simpa [CodeTable.slot, hi, hi'] using h ⟨i, hi.trans_eq ht⟩

/-- The table of a Root is what Walk writes from its Branch (41_huffman_encoder.md R146). -/
theorem assignCodes_eq_walk (r : Root) : assignCodes r = walk r.node [] .empty := rfl

theorem assignCodes_slot {r : Root} {t : CodeTable} (h : assignCodes r = .ok t) (k : Symbol) (p : BitSeq) :
    t.slot k = some p ↔ (k, p) ∈ r.node.leafPaths :=
  walk_empty_slot (assignCodes_eq_walk r ▸ h) k p

theorem two_le_leafPaths_length {r : Root} (h : r.node.full = true) : 2 ≤ r.node.leafPaths.length := by
  obtain ⟨hl, hr⟩ := Bool.and_eq_true_iff.mp h
  have hlpos := syms_length_pos hl
  have hrpos := syms_length_pos hr
  rw [← List.length_map Prod.fst, leafPaths_syms, Root.node, Node.syms, List.length_append]
  omega

/-- The codes of a tree without a placeholder rebuild to such a tree with the same table (42_huffman_decoder.md
R175). -/
theorem rebuildTree_of_full {r : Root} {t : CodeTable} (hr : r.node.full = true) (h : assignCodes r = .ok t) :
    ∃ r', rebuildTree t = .ok r' ∧ assignCodes r' = .ok t ∧ r'.node.full = true := by
  have hwalk : walk r.node [] .empty = .ok t := assignCodes_eq_walk r ▸ h
  have ht : t.length = 257 := (walk_length hwalk).trans empty_length
  have htwo : 2 ≤ (orderByCode (leavesFrom 0 t)).length := by
    rw [orderByCode_length, ← List.length_map Pathed.path, leavesFrom_paths, (walk_empty_codes hwalk).length_eq,
      List.length_map]
    exact two_le_leafPaths_length hr
  have hmax := leavesFrom_length_le 0 t
  obtain ⟨r', hr', hfull, hleaves⟩ :=
    rebuildLoop_mergesToTree (n := t.length) htwo (by simp; omega) (leavesFrom_mergesToTree hr hwalk)
  have hperm := hleaves.trans ((orderByCode_perm (leavesFrom 0 t)).flatMap_right _)
  have hnodup : r'.syms.Nodup := by
    have hsyms := (leafPaths_syms r'.node).symm ▸ hperm.map Prod.fst
    rw [leafPaths_fst] at hsyms
    exact hsyms.nodup_iff.mpr (leavesFrom_syms_nodup ht)
  obtain ⟨t', ht', hlen'⟩ := assignCodes_ok hnodup
  have hsame : t' = t := table_ext hlen' ht fun k => Option.ext fun p => by
    rw [assignCodes_slot ht', hperm.mem_iff, mem_leavesFrom_leafPaths ht]
  exact ⟨r', hr', hsame ▸ ht', hfull⟩

theorem valid_of_codes {t : CodeTable} (ht : t.length = 257) (h : ∀ p ∈ t.codes, 1 ≤ p.length ∧ p.length ≤ 256) :
    t.valid :=
  ⟨ht, fun o ho p hp => h p (List.mem_filterMap.mpr ⟨o, ho, hp⟩)⟩

/-- The table of the degenerate Root rebuilds to it (42_huffman_decoder.md R174). -/
theorem rebuildTree_of_degenerate {k : Symbol} {t : CodeTable} (h : assignCodes ⟨.leaf k, .empty⟩ = .ok t) :
    rebuildTree t = .ok ⟨.leaf k, .empty⟩ := by
  have hwalk := (assignCodes_eq_walk _).symm.trans h
  refine rebuildTree_single (valid_of_codes ((walk_length hwalk).trans empty_length) fun p hp => ?_) fun j => ?_
  · have hcode : p = [false] := by simpa [Root.node, Node.leafPaths] using (walk_empty_codes hwalk).mem_iff.mp hp
    simp [hcode]
  · simp [Option.isSome_iff_exists, walk_empty_slot hwalk, Root.node, Node.leafPaths]

/-- Settles O32: the loop keeps the paths of a tree without a placeholder, and the Leaf of the degenerate Root is the
one slot of its table. -/
theorem rebuildInvertsAssignCodes : Obligations.RebuildInvertsAssignCodes := by
  refine ⟨fun r t hproper h => ?_, fun s t h => ?_⟩
  · have hslots {r' : Root} (hr' : assignCodes r' = .ok t) (k : Symbol) (p : BitSeq) :
        t.slot k = some p ↔ r'.follow p = some (.leaf k) :=
      (assignCodes_slot hr' k p).trans follow_eq_leaf_iff.symm
    obtain ⟨hl, hrt⟩ | ⟨k, rfl⟩ := hproper
    · obtain ⟨r', hrebuild, hassign, hfull⟩ := rebuildTree_of_full (Bool.and_eq_true_iff.mpr ⟨hl, hrt⟩) h
      exact ⟨r', hrebuild, hassign, hslots hassign, fun p hp => nomatch follow_full hfull hp⟩
    · exact ⟨_, rebuildTree_of_degenerate h, h, hslots h, fun p hp => ⟨follow_degenerate_empty hp, k, rfl⟩⟩
  · obtain ⟨r, hr, hassign, -⟩ := encoderTable_tree h
    refine ⟨r, ?_, hassign⟩
    rcases eq_or_ne s [] with rfl | hs
    · rw [treeBuild_nil] at hr
      exact .inr ⟨eos, (Except.ok.inj hr).symm⟩
    · exact .inl (treeBuild_full hs hr)

/-! ### The round trip -/

/-- HUF_DEC on the table and the payload of an input gives the input back (42_huffman_decoder.md R182). -/
theorem hufDec_of_encoderTable {s : List Byte} {t : CodeTable} {u : State} (h : encoderTable s = .ok t)
    (hclosed : u.channelsClosed) (htbli : u.ports.tbli = ⟨tableText t, false⟩)
    (hinp : u.ports.inp = ⟨packBits (payloadBits t s), false⟩) :
    ∃ u', exec .hufDec u = .next u' ∧ u'.status = doneStatus ∧ u'.ports.out = u.ports.out ++ s ∧
      u'.ports.inp.q = [] ∧ u'.ports.tbli.q = [] := by
  obtain ⟨hrebuilds, htree⟩ := rebuildInvertsAssignCodes
  obtain ⟨r, hproper, hassign⟩ := htree s t h
  obtain ⟨r', hr', -, hfollow, -⟩ := hrebuilds r t hproper hassign
  obtain ⟨hlen, hpresent⟩ := encoderTablePresentSlots s t h
  obtain ⟨hbounds, -⟩ := encoderCodesBoundedAndComplete s t h
  have hvalid : t.valid := valid_of_codes hlen fun p hp => (hbounds p hp).imp_right And.right
  have hcodes (k : Symbol) (hk : k = eos ∨ ∃ b ∈ s, k = Symbol.ofByte b) :
      r'.follow (t.codeBits k) = some (.leaf k) := by
    obtain ⟨p, hp⟩ := Option.isSome_iff_exists.mp ((hpresent k).mpr hk)
    exact (hfollow k _).mp (by rw [CodeTable.codeBits, hp, Option.getD_some])
  have hexec := hufDecDecodesCodes u t r' t.codeBits (payloadBits t s) s [] (packBits (payloadBits t s)) [] hclosed
    hvalid hr' hcodes rfl (prefix_packBits _) (packBits_length _) (by rw [htbli, List.append_nil])
    (by rw [hinp, List.append_nil])
  exact ⟨_, hexec, rfl, rfl, rfl, rfl⟩

/-- Settles O38: HUF_ENC completes with the table and the payload of its input. -/
theorem huffmanRoundTrip : Obligations.HuffmanRoundTrip := by
  intro s hclosed hfail hfits
  obtain ⟨t, ht, -, hexec⟩ := hufEncCompletes s hclosed hfail hfits
  refine ⟨_, hexec, rfl, fun u hu htbli hinp => hufDec_of_encoderTable ht hu ?_ ?_⟩
  · rw [htbli, List.drop_left]
  · rw [hinp, List.drop_left]

end Sys2Proof.Machine
end

section
/-! PROOF. LZ78 (43_lz78.md R203 to R212): the encoder's tokens by their rule, the decoder's loop token by token, the
reading of any stream, and the round trip where no digit literal follows an index of 1 or more. -/

namespace Sys2Proof.Machine

/-! ### Phrases of a dictionary -/

theorem phrase_mem {d : Dict} {i : Nat} (hpos : 1 ≤ i) (hle : i ≤ d.length) : d.phrase i ∈ d := by
  rw [Dict.phrase, if_neg (by omega), List.getD_eq_getElem _ _ (by omega)]
  exact List.getElem_mem _

/-- The index of a known phrase exists and names the phrase (43_lz78.md R201). -/
theorem indexOf_known {d : Dict} {w : Phrase} (h : w = [] ∨ w ∈ d) :
    d.indexOf w ≤ d.length ∧ d.phrase (d.indexOf w) = w := by
  by_cases hw : w = []
  · simp [Dict.indexOf, Dict.phrase, hw]
  · have hlt : d.idxOf w < d.length := List.idxOf_lt_length_of_mem (h.resolve_left hw)
    simp [Dict.indexOf, Dict.phrase, hw, hlt, Nat.succ_le_of_lt hlt]

theorem indexOf_pos {w : Phrase} (d : Dict) (h : w ≠ []) : 1 ≤ d.indexOf w := by
  simp [Dict.indexOf, h]

/-! ### The encoder -/

/-- From a candidate phrase that the dictionary knows, the tokens are those the rule allows for the phrase and the bytes
still to come (43_lz78.md R203, R204). -/
theorem encodeTokens_tokensEncode {d : Dict} {w : Phrase} {s : List Byte} (h : w = [] ∨ w ∈ d) :
    tokensEncode d (encodeTokens d w s) (w ++ s) := by
  induction s generalizing d w with
  | nil =>
    obtain ⟨hle, hphrase⟩ := indexOf_known h
    by_cases hw : w = []
    · simp [encodeTokens, tokensEncode, hw]
    · simp [encodeTokens, tokensEncode, hw, hle, hphrase, indexOf_pos d hw]
  | cons c s ih =>
    obtain ⟨hle, hphrase⟩ := indexOf_known h
    by_cases hmem : w ++ [c] ∈ d
    · rw [encodeTokens, if_pos hmem, List.append_cons w c s]
      exact ih (.inr hmem)
    · rw [encodeTokens, if_neg hmem, tokensEncode, hphrase]
      exact ⟨hle, hmem, s, rfl, ih (.inl rfl)⟩

/-- Allowed tokens stand for the input (43_lz78.md R207). -/
theorem expandTokens_of_tokensEncode {d : Dict} {toks : List Token} {s : List Byte} (h : tokensEncode d toks s) :
    expandTokens d toks = s := by
  induction toks generalizing d s with
  | nil => exact h.symm
  | cons tok toks ih =>
    obtain ⟨i, _ | c⟩ := tok
    · obtain ⟨rfl, -, -, rfl⟩ := h
      exact List.append_nil _
    · obtain ⟨-, -, rest, rfl, hrest⟩ := h
      rw [expandTokens, ih hrest, List.append_assoc, List.singleton_append]

/-- Each allowed token takes a byte of the input at least, since no entry is empty (43_lz78.md R211). -/
theorem length_le_of_tokensEncode {d : Dict} {toks : List Token} {s : List Byte} (hd : [] ∉ d)
    (h : tokensEncode d toks s) : toks.length ≤ s.length := by
  induction toks generalizing d s with
  | nil => exact Nat.zero_le _
  | cons tok toks ih =>
    obtain ⟨i, _ | c⟩ := tok
    · obtain ⟨rfl, hpos, hle, rfl⟩ := h
      exact List.length_pos_iff.mpr fun hnil => hd (hnil ▸ phrase_mem hpos hle)
    · obtain ⟨-, -, rest, rfl, hrest⟩ := h
      have hlen := ih (by simpa using hd) hrest
      simp only [List.length_cons, List.length_append]
      omega

/-- The literals of allowed tokens are bytes of the input (43_lz78.md R203). -/
theorem literal_mem_of_tokensEncode {d : Dict} {toks : List Token} {s : List Byte} (h : tokensEncode d toks s)
    {tok : Token} (ht : tok ∈ toks) {c : Byte} (hc : c ∈ tok.literal) : c ∈ s := by
  induction toks generalizing d s with
  | nil => cases ht
  | cons head toks ih =>
    obtain ⟨i, _ | b⟩ := head
    · obtain ⟨rfl, -⟩ := h
      obtain rfl := List.mem_singleton.mp ht
      cases hc
    · obtain ⟨-, -, rest, rfl, hrest⟩ := h
      refine List.mem_append_right _ ?_
      obtain rfl | ht := List.mem_cons.mp ht
      · cases hc
        exact List.mem_cons_self
      · exact List.mem_cons_of_mem _ (ih hrest ht)

/-- Settles O41: the tokens are allowed, and allowed tokens stand for the input and are no more than its bytes. -/
theorem encoderTokensFollowTheRule : Obligations.EncoderTokensFollowTheRule := fun _ =>
  have h := encodeTokens_tokensEncode (.inl rfl)
  ⟨h, expandTokens_of_tokensEncode h, length_le_of_tokensEncode List.not_mem_nil h⟩

/-! ### Where an index text starts -/

/-- The first digit of a decimal text is at most the number (20_memory.md R59). -/
theorem firstDigit_le {n : Nat} {x : Byte} (h : (dec n).head? = some x) : x.toNat - 0x30 ≤ n := by
  induction n using decimal_induction with
  | digit n hn =>
    rw [dec_of_lt hn] at h
    cases h
    rw [digitByte_toNat hn, Nat.add_sub_cancel_left]
  | step n hn ih =>
    rw [dec_of_ge hn, List.head?_append_of_ne_nil _ (dec_ne_nil _)] at h
    exact (ih h).trans (Nat.div_le_self n 10)

/-- A decimal text that starts a byte sequence starts with its first byte. -/
theorem head?_dec_of_prefix {k : Nat} {x : Byte} {xs : List Byte} (h : dec k <+: x :: xs) :
    (dec k).head? = some x := by
  obtain ⟨rest, hrest⟩ := h
  rw [← List.head?_append_of_ne_nil (l₂ := rest) _ (dec_ne_nil k), hrest]
  rfl

/-- The case of R208 is that no text of an existing index stands there (43_lz78.md R206, R208). -/
theorem noIndexAt_cons_iff {n : Nat} {x : Byte} {xs : List Byte} :
    noIndexAt n (x :: xs) ↔ ∀ k ≤ n, ¬ dec k <+: x :: xs := by
  constructor
  · intro h k hk hpre
    have hhead := head?_dec_of_prefix hpre
    obtain hdig | ⟨hzero, hlt⟩ := h
    · exact Bool.false_ne_true (hdig.symm.trans (isDigit_of_mem_dec k x (List.mem_of_head? hhead)))
    · have hfirst := firstDigit_le hhead
      omega
  · intro h
    by_contra hno
    obtain ⟨hdig, hzero⟩ := not_or.mp hno
    obtain ⟨hlt, hbyte⟩ := digitByte_toNat_sub (Bool.of_not_eq_false hdig)
    have hle : x.toNat - 0x30 ≤ n := by
      refine Nat.not_lt.mp fun hgt => hzero ⟨?_, hgt⟩
      rintro rfl
      exact absurd hgt (Nat.not_lt_zero n)
    refine h _ hle ?_
    rw [dec_of_lt hlt, hbyte]
    exact List.prefix_append [x] xs

theorem ne_nil_of_noIndexAt {n : Nat} {t : List Byte} (h : noIndexAt n t) : t ≠ [] := by
  rintro rfl
  exact h

theorem parseIndex_of_noIndexAt {n : Nat} {t : List Byte} (h : noIndexAt n t) : parseIndex t n = none := by
  cases t with
  | nil => exact absurd h id
  | cons x xs => exact (parseIndexTakesLongestExistingIndex _ n).2.mpr (noIndexAt_cons_iff.mp h)

theorem parseIndex_dec_append {n i : Nat} {rest : List Byte} (hi : i ≤ n)
    (hlongest : ∀ k ≤ n, dec k <+: dec i ++ rest → (dec k).length ≤ (dec i).length) :
    parseIndex (dec i ++ rest) n = some ((dec i).length, i) :=
  ((parseIndexTakesLongestExistingIndex _ n).1 _ i).mpr ⟨hi, List.prefix_append _ _, rfl, hlongest⟩

/-! ### Token texts -/

theorem flatMap_tokenText_cons (i : Nat) (c : Byte) (ts : List Token) (tail : List Byte) :
    (⟨i, some c⟩ :: ts).flatMap tokenText ++ tail = dec i ++ c :: (ts.flatMap tokenText ++ tail) := by
  simp [tokenText]

theorem flatMap_tokenText_final (final : Option Nat) :
    (final.toList.map (Token.mk · none)).flatMap tokenText = (final.map dec).getD [] := by
  cases final <;> simp [tokenText]

/-- What tokens that all have an existing index leave as the dictionary (43_lz78.md R205, R207). -/
def dictAfter : Dict → List Token → Dict
  | d, [] => d
  | d, ⟨_, none⟩ :: ts => dictAfter d ts
  | d, ⟨i, some c⟩ :: ts => dictAfter (d ++ [d.phrase i ++ [c]]) ts

theorem expandTokens_append (d : Dict) (ts us : List Token) :
    expandTokens d (ts ++ us) = expandTokens d ts ++ expandTokens (dictAfter d ts) us := by
  induction ts generalizing d with
  | nil => rfl
  | cons tok ts ih =>
    obtain ⟨i, _ | c⟩ := tok <;> simp [expandTokens, dictAfter, ih]

/-- Readable tokens all have a literal, so each adds one entry (43_lz78.md R211). -/
theorem dictAfter_length {n : Nat} {d : Dict} {ts : List Token} {tail : List Byte} (h : tokensReadable n ts tail) :
    (dictAfter d ts).length = d.length + ts.length := by
  induction ts generalizing n d with
  | nil => rfl
  | cons tok ts ih =>
    obtain ⟨i, _ | c⟩ := tok
    · exact absurd h id
    · obtain ⟨-, -, hts⟩ := h
      rw [dictAfter, ih hts, List.length_append, List.length_singleton, List.length_cons, Nat.add_assoc, Nat.add_comm 1]

/-! ### The decoder's loop -/

section Loop
variable {n i : Nat} {d : Dict} {t : List Byte}

@[simp] theorem decodeTokens_nil (n : Nat) (d : Dict) : decodeTokens n d [] = ([], .ok ()) := by
  cases n <;> rfl

theorem decodeTokens_token {c : Byte} {rest : List Byte} (hi : i ≤ d.length)
    (hlongest : ∀ k ≤ d.length, dec k <+: dec i ++ c :: rest → (dec k).length ≤ (dec i).length) :
    decodeTokens (n + 1) d (dec i ++ c :: rest) =
      (d.phrase i ++ [c] ++ (decodeTokens n (d ++ [d.phrase i ++ [c]]) rest).1,
        (decodeTokens n (d ++ [d.phrase i ++ [c]]) rest).2) := by
  have hparse := parseIndex_dec_append hi hlongest
  have hdrop : (dec i ++ c :: rest).drop (dec i).length = c :: rest := List.drop_left
  generalize dec i ++ c :: rest = t at hparse hdrop
  cases t with
  | nil => simp at hdrop
  | cons x xs => simp only [decodeTokens, hparse, hdrop]

theorem decodeTokens_final (hi : i ≤ d.length) : decodeTokens (n + 1) d (dec i) = (d.phrase i, .ok ()) := by
  have hparse : parseIndex (dec i) d.length = some ((dec i).length, i) := by
    simpa using parseIndex_dec_append (rest := []) hi fun k _ hpre => by simpa using hpre.length_le
  have hdrop : (dec i).drop (dec i).length = [] := List.drop_length
  have hne := dec_ne_nil i
  generalize dec i = t at hparse hdrop hne
  cases t with
  | nil => exact absurd rfl hne
  | cons x xs => simp only [decodeTokens, hparse, hdrop]

theorem decodeTokens_corrupt (h : noIndexAt d.length t) :
    decodeTokens (n + 1) d t = ([], .error (.err .corruptStream)) := by
  have hparse := parseIndex_of_noIndexAt h
  cases t with
  | nil => exact absurd h id
  | cons x xs => simp only [decodeTokens, hparse]

end Loop

/-- The loop expands readable tokens and goes on with their dictionary at the bytes after them, with a bound that is
still enough (43_lz78.md R205, R206). -/
theorem decodeTokens_readable {n : Nat} {d : Dict} {ts : List Token} {tail : List Byte}
    (h : tokensReadable d.length ts tail) (hn : (ts.flatMap tokenText ++ tail).length ≤ n) :
    ∃ m, tail.length ≤ m ∧ decodeTokens n d (ts.flatMap tokenText ++ tail) =
      (expandTokens d ts ++ (decodeTokens m (dictAfter d ts) tail).1, (decodeTokens m (dictAfter d ts) tail).2) := by
  induction ts generalizing n d with
  | nil => exact ⟨n, hn, rfl⟩
  | cons tok ts ih =>
    obtain ⟨i, _ | c⟩ := tok
    · exact absurd h id
    · obtain ⟨hi, hlongest, hts⟩ := h
      rw [flatMap_tokenText_cons] at hn hlongest ⊢
      rw [List.length_append, List.length_cons] at hn
      obtain ⟨n, rfl⟩ : ∃ k, n = k + 1 := ⟨n - 1, by omega⟩
      have hnext : tokensReadable (d ++ [d.phrase i ++ [c]]).length ts tail := by simpa using hts
      obtain ⟨m, hm, hdec⟩ := ih (n := n) hnext (by omega)
      refine ⟨m, hm, ?_⟩
      rw [decodeTokens_token hi hlongest, hdec, expandTokens, dictAfter, List.append_assoc _ (expandTokens _ ts)]

/-- Readable tokens, and then a final index that exists or nothing (43_lz78.md R205). -/
theorem decodeTokens_complete {n : Nat} {ts : List Token} {final : Option Nat}
    (h : tokensReadable 0 ts ((final.map dec).getD [])) (hfinal : ∀ i ∈ final, i ≤ ts.length)
    (hn : (ts.flatMap tokenText ++ (final.map dec).getD []).length ≤ n) :
    decodeTokens n [] (ts.flatMap tokenText ++ (final.map dec).getD []) =
      (expandTokens [] (ts ++ final.toList.map (Token.mk · none)), .ok ()) := by
  obtain ⟨m, hm, hdec⟩ := decodeTokens_readable (d := []) h hn
  rw [hdec, expandTokens_append]
  cases final with
  | none => simp [expandTokens]
  | some i =>
    have hpos : 0 < m := (List.length_pos_iff.mpr (dec_ne_nil i)).trans_le hm
    obtain ⟨m, rfl⟩ := Nat.exists_eq_add_one.mpr hpos
    have hi : i ≤ (dictAfter [] ts).length := by
      simpa [dictAfter_length h] using hfinal i rfl
    simp [decodeTokens_final hi, expandTokens]

/-- Readable tokens, and then no existing index (43_lz78.md R208). -/
theorem decodeTokens_readable_corrupt {n : Nat} {ts : List Token} {bad : List Byte} (h : tokensReadable 0 ts bad)
    (hbad : noIndexAt ts.length bad) (hn : (ts.flatMap tokenText ++ bad).length ≤ n) :
    decodeTokens n [] (ts.flatMap tokenText ++ bad) = (expandTokens [] ts, .error (.err .corruptStream)) := by
  obtain ⟨m, hm, hdec⟩ := decodeTokens_readable (d := []) h hn
  have hpos : 0 < m := (List.length_pos_iff.mpr (ne_nil_of_noIndexAt hbad)).trans_le hm
  obtain ⟨m, rfl⟩ := Nat.exists_eq_add_one.mpr hpos
  have hend : noIndexAt (dictAfter [] ts).length bad := by simpa [dictAfter_length h] using hbad
  rw [hdec, decodeTokens_corrupt hend, List.append_nil]

/-! ### LZ_DEC on a stream -/

/-- LZ_DEC reads IN to its end, pushes what the loop answers and ends as the loop ends (43_lz78.md R205). -/
theorem lzDecBody_run {c : Config} {ps : Ports} {t out : List Byte} {fin : Except Stop Unit} (hin : ps.inp = ⟨t, false⟩)
    (hfits : fitsInput c.inMax ps.inp.q.length) (h : decodeTokens t.length [] t = (out, fin)) :
    lzDecBody c ps = liftPure fin { ps with
      inp := ⟨[], false⟩
      out := ps.out ++ out
      hist := ps.hist ++ ps.inp.q.map (Event.pull .inp) ++ [.endOf .inp] ++ out.map (Event.push .out) } := by
  obtain rfl : ps.inp.q = t := congrArg Source.q hin
  rw [lzDecBody, bind_run, readAll_fits (congrArg Source.fail hin) hfits]
  simp only [h, bind_run, pushAll_run]
  rfl

/-- Settles O44: the loop expands the tokens and the final index. -/
theorem lzDecExpandsTokens : Obligations.LzDecExpandsTokens :=
  fun _ _ _ hclosed hread hfinal hin hfits =>
    runCommand_codec_ok hclosed (lzDecBody_run hin hfits (decodeTokens_complete hread hfinal le_rfl))

/-- Settles O45: the loop expands the tokens and stops where no index stands. -/
theorem lzDecCorruptStream : Obligations.LzDecCorruptStream :=
  fun _ _ _ hclosed hread hbad hin hfits =>
    runCommand_codec_error hclosed (lzDecBody_run hin hfits (decodeTokens_readable_corrupt hread hbad le_rfl))

/-! ### The reading of a stream -/

/-- The reading of a stream when `n` entries exist: one parse, and the reading of the bytes after the literal. -/
theorem exists_reading (n : Nat) (t : List Byte) :
    ∃ ts tail, t = ts.flatMap tokenText ++ tail ∧ tokensReadable n ts tail ∧
      (tail = [] ∨ (∃ i ≤ n + ts.length, tail = dec i) ∨ noIndexAt (n + ts.length) tail) := by
  obtain ⟨-, hno⟩ | ⟨i, hi, ⟨rest, rfl⟩, -, hlongest⟩ := parseIndex_cases t n
  · refine ⟨[], t, rfl, trivial, ?_⟩
    cases t with
    | nil => exact .inl rfl
    | cons x xs => exact .inr (.inr (noIndexAt_cons_iff.mpr hno))
  · cases rest with
    | nil => exact ⟨[], dec i, List.append_nil _, trivial, .inr (.inl ⟨i, hi, rfl⟩)⟩
    | cons c rest =>
      obtain ⟨ts, tail, rfl, hread, hend⟩ := exists_reading (n + 1) rest
      rw [← flatMap_tokenText_cons] at hlongest ⊢
      refine ⟨⟨i, some c⟩ :: ts, tail, rfl, ⟨hi, hlongest, hread⟩, ?_⟩
      rwa [List.length_cons, ← Nat.add_assoc, Nat.add_right_comm]
termination_by t.length

/-- Settles O60, from the empty dictionary. -/
theorem everyLzStreamHasAReading : Obligations.EveryLzStreamHasAReading := by
  intro t
  simpa using exists_reading 0 t

/-! ### The round trip -/

/-- No longer index text starts at a token whose index is 0 or whose literal is no digit (43_lz78.md R209). -/
theorem dec_length_le_of_prefix {i k : Nat} {c : Byte} {rest : List Byte} (hc : 1 ≤ i → isDigit c = false)
    (h : dec k <+: dec i ++ c :: rest) : (dec k).length ≤ (dec i).length := by
  by_contra hlt
  have hpre : dec i ++ [c] <+: dec k := by
    refine List.prefix_of_prefix_length_le ?_ h (by simpa using hlt)
    exact (List.prefix_append_right_inj _).mpr (List.prefix_append [c] rest)
  obtain rfl | hpos := Nat.eq_zero_or_pos i
  · obtain rfl := eq_zero_of_dec_head (head?_dec_of_prefix h)
    exact hlt le_rfl
  · have hmem : c ∈ dec k := hpre.subset (by simp)
    exact Bool.false_ne_true ((hc hpos).symm.trans (isDigit_of_mem_dec k c hmem))

/-- Allowed tokens without a digit literal after an index of 1 or more are read as they were written
(43_lz78.md R207, R209). -/
theorem readable_of_tokensEncode {d : Dict} {toks : List Token} {s : List Byte} (h : tokensEncode d toks s)
    (hlit : ∀ tok ∈ toks, 1 ≤ tok.index → ∀ c ∈ tok.literal, isDigit c = false) :
    ∃ (ts : List Token) (final : Option Nat), toks = ts ++ final.toList.map (Token.mk · none) ∧
      tokensReadable d.length ts ((final.map dec).getD []) ∧ ∀ i ∈ final, i ≤ d.length + ts.length := by
  induction toks generalizing d s with
  | nil => exact ⟨[], none, rfl, trivial, nofun⟩
  | cons tok toks ih =>
    obtain ⟨htok, htoks⟩ := List.forall_mem_cons.mp hlit
    obtain ⟨i, _ | c⟩ := tok
    · obtain ⟨rfl, -, hi, -⟩ := h
      exact ⟨[], some i, rfl, trivial, fun j hj => Option.mem_some.mp hj ▸ hi⟩
    · obtain ⟨hi, -, rest, -, hrest⟩ := h
      obtain ⟨ts, final, rfl, hread, hfinal⟩ := ih hrest htoks
      rw [List.length_append, List.length_singleton] at hread hfinal
      refine ⟨⟨i, some c⟩ :: ts, final, rfl, ⟨hi, fun k _ hpre => ?_, hread⟩, fun j hj => ?_⟩
      · rw [flatMap_tokenText_cons] at hpre
        exact dec_length_le_of_prefix (fun hpos => htok hpos c rfl) hpre
      · have hj := hfinal j hj
        rw [List.length_cons]
        omega

/-- Settles O46: LZ_ENC's tokens are readable, so LZ_DEC expands them, and they stand for the input. -/
theorem lzRoundTripWithoutDigitLiterals : Obligations.LzRoundTripWithoutDigitLiterals := by
  intro s hclosed hfail hfits hdigits
  obtain ⟨hencode, hexpand, -⟩ := encoderTokensFollowTheRule s.ports.inp.q
  have hlit : ∀ tok ∈ encodeTokens [] [] s.ports.inp.q, 1 ≤ tok.index → ∀ c ∈ tok.literal, isDigit c = false :=
    hdigits.elim (fun h tok ht _ c hc => h c (literal_mem_of_tokensEncode hencode ht hc)) id
  obtain ⟨ts, final, htoks, hread, hfinal⟩ := readable_of_tokensEncode hencode hlit
  rw [List.length_nil, Nat.zero_add] at hfinal
  refine ⟨_, lzEncCompletes s hclosed hfail hfits, rfl, fun u hu hin hufits => ?_⟩
  have hstream : u.ports.inp = ⟨ts.flatMap tokenText ++ (final.map dec).getD [], false⟩ := by
    rw [hin, List.drop_left, htoks, List.flatMap_append, flatMap_tokenText_final]
  refine ⟨_, lzDecExpandsTokens u ts final hu hread hfinal hstream hufits, rfl, ?_⟩
  rw [← hexpand, htoks]

/-! ### Examples -/

/-- Settles O47: the loop evaluated on the stream of the rule. -/
theorem lzDigitAmbiguityIsKept : Obligations.LzDigitAmbiguityIsKept := by
  refine ⟨by decide +kernel, fun s hclosed hin hfits => ?_⟩
  have hbound : fitsInput s.config.inMax s.ports.inp.q.length := by rwa [hin]
  refine ⟨_, runCommand_codec_ok hclosed (lzDecBody_run (fin := .ok ()) hin hbound ?_), rfl, rfl⟩
  decide +kernel

/-- Settles O48, by evaluation. -/
theorem lzWorkedExamples : Obligations.LzWorkedExamples := by
  unfold Obligations.LzWorkedExamples
  decide

end Sys2Proof.Machine
end

section
/-! PROOF. Which command can end with which error code (60_exceptions.md R231): a command completes or reports a code
listed for it, and for each listed code a state in which the command reports it. -/

namespace Sys2Proof.Machine

/-! ### No other code -/

/-- STATUS of the command `i` completed, or of an error with a code listed for it (60_exceptions.md R231). -/
def Listed (i : Instr) (st : Status) : Prop := st = doneStatus ∨ ∃ c ∈ reportableCodes i, st = errStatus c

/-- The command ends in a next state, completed or with a code listed for it. -/
def EndsListed (i : Instr) (s : State) : Prop := ∃ s', exec i s = .next s' ∧ Listed i s'.status

theorem listed_of_mem {i : Instr} {c : BitVec 4} (h : c ∈ reportableCodes i) : Listed i (errStatus c) :=
  .inr ⟨c, h, rfl⟩

/-- InvalidBit is BW_WRITE's for an operand that is no bit (40_bitchannel.md R124). -/
theorem mem_reportableCodes_bwWrite {opa : Byte} {c : BitVec 4} :
    c ∈ reportableCodes (.bwWrite opa) ↔ c = 11#4 ∨ 2 ≤ opa.toNat ∧ c = 2#4 := by
  simp only [reportableCodes]
  split_ifs with h <;> simp [h]

section BitChannel
variable (s : State)

theorem bwOpen_endsListed : EndsListed .bwOpen s := by
  cases ho : s.wOpen with
  | true => exact ⟨_, exec_bwOpen_open ho, listed_of_mem (by decide)⟩
  | false => exact ⟨_, exec_bwOpen_closed ho, .inl rfl⟩

theorem bwWrite_endsListed (opa : Byte) : EndsListed (.bwWrite opa) s := by
  cases ho : s.wOpen with
  | false => exact ⟨_, exec_bwWrite_closed ho opa, listed_of_mem (mem_reportableCodes_bwWrite.mpr (.inl rfl))⟩
  | true =>
    by_cases hopa : 2 ≤ opa.toNat
    · exact ⟨_, exec_bwWrite_invalid ho hopa, listed_of_mem (mem_reportableCodes_bwWrite.mpr (.inr ⟨hopa, rfl⟩))⟩
    · obtain ⟨b, rfl⟩ := exists_bitByte (opa := opa) (by omega)
      obtain ⟨w, ps, hrun, -⟩ := writeBit_accesses (l := [.sink .out]) (by decide) s.wChan b s.ports
      exact ⟨_, exec_bwWrite_bit ho hrun, .inl rfl⟩

theorem bwClose_endsListed : EndsListed .bwClose s := by
  cases ho : s.wOpen with
  | true =>
    obtain ⟨w, ps, hrun, -⟩ := closeWriter_accesses (l := [.sink .out]) (by decide) s.wChan s.ports
    exact ⟨_, exec_bwClose_open ho hrun, .inl rfl⟩
  | false => exact ⟨_, exec_bwClose_closed ho, .inl rfl⟩

theorem brOpen_endsListed : EndsListed .brOpen s := by
  cases ho : s.rOpen with
  | true => exact ⟨_, exec_brOpen_open ho, listed_of_mem (by decide)⟩
  | false => exact ⟨_, exec_brOpen_closed ho, .inl rfl⟩

/-- A read reports the STATUS of its end or EmptyInput (40_bitchannel.md R118, R119). -/
theorem read_endsListed {i : Instr} {st : Status} (hi : ReadCommand i st) : EndsListed i s := by
  have hend : Listed i st := by
    cases hi with
    | read => exact .inl rfl
    | readReq => exact listed_of_mem (by decide)
  have hfail : Listed i (errStatus 1#4) := by cases hi <;> exact listed_of_mem (by decide)
  cases ho : s.rOpen with
  | false => exact ⟨_, exec_read_closed hi ho, hend⟩
  | true =>
    obtain ⟨x, r, ps, hrun, -⟩ := readBit_answers s.rChan s.ports
    refine ⟨_, exec_read_open hi ho hrun, ?_⟩
    cases x with
    | bit b => exact .inl rfl
    | endOf => exact hend
    | fail => exact hfail

theorem brClose_endsListed : EndsListed .brClose s := by
  cases ho : s.rOpen with
  | true => exact ⟨_, exec_brClose_open ho, .inl rfl⟩
  | false => exact ⟨_, exec_brClose_closed ho, .inl rfl⟩

end BitChannel

/-- A part of the command `i` that ends in an error ends in one with a listed code, whatever it released. -/
def ErrListed (i : Instr) (o : Option Err) (_ : List Event) : Prop := ∀ e, o = some e → e.code ∈ reportableCodes i

theorem errListed_none (i : Instr) (rels : List Event) : ErrListed i none rels := nofun

theorem errListed_some {i : Instr} {e : Err} (h : e.code ∈ reportableCodes i) (rels : List Event) :
    ErrListed i (some e) rels := fun _ he => Option.some.inj he ▸ h

/-- A codec whose body raises listed errors only (60_exceptions.md R236). -/
theorem codec_endsListed {i : Instr} {body : Config → PortM Unit} {s : State}
    (hexec : exec i s = runCommand (codec body) s) (hseq : 11#4 ∈ reportableCodes i)
    (hb : Traces s.ports.failed (portsUsed i) (ErrListed i) (body s.config)) : EndsListed i s := by
  obtain ⟨s', hrun, -⟩ := everyCommandCompletesOrReportsAnError i s
  refine ⟨s', hrun, ?_⟩
  obtain rfl | ⟨ps, -, rfl⟩ | ⟨e, ps, herr, rfl⟩ := codec_next_cases (hexec.symm.trans hrun)
  · exact listed_of_mem hseq
  · exact .inl rfl
  · have hends := hb s.ports rfl
    rw [herr] at hends
    obtain ⟨_, hcode, -⟩ := hends
    exact listed_of_mem (hcode e rfl)

/-- ReadAll's two errors are listed for the codecs that start with it (20_memory.md R64). -/
theorem readAll_errListed {i : Instr} (h1 : 1#4 ∈ reportableCodes i) (h9 : 9#4 ∈ reportableCodes i) (e : Err)
    (he : e = .emptyInput ∨ e = .capacityExceeded) : ErrListed i (some e) [] := by
  obtain rfl | rfl := he
  · exact errListed_some h1 []
  · exact errListed_some h9 []

section Codecs
variable {F : SrcPort → Bool} (c : Config)

/-- After ReadAll, HUF_ENC raises nothing: every input has a table (60_exceptions.md R247). -/
theorem hufEncBody_errListed : Traces F (portsUsed .hufEnc) (ErrListed .hufEnc) (hufEncBody c) := by
  refine traces_bind (traces_readAll (by decide) _) (readAll_errListed (by decide) (by decide)) fun input => ?_
  obtain ⟨t, ht, -⟩ := encoderTable_ok input
  have htable : Traces F (portsUsed .hufEnc) (Quiet fun _ => False) (liftPure (encoderTable input)) :=
    ht ▸ traces_pure t (quiet_none _)
  refine traces_bind htable (fun _ => False.elim) fun t => ?_
  refine traces_bind (E := fun _ => False) (traces_pushAll (by decide) _) (fun _ => False.elim) fun _ => ?_
  refine traces_bind (E := fun _ => False) (traces_writeBits (by decide) _ _) (fun _ => False.elim) fun w ps _ => ?_
  obtain ⟨w', ps', hrun, hacc⟩ := closeWriter_accesses (l := portsUsed .hufEnc) (by decide) w ps
  rw [bind_run, hrun]
  exact ⟨_, errListed_none _ _, hacc⟩

/-- HUF_DEC raises EmptyInput on a failed TBLI, else CorruptTable before its reader opens, and then what its two loops
raise (42_huffman_decoder.md R171, R173, R177). -/
theorem hufDecBody_errListed : Traces F (portsUsed .hufDec) (ErrListed .hufDec) (hufDecBody c) := by
  cases hF : F .tbli with
  | true =>
    intro ps hps
    have hfail : ps.tbli.fail = true := (congrFun hps .tbli).trans hF
    rw [hufDecBody_failed hfail]
    exact ⟨[], errListed_some (by decide) [], accesses_event (e := .fail .tbli) rfl (by decide) (if_pos hfail)⟩
  | false =>
    have hcorrupt (e : Err) (he : e = .corruptTable) : ErrListed .hufDec (some e) [] :=
      errListed_some (he ▸ by decide) []
    refine traces_bind (traces_readRecords (by decide) hF nsym) hcorrupt fun t => ?_
    have htree : Traces F (portsUsed .hufDec) (Quiet (· = .corruptTable)) (liftPure (rebuildTree t)) :=
      traces_liftPure (quiet_none _) fun e he => quiet_some (rebuildTree_raisesOnly t e he)
    refine traces_bind htree hcorrupt fun root ps hps => ?_
    refine traces_decodeLoop (by decide) (by decide) (errListed_none _ _) (fun e he => ?_) root root _ _ ps hps
    obtain rfl | rfl | rfl := he <;> exact errListed_some (by decide) _

theorem lzEncBody_errListed : Traces F (portsUsed .lzEnc) (ErrListed .lzEnc) (lzEncBody c) :=
  traces_bind (traces_readAll (by decide) _) (readAll_errListed (by decide) (by decide)) fun _ =>
    traces_of_quiet (E := fun _ => False) (traces_pushAll (by decide) _) (errListed_none _ _) fun _ => False.elim

/-- A stream that does not decode is CorruptStream (43_lz78.md R208). -/
theorem decodeTokens_raisesOnly (n : Nat) (d : Dict) (t : List Byte) :
    RaisesOnly .corruptStream (decodeTokens n d t).2 := by
  induction n generalizing d t with
  | zero => cases t <;> exact nofun
  | succ n ih =>
    cases t with
    | nil => exact nofun
    | cons x xs =>
      unfold decodeTokens
      split
      · intro e h
        cases h
        rfl
      · split
        · exact nofun
        · exact ih _ _

/-- After ReadAll, LZ_DEC raises CorruptStream alone (43_lz78.md R205, R208). -/
theorem lzDecBody_errListed : Traces F (portsUsed .lzDec) (ErrListed .lzDec) (lzDecBody c) := by
  refine traces_bind (traces_readAll (by decide) _) (readAll_errListed (by decide) (by decide)) fun t => ?_
  refine traces_bind (E := fun _ => False) (traces_pushAll (by decide) _) (fun _ => False.elim) fun _ => ?_
  refine traces_liftPure (errListed_none _ _) fun e he => ?_
  rw [decodeTokens_raisesOnly _ _ _ e he]
  exact errListed_some (by decide) []

end Codecs

/-- A command completes or reports a code of its row (60_exceptions.md R231). -/
theorem exec_endsListed (i : Instr) (s : State) : EndsListed i s := by
  cases i with
  | bwOpen => exact bwOpen_endsListed s
  | bwWrite opa => exact bwWrite_endsListed s opa
  | bwClose => exact bwClose_endsListed s
  | brOpen => exact brOpen_endsListed s
  | brRead => exact read_endsListed s .read
  | brReadReq => exact read_endsListed s .readReq
  | brClose => exact brClose_endsListed s
  | hufEnc => exact codec_endsListed rfl (by decide) (hufEncBody_errListed s.config)
  | hufDec => exact codec_endsListed rfl (by decide) (hufDecBody_errListed s.config)
  | lzEnc => exact codec_endsListed rfl (by decide) (lzEncBody_errListed s.config)
  | lzDec => exact codec_endsListed rfl (by decide) (lzDecBody_errListed s.config)

theorem errCode_mem_reportableCodes {i : Instr} {s s' : State} (h : exec i s = .next s') (herr : s'.status.err = true) :
    s'.status.errCode ∈ reportableCodes i := by
  obtain ⟨s1, hrun, hlisted⟩ := exec_endsListed i s
  cases hrun.symm.trans h
  obtain hdone | ⟨c, hc, hst⟩ := hlisted
  · rw [hdone] at herr
    cases herr
  · rwa [hst]

/-! ### Each listed code -/

/-- Some state ends the command in the error with code `c`. -/
def CanReport (i : Instr) (c : BitVec 4) : Prop := ∃ s s', exec i s = .next s' ∧ s'.status = errStatus c

/-- After reset, with these bytes on TBLI and on IN. -/
def resetWith (table bytes : List Byte) : State :=
  { State.reset with ports := { State.reset.ports with tbli := ⟨table, false⟩, inp := ⟨bytes, false⟩ } }

/-- After reset, with both sources failed. -/
def resetFailed : State :=
  { State.reset with ports := { State.reset.ports with tbli := ⟨[], true⟩, inp := ⟨[], true⟩ } }

/-- After reset, with a writer and a reader open. -/
def resetOpen : State := { State.reset with wOpen := true, rOpen := true }

/-- After reset with `IN_MAX = 0`, with one byte on IN. -/
def resetOverfull : State := { resetWith [] [0x00#8] with config := ⟨some 0⟩ }

theorem read_canReport_emptyInput {i : Instr} {st : Status} (hi : ReadCommand i st) : CanReport i 1#4 :=
  ⟨{ resetFailed with rOpen := true }, _, exec_read_failed hi rfl rfl rfl, rfl⟩

theorem bwWrite_canReport {opa : Byte} {c : BitVec 4} (hc : c ∈ reportableCodes (.bwWrite opa)) :
    CanReport (.bwWrite opa) c := by
  obtain rfl | ⟨hopa, rfl⟩ := mem_reportableCodes_bwWrite.mp hc
  · exact ⟨State.reset, _, exec_bwWrite_closed rfl opa, rfl⟩
  · exact ⟨resetOpen, _, exec_bwWrite_invalid rfl hopa, rfl⟩

/-- Each code listed for a codec that starts with ReadAll, CorruptStream aside (20_memory.md R64). -/
theorem readAll_canReport {i : Instr} {body : Config → PortM Unit} {rest : Config → List Byte → PortM Unit}
    (hexec : ∀ s, exec i s = runCommand (codec body) s) (hbody : ∀ c, body c = readAll c.inMax >>= rest c)
    {c : BitVec 4} (hc : c ∈ [11#4, 1#4, 9#4]) : CanReport i c := by
  obtain ⟨hopen, hfailed, hoverfull⟩ := readAll_codec_errors hbody
  simp only [List.mem_cons, List.not_mem_nil, or_false] at hc
  obtain rfl | rfl | rfl := hc
  · exact ⟨resetOpen, _, (hexec _).trans (hopen _ (by decide)), rfl⟩
  · exact ⟨resetFailed, _, (hexec _).trans (hfailed _ (by decide) rfl), rfl⟩
  · exact ⟨resetOverfull, _, (hexec _).trans (hoverfull _ 0 (by decide) rfl rfl (by decide)), rfl⟩

/-- No index text starts with `X` (43_lz78.md R208). -/
theorem lzDec_canReport_corruptStream : CanReport .lzDec 8#4 :=
  ⟨resetWith [] [0x58#8], _,
    lzDecCorruptStream _ [] [0x58#8] (by decide) trivial (.inl (by decide)) rfl nofun, rfl⟩

theorem emptyInputTable_valid : emptyInputTable.valid := by decide +kernel

theorem emptyInputTable_slot_isSome (k : Symbol) : (emptyInputTable.slot k).isSome = true ↔ k = eos := by
  revert k
  decide +kernel

theorem rebuildTree_emptyInputTable : rebuildTree emptyInputTable = .ok ⟨.leaf eos, .empty⟩ :=
  rebuildTree_single emptyInputTable_valid emptyInputTable_slot_isSome

/-- An empty TBLI ends before a record: CorruptTable at the first pull (42_huffman_decoder.md R171). -/
theorem hufDec_canReport_corruptTable : CanReport .hufDec 6#4 := ⟨State.reset, _, rfl, rfl⟩

/-- A table and no payload (42_huffman_decoder.md R177). -/
theorem hufDec_canReport_truncatedStream : CanReport .hufDec 4#4 := by
  obtain ⟨-, hends⟩ := hufDecPayloadErrors
  exact ⟨resetWith (tableText emptyInputTable ++ []) [], _,
    hends _ emptyInputTable _ (fun _ => []) [] [] [] [] (by decide) emptyInputTable_valid rebuildTree_emptyInputTable
      nofun (.inl rfl) rfl rfl rfl, rfl⟩

/-- The degenerate Root has the placeholder for the bit 1 (42_huffman_decoder.md R180). -/
theorem hufDec_canReport_corruptTree : CanReport .hufDec 7#4 := by
  obtain ⟨heos, -⟩ := oneSlotTableDecoding
  obtain ⟨-, hrun⟩ := heos (resetWith (tableText emptyInputTable ++ []) [0x80#8]) emptyInputTable 0x80#8 [] []
    (by decide) emptyInputTable_valid emptyInputTable_slot_isSome rfl rfl
  exact ⟨_, _, hrun, rfl⟩

theorem hufDec_canReport {c : BitVec 4} (hc : c ∈ reportableCodes .hufDec) : CanReport .hufDec c := by
  obtain ⟨hopen, hfailed, -⟩ := hufDecTableErrors
  simp only [reportableCodes, List.mem_cons, List.not_mem_nil, or_false] at hc
  obtain rfl | rfl | rfl | rfl | rfl := hc
  · exact ⟨resetOpen, _, hopen _ (by decide), rfl⟩
  · exact ⟨resetFailed, _, hfailed _ (by decide) rfl, rfl⟩
  · exact hufDec_canReport_corruptTable
  · exact hufDec_canReport_truncatedStream
  · exact hufDec_canReport_corruptTree

/-- Every code of a command's row is reported in some state (60_exceptions.md R231). -/
theorem canReport_of_mem {i : Instr} {c : BitVec 4} (hc : c ∈ reportableCodes i) : CanReport i c := by
  cases i with
  | bwOpen =>
    obtain rfl := List.mem_singleton.mp hc
    exact ⟨resetOpen, _, exec_bwOpen_open rfl, rfl⟩
  | bwWrite opa => exact bwWrite_canReport hc
  | bwClose => cases hc
  | brOpen =>
    obtain rfl := List.mem_singleton.mp hc
    exact ⟨resetOpen, _, exec_brOpen_open rfl, rfl⟩
  | brRead =>
    obtain rfl := List.mem_singleton.mp hc
    exact read_canReport_emptyInput .read
  | brReadReq =>
    obtain rfl | hc := List.mem_cons.mp hc
    · exact read_canReport_emptyInput .readReq
    · obtain rfl := List.mem_singleton.mp hc
      exact ⟨State.reset, _, exec_read_closed .readReq rfl, rfl⟩
  | brClose => cases hc
  | hufEnc => exact readAll_canReport (fun _ => rfl) (fun _ => rfl) hc
  | hufDec => exact hufDec_canReport hc
  | lzEnc => exact readAll_canReport (fun _ => rfl) (fun _ => rfl) hc
  | lzDec =>
    obtain hc | hc := List.mem_append.mp (show c ∈ [11#4, 1#4, 9#4] ++ [8#4] from hc)
    · exact readAll_canReport (fun _ => rfl) (fun _ => rfl) hc
    · obtain rfl := List.mem_singleton.mp hc
      exact lzDec_canReport_corruptStream

/-- Settles O8: no code outside a command's row, each one of its row in some state, and 10 for an illegal word. -/
theorem errorCodesByCommand : Obligations.ErrorCodesByCommand :=
  ⟨fun _ _ _ => errCode_mem_reportableCodes, fun _ _ => canReport_of_mem, fun _ _ s h => commandWrite_illegal h s⟩

end Sys2Proof.Machine
end

section
/-! PROOF. The host's actions on the ports between two commands, and a command stopped by reset
(70_reset_and_hazards.md R261, R262). -/

namespace Sys2Proof.Machine

/-! ### Port actions -/

theorem portAction_idle {s : State} (h : s.status.busy = false) (f : Ports → Ports) :
    portAction f s = .next { s with ports := f s.ports } := by
  simp [portAction, h]

section Step
variable {s : State} {rest : List HostAction}

/-- Loading appends to the source's queue (70_reset_and_hazards.md R262). -/
theorem step_load {p : SrcPort} {bytes : List Byte} (hp : s.pending = .load p bytes :: rest)
    (hb : s.status.busy = false) :
    step s = .next { s with
      pending := rest
      ports := s.ports.setSource p ⟨(s.ports.source p).q ++ bytes, (s.ports.source p).fail⟩ } := by
  simp [step_performs hp, perform, portAction_idle, hb]

/-- Failing and unfailing set the source's flag (70_reset_and_hazards.md R262). -/
theorem step_setFail {p : SrcPort} {f : Bool} (hp : s.pending = .setFail p f :: rest) (hb : s.status.busy = false) :
    step s = .next { s with pending := rest, ports := s.ports.setSource p ⟨(s.ports.source p).q, f⟩ } := by
  simp [step_performs hp, perform, portAction_idle, hb]

/-- Draining empties the sink's log (70_reset_and_hazards.md R262). -/
theorem step_drain {p : SinkPort} (hp : s.pending = .drain p :: rest) (hb : s.status.busy = false) :
    step s = .next { s with pending := rest, ports := s.ports.setLog p [] } := by
  simp [step_performs hp, perform, portAction_idle, hb]

/-- Copying appends TBLO's log to TBLI's queue (70_reset_and_hazards.md R262). -/
theorem step_copyTable (hp : s.pending = .copyTable :: rest) (hb : s.status.busy = false) :
    step s = .next { s with
      pending := rest
      ports := { s.ports with tbli := ⟨s.ports.tbli.q ++ s.ports.tblo, s.ports.tbli.fail⟩ } } := by
  simp [step_performs hp, perform, portAction_idle, hb]

end Step

/-- Settles O57: a load, a failure flag and a drain at each of their two ports, and the copy. -/
theorem hostPortActions : Obligations.HostPortActions := fun _ _ hb =>
  ⟨fun _ hp => step_load hp hb, fun _ hp => step_load hp hb, fun _ hp => step_setFail hp hb,
    fun _ hp => step_setFail hp hb, fun hp => step_drain hp hb, fun hp => step_drain hp hb,
    fun hp => step_copyTable hp hb⟩

/-! ### Events replayed -/

/-- An event that can happen does to the ports what `replay` makes of it (20_memory.md R52 to R54). -/
theorem replay_of_applyEvent {ps ps' : Ports} {e : Event} (h : applyEvent ps e = some ps') : ps.replay e = ps' := by
  cases e <;> simp only [applyEvent, Option.ite_none_right_eq_some, Option.some.injEq] at h
  case push | rel => exact h
  case pull | endOf | fail =>
    obtain ⟨-, happly⟩ := h
    exact happly

theorem foldl_replay_of_applyEvents {es : List Event} {ps ps' : Ports} (h : applyEvents es ps = some ps') :
    es.foldl Ports.replay ps = ps' := by
  induction es generalizing ps with
  | nil => exact Option.some.inj h
  | cons e es ih =>
    obtain ⟨ps1, hhead, htail⟩ := Option.bind_eq_some_iff.mp h
    rw [List.foldl_cons, replay_of_applyEvent hhead]
    exact ih htail

/-- Where a list of events can happen, each of its initial segments can, and leaves what replaying it gives. -/
theorem applyEvents_of_prefix {es es' : List Event} {ps ps' : Ports} (hpre : es <+: es')
    (h : applyEvents es' ps = some ps') : applyEvents es ps = some (es.foldl Ports.replay ps) := by
  obtain ⟨tail, rfl⟩ := hpre
  rw [applyEvents_append] at h
  obtain ⟨ps1, hes, -⟩ := Option.bind_eq_some_iff.mp h
  rw [hes, foldl_replay_of_applyEvents hes]

/-! ### A command stopped by reset -/

/-- A word written to CMD runs to a next state, by accesses and then releases (20_memory.md R55); an illegal one does
neither (30_encoding.md R83). -/
theorem commandWrite_accesses (v : Word) (s : State) :
    ∃ s1 l rels, commandWrite v s = .next s1 ∧ (∀ e ∈ rels, e.isRelease = true) ∧
      Ports.Accesses l rels s.ports s1.ports := by
  cases hd : decode v with
  | ok i =>
    obtain ⟨s1, hexec, -⟩ := everyCommandCompletesOrReportsAnError i s
    exact ⟨s1, _, _, (commandWrite_legal hd s).trans hexec, fun _ => releasesBy_isRelease, exec_accesses hexec⟩
  | error e => exact ⟨_, [], [], commandWrite_illegal hd s, nofun, accesses_refl _ _⟩

section Stopped
variable {l : List Port} {rels : List Event} {s s1 : State}

/-- As the releases come last, the events kept of a stopped command are the first of those that are no release
(70_reset_and_hazards.md R261). -/
theorem keptEvents_eq_take (hrels : ∀ e ∈ rels, e.isRelease = true) (h : Ports.Accesses l rels s.ports s1.ports)
    (n : Nat) : keptEvents n s s1 = ((newEvents s s1).filter fun e => !e.isRelease).take n := by
  obtain ⟨evs, hevs, hrun⟩ := h
  have haccess : ∀ e ∈ evs, (!e.isRelease) = true := fun e he => by simp [(hevs e he).1]
  have hnone : rels.filter (fun e => !e.isRelease) = [] :=
    List.filter_eq_nil_iff.mpr fun e he => by simp [hrels e he]
  have hstop : rels.takeWhile (fun e => !e.isRelease) = [] :=
    List.takeWhile_eq_nil_iff.mpr fun hl => by simp [hrels _ (List.getElem_mem hl)]
  rw [keptEvents, newEvents_of_runs hrun, ← List.take_takeWhile, List.takeWhile_append_of_pos haccess, hstop,
    List.filter_append, List.filter_eq_self.mpr haccess, hnone]

/-- The events kept of a stopped command can happen, and `portsAfter` is what they leave (log entry 7). -/
theorem applyEvents_keptEvents (h : Ports.Accesses l rels s.ports s1.ports) (n : Nat) :
    applyEvents (keptEvents n s s1) s.ports = some (portsAfter n s s1) := by
  obtain ⟨evs, -, hrun⟩ := h
  have hpre := keptEvents_prefix n s s1
  rw [newEvents_of_runs hrun] at hpre
  obtain ⟨-, happly⟩ := hrun
  exact applyEvents_of_prefix hpre happly

end Stopped

theorem perform_resetDuring {v : Word} {s s1 : State} (hb : s.status.busy = false) (h : commandWrite v s = .next s1)
    (n : Nat) : perform (.resetDuring v n) s = .next { s with ports := portsAfter n s s1 }.resetBlock := by
  simp [perform, hb, h]

/-- Settles O56: the events that stay are `keptEvents`, the ports after them are `portsAfter`. -/
theorem resetDuringCommandKeepsAPrefixOfEvents : Obligations.ResetDuringCommandKeepsAPrefixOfEvents := by
  intro s v n rest hp hb
  obtain ⟨s1, l, rels, hcmd, hrels, hacc⟩ := commandWrite_accesses v { s with pending := rest }
  refine ⟨s1, keptEvents n s s1, portsAfter n s s1, hcmd, keptEvents_prefix n s s1,
    fun _ he => keptEvents_noRelease he, ?_, applyEvents_keptEvents hacc n,
    (step_performs hp).trans (perform_resetDuring (s := { s with pending := rest }) hb hcmd n)⟩
  rw [keptEvents_eq_take (s := s) hrels hacc, List.length_take]

end Sys2Proof.Machine
end
